-- ==== Sys2Proof/Word.lean ====
section
/-! DEFINITION. The widths of the manual's values (00_scope.md R6, R8 to R10). -/

namespace Sys2Proof

/-- A long: the width of a cog register (R6). -/
abbrev Word := BitVec 32

/-- One byte of hub memory (R6). -/
abbrev Byte := BitVec 8

/-- An address in cog register space, and every other 9-bit field of an instruction (R6, R91). -/
abbrev RegAddr := BitVec 9

/-- A byte address in hub memory, and the width of PTRA and PTRB (R6, R28). -/
abbrev HubAddr := BitVec 17

/-- The number of a cog, 0..7 (R1). -/
abbrev CogId := Fin 8

/-- The number of a lock, 0..7 (R36). -/
abbrev LockId := Fin 8

end Sys2Proof
end

