-- ==== Sys2Proof/Config.lean ====
section
/-! DEFINITION. What the spec leaves open (00_scope.md R7, 10_state.md R40, 93_implementation_defined.md): parameters and
free values. Every constant here has no body, so nothing can be proved of its value; a free value is one of these
functions applied to the counter `draws` of the state (log 41). -/

namespace Sys2Proof

/-- The three hidden 9-bit registers of INDA or INDB (10_state.md R29). -/
structure IndReg where
  ptr : RegAddr
  bot : RegAddr
  top : RegAddr
deriving DecidableEq, Repr, Inhabited

/-- One program that the boot process starts (70_reset_and_hazards.md R331): a cog, a hub address, a parameter. -/
structure BootEntry where
  cog  : CogId
  addr : HubAddr
  par  : HubAddr
deriving DecidableEq, Repr, Inhabited

/-- The private state that a cog start-up leaves unspecified (10_state.md R41, 43_hub_control.md R184, U20). -/
structure StartUp where
  cf         : Bool
  zf         : Bool
  inda       : IndReg
  indb       : IndReg
  spa        : BitVec 8
  spb        : BitVec 8
  pinRegs    : Vector Word 8
  cacheTag   : BitVec 13
  lastStored : Word
  cnthLatch  : Word
  cntBorrow  : Bool
deriving DecidableEq, Repr, Inhabited

/-- The hub state that a chip reset leaves unspecified (10_state.md R41, U21). -/
structure ResetDraw where
  ram      : List Host.Cell
  locks    : Vector Bool 8
  lockUsed : Vector Bool 8
  cnt      : BitVec 64
deriving DecidableEq, Repr, Inhabited

/-- `ROM_IMAGE` (20_memory.md R66, D10): the bytes of hub ROM that the spec does not give (log 7). -/
opaque Config.romImage : Nat → Byte

/-- `BOOT` (70_reset_and_hazards.md R331, D19): what is started at chip reset (log 10). -/
opaque Config.boot : List BootEntry

/-- A register result that the spec calls `any value` (30_encoding.md R105, U24; log 15). -/
opaque Config.anyWord : Nat → Word

/-- A flag that the spec calls `any value` (30_encoding.md R105, U24; log 15). -/
opaque Config.anyFlag : Nat → Bool

/-- How many clocks more than the least pass before a read of CNT (70_reset_and_hazards.md R345; log 19). -/
opaque Config.clockDraw : Nat → Nat

/-- `pins_in` at one sample (10_state.md R39, D30; log 23). -/
opaque Config.pinsIn : Nat → Word

/-- Which cog steps next, as an index into those that are not idle (60_exceptions.md R320; log 13). -/
opaque Config.schedule : Nat → Nat

/-- `pick_idle_cog` (43_hub_control.md R181, D15), as an index into the idle cogs (log 14). -/
opaque Config.pickIdleCog : Nat → Nat

/-- `pick_free_lock` (43_hub_control.md R192, D15), as an index into the free locks (log 14). -/
opaque Config.pickFreeLock : Nat → Nat

/-- Which of the longs still to be copied the loader copies next (43_hub_control.md R184 "order not given"; log 26). -/
opaque Config.loadOrder : Nat → Nat

/-- The private state a cog start-up leaves unspecified (U20; log 16). -/
opaque Config.startUp : Nat → StartUp

/-- The hub state a chip reset leaves unspecified (U21; log 29). -/
opaque Config.afterReset : Nat → ResetDraw

end Sys2Proof
end

