-- ==== Sys2Proof/Syntax.lean ====
section
/-! DEFINITION. The instructions: one constructor per row of spec/opcode_table.json, in the table's order
(30_encoding.md R101, R102, R104). `cccc` is the condition field, or the indirect modes (R97, R98); `d` and `s` are register
fields, where $1F6 and $1F7 name INDA and INDB (R92, R93); `n` is an immediate; `z`, `c`, `r` are the ZCR bits that the row
prints as letters (R94). -/

namespace Sys2Proof

/-- Which pointer a PTR expression names: bit 8 of the field (30_encoding.md R99). -/
inductive PtrSel where
  | ptra
  | ptrb
deriving DecidableEq, Repr

/-- A PTR expression `SUPNNNNNN` (30_encoding.md R99). -/
structure PtrExpr where
  sel    : PtrSel
  update : Bool
  post   : Bool
  index  : BitVec 6
deriving DecidableEq, Repr

/-- The S operand of a row whose I bit is free: a register field or a 9-bit immediate (30_encoding.md R95). -/
inductive Src where
  | reg (s : RegAddr)
  | imm (n : BitVec 9)
deriving DecidableEq, Repr

inductive Instr where
  -- hub bytes
  | wrbyteS (cccc : BitVec 4) (d s : RegAddr)
  | wrbyteP (cccc : BitVec 4) (d : RegAddr) (p : PtrExpr)
  | rdbyteS (z : Bool) (cccc : BitVec 4) (d s : RegAddr)
  | rdbyteP (z : Bool) (cccc : BitVec 4) (d : RegAddr) (p : PtrExpr)
  | rdbytecS (z : Bool) (cccc : BitVec 4) (d s : RegAddr)
  | rdbytecP (z : Bool) (cccc : BitVec 4) (d : RegAddr) (p : PtrExpr)
  -- hub words
  | wrwordS (cccc : BitVec 4) (d s : RegAddr)
  | wrwordP (cccc : BitVec 4) (d : RegAddr) (p : PtrExpr)
  | rdwordS (z : Bool) (cccc : BitVec 4) (d s : RegAddr)
  | rdwordP (z : Bool) (cccc : BitVec 4) (d : RegAddr) (p : PtrExpr)
  | rdwordcS (z : Bool) (cccc : BitVec 4) (d s : RegAddr)
  | rdwordcP (z : Bool) (cccc : BitVec 4) (d : RegAddr) (p : PtrExpr)
  -- hub longs
  | wrlongS (cccc : BitVec 4) (d s : RegAddr)
  | wrlongP (cccc : BitVec 4) (d : RegAddr) (p : PtrExpr)
  | rdlongS (z : Bool) (cccc : BitVec 4) (d s : RegAddr)
  | rdlongP (z : Bool) (cccc : BitVec 4) (d : RegAddr) (p : PtrExpr)
  | rdlongcS (z : Bool) (cccc : BitVec 4) (d s : RegAddr)
  | rdlongcP (z : Bool) (cccc : BitVec 4) (d : RegAddr) (p : PtrExpr)
  -- QUAD transfers
  | wrquadD (cccc : BitVec 4) (d : RegAddr)
  | wrquadP (cccc : BitVec 4) (p : PtrExpr)
  | rdquadD (cccc : BitVec 4) (d : RegAddr)
  | rdquadP (cccc : BitVec 4) (p : PtrExpr)
  | rdquadcD (cccc : BitVec 4) (d : RegAddr)
  | rdquadcP (cccc : BitVec 4) (p : PtrExpr)
  -- PTRA/PTRB
  | getptra (z c r : Bool) (cccc : BitVec 4) (d : RegAddr)
  | getptrb (z c r : Bool) (cccc : BitVec 4) (d : RegAddr)
  | setptraD (cccc : BitVec 4) (d : RegAddr)
  | setptraI (cccc : BitVec 4) (n : BitVec 9)
  | setptrbD (cccc : BitVec 4) (d : RegAddr)
  | setptrbI (cccc : BitVec 4) (n : BitVec 9)
  | addptraD (cccc : BitVec 4) (d : RegAddr)
  | addptraI (cccc : BitVec 4) (n : BitVec 9)
  | addptrbD (cccc : BitVec 4) (d : RegAddr)
  | addptrbI (cccc : BitVec 4) (n : BitVec 9)
  | subptraD (cccc : BitVec 4) (d : RegAddr)
  | subptraI (cccc : BitVec 4) (n : BitVec 9)
  | subptrbD (cccc : BitVec 4) (d : RegAddr)
  | subptrbI (cccc : BitVec 4) (n : BitVec 9)
  -- QUAD control
  | cachex (cccc : BitVec 4)
  | gettops (z : Bool) (cccc : BitVec 4) (d : RegAddr)
  | setquadD (cccc : BitVec 4) (d : RegAddr)
  | setquadI (cccc : BitVec 4) (n : BitVec 9)
  | setquazD (cccc : BitVec 4) (d : RegAddr)
  | setquazI (cccc : BitVec 4) (n : BitVec 9)
  -- hub control
  | coginit (z c r : Bool) (cccc : BitVec 4) (d s : RegAddr)
  | clkset (cccc : BitVec 4) (d : RegAddr)
  | cogid (cccc : BitVec 4) (d : RegAddr)
  | cogstop (cccc : BitVec 4) (d : RegAddr)
  | locknew (z c : Bool) (cccc : BitVec 4) (d : RegAddr)
  | lockret (cccc : BitVec 4) (d : RegAddr)
  | lockset (c : Bool) (cccc : BitVec 4) (d : RegAddr)
  | lockclr (c : Bool) (cccc : BitVec 4) (d : RegAddr)
  -- indirect registers; `addr` sets, `delta` adjusts
  | setindaSet (addr : BitVec 9)
  | setindaAdj (delta : BitVec 9)
  | setindbSet (addr : BitVec 9)
  | setindbAdj (delta : BitVec 9)
  | setindsSetSet (addrB addrA : BitVec 9)
  | setindsSetAdj (addrB deltaA : BitVec 9)
  | setindsAdjSet (deltaB addrA : BitVec 9)
  | setindsAdjAdj (deltaB deltaA : BitVec 9)
  | fixinda (terminal initial : BitVec 9)
  | fixindb (terminal initial : BitVec 9)
  | fixinds (terminal initial : BitVec 9)
  -- system counter and waits
  | subcnt (z c : Bool) (cccc : BitVec 4) (d : RegAddr)
  | cmpcnt (z c : Bool) (cccc : BitVec 4) (d : RegAddr)
  | passcnt (cccc : BitVec 4) (d : RegAddr)
  | getcnt (cccc : BitVec 4) (d : RegAddr)
  | waitcnt (wide r : Bool) (cccc : BitVec 4) (d : RegAddr) (src : Src)
  | waitpeq (cccc : BitVec 4) (d : RegAddr) (src : Src)
  | waitpne (cccc : BitVec 4) (d : RegAddr) (src : Src)
  -- known from one example each
  | mov (cccc : BitVec 4) (d : RegAddr) (src : Src)
  | add (cccc : BitVec 4) (d : RegAddr) (src : Src)
deriving DecidableEq, Repr

end Sys2Proof
end

