-- ==== Sys2Proof/WellFormed.lean ====
section
/-! DEFINITION. Which instructions the spec gives a meaning: the encodings whose nine D bits would be both a number and
INDA or INDB have none (30_encoding.md R92, 90_conflicts.md C1, U10), nor has PASSCNT with a post-modifying indirect D
(46_cnt_wait.md R258, U31). -/

namespace Sys2Proof

/-- The field names INDA ($1F6) or INDB ($1F7) when it is a register field (10_state.md R21). -/
def namesInd (f : BitVec 9) : Bool := f == 0x1F6 || f == 0x1F7

/-- The PTR expressions whose nine bits are $1F6 and $1F7: `PTRB--[10]` and `PTRB--[9]` (40_hub_memory.md R129). -/
def PtrExpr.namesInd (p : PtrExpr) : Bool := p == ⟨.ptrb, true, true, 0x36⟩ || p == ⟨.ptrb, true, true, 0x37⟩

/-- Why an instruction of a listed row has no meaning. -/
inductive Defect where
  /-- An immediate or PTR expression in the D field equals $1F6 or $1F7 (U10). -/
  | fieldNamesInd
  /-- PASSCNT with an indirect D that post-modifies (U31). -/
  | passcntPostModifies
deriving DecidableEq, Repr

/-- A D field that is a number or a PTR expression holds the bits of $1F6 or $1F7 (30_encoding.md R92, U10). -/
def Instr.numberNamesInd : Instr → Bool
  | .wrquadP _ p | .rdquadP _ p | .rdquadcP _ p => p.namesInd
  | .setptraI _ n | .setptrbI _ n | .addptraI _ n | .addptrbI _ n | .subptraI _ n | .subptrbI _ n
  | .setquadI _ n | .setquazI _ n => namesInd n
  | .wrbyteS .. | .wrbyteP .. | .rdbyteS .. | .rdbyteP .. | .rdbytecS .. | .rdbytecP ..
  | .wrwordS .. | .wrwordP .. | .rdwordS .. | .rdwordP .. | .rdwordcS .. | .rdwordcP ..
  | .wrlongS .. | .wrlongP .. | .rdlongS .. | .rdlongP .. | .rdlongcS .. | .rdlongcP ..
  | .wrquadD .. | .rdquadD .. | .rdquadcD .. | .getptra .. | .getptrb ..
  | .setptraD .. | .setptrbD .. | .addptraD .. | .addptrbD .. | .subptraD .. | .subptrbD ..
  | .cachex .. | .gettops .. | .setquadD .. | .setquazD ..
  | .coginit .. | .clkset .. | .cogid .. | .cogstop .. | .locknew .. | .lockret .. | .lockset .. | .lockclr ..
  | .setindaSet .. | .setindaAdj .. | .setindbSet .. | .setindbAdj ..
  | .setindsSetSet .. | .setindsSetAdj .. | .setindsAdjSet .. | .setindsAdjAdj ..
  | .fixinda .. | .fixindb .. | .fixinds ..
  | .subcnt .. | .cmpcnt .. | .passcnt .. | .getcnt .. | .waitcnt .. | .waitpeq .. | .waitpne ..
  | .mov .. | .add .. => false

/-- PASSCNT re-executes itself, so a D mode that moves the pointer has no meaning (46_cnt_wait.md R258). -/
def Instr.movesPasscnt : Instr → Bool
  | .passcnt cccc d => namesInd d && cccc.extractLsb' 2 2 != 0
  | _ => false

/-- Why the instruction has no meaning, if it has none. -/
def Instr.defect (i : Instr) : Option Defect :=
  if i.numberNamesInd then some .fieldNamesInd
  else if i.movesPasscnt then some .passcntPostModifies
  else none

/-- The spec gives the instruction a meaning. -/
def Instr.wellFormed (i : Instr) : Bool := i.defect.isNone

end Sys2Proof
end

