-- ==== Sys2Proof/Decode.lean ====
section
/-! DEFINITION. Decoding and encoding (30_encoding.md R91, R101, R102, R103, R106). -/

namespace Sys2Proof

/-! ## The one format -/

/-- The fields of an instruction long, most significant first (30_encoding.md R91). -/
structure Fields where
  op   : BitVec 6
  z    : Bool
  c    : Bool
  r    : Bool
  i    : Bool
  cccc : BitVec 4
  d    : BitVec 9
  s    : BitVec 9
deriving DecidableEq, Repr

/-- The fields of a long (30_encoding.md R91). -/
def Fields.split (iw : Word) : Fields where
  op   := iw.extractLsb' 26 6
  z    := iw.getLsbD 25
  c    := iw.getLsbD 24
  r    := iw.getLsbD 23
  i    := iw.getLsbD 22
  cccc := iw.extractLsb' 18 4
  d    := iw.extractLsb' 9 9
  s    := iw.extractLsb' 0 9

/-- The long made of the fields (30_encoding.md R91). -/
def Fields.join (f : Fields) : Word :=
  f.op ++ BitVec.ofBool f.z ++ BitVec.ofBool f.c ++ BitVec.ofBool f.r ++ BitVec.ofBool f.i ++ f.cccc ++ f.d ++ f.s

/-- The nine bits `SUPNNNNNN` of a PTR expression (30_encoding.md R99). -/
def PtrExpr.bits (p : PtrExpr) : BitVec 9 :=
  BitVec.ofBool (p.sel == .ptrb) ++ BitVec.ofBool p.update ++ BitVec.ofBool p.post ++ p.index

/-- A PTR expression from its nine bits (30_encoding.md R99). -/
def PtrExpr.ofBits (f : BitVec 9) : PtrExpr where
  sel    := if f.getLsbD 8 then .ptrb else .ptra
  update := f.getLsbD 7
  post   := f.getLsbD 6
  index  := f.extractLsb' 0 6

/-- The S operand chosen by a free I bit (30_encoding.md R95). -/
def Src.ofField (i : Bool) (s : BitVec 9) : Src := if i then .imm s else .reg s

/-- The I bit of an S operand (30_encoding.md R95). -/
def Src.iBit : Src → Bool
  | .reg _ => false
  | .imm _ => true

/-- The S field of an S operand (30_encoding.md R95). -/
def Src.field : Src → BitVec 9
  | .reg s => s
  | .imm n => n

/-! ## Decoding -/

/-- Why a long, or a list of bytes, is not an instruction with a meaning. -/
inductive DecodeError where
  /-- The long matches no row of the opcode table (30_encoding.md R103). -/
  | unlisted
  /-- The long matches a row, in a form the spec gives no meaning (U10, U31). -/
  | noMeaning (d : Defect)
  /-- Fewer than four bytes (30_encoding.md R90: every instruction is one long). -/
  | truncated
deriving DecidableEq, Repr

/-- The rows of opcodes 000000, 000001 and 000010: ZCR = 000 writes, Z01 reads, Z11 reads through the cache
(30_encoding.md R101). -/
def decodeHub (f : Fields)
    (wrS : BitVec 4 → RegAddr → RegAddr → Instr) (wrP : BitVec 4 → RegAddr → PtrExpr → Instr)
    (rdS : Bool → BitVec 4 → RegAddr → RegAddr → Instr) (rdP : Bool → BitVec 4 → RegAddr → PtrExpr → Instr)
    (rdcS : Bool → BitVec 4 → RegAddr → RegAddr → Instr) (rdcP : Bool → BitVec 4 → RegAddr → PtrExpr → Instr) :
    Option Instr :=
  match f.c, f.r, f.i with
  | false, false, false => if f.z then none else some (wrS f.cccc f.d f.s)
  | false, false, true  => if f.z then none else some (wrP f.cccc f.d (.ofBits f.s))
  | false, true, false  => some (rdS f.z f.cccc f.d f.s)
  | false, true, true   => some (rdP f.z f.cccc f.d (.ofBits f.s))
  | true, true, false   => some (rdcS f.z f.cccc f.d f.s)
  | true, true, true    => some (rdcP f.z f.cccc f.d (.ofBits f.s))
  | true, false, _      => none

/-- A one-operand row whose ZCR is 000, with D a register (30_encoding.md R102). -/
def decodeReadD (f : Fields) (row : BitVec 4 → RegAddr → Instr) : Option Instr :=
  if f.z || f.c || f.r then none else some (row f.cccc f.d)

/-- A one-operand row whose ZCR is 001, with D a register (30_encoding.md R102). -/
def decodeWriteD (f : Fields) (row : BitVec 4 → RegAddr → Instr) : Option Instr :=
  if f.z || f.c || !f.r then none else some (row f.cccc f.d)

/-- A pair of rows that differ in R: D a register, or the D field a number (30_encoding.md R92, R102). -/
def decodeRegOrNumber (f : Fields) (reg : BitVec 4 → RegAddr → Instr) (number : BitVec 4 → BitVec 9 → Instr) :
    Option Instr :=
  if f.z || f.c then none else if f.r then some (number f.cccc f.d) else some (reg f.cccc f.d)

/-- Two such pairs that differ in C (RDQUAD and RDQUADC, SETQUAD and SETQUAZ; 30_encoding.md R102). -/
def decodeRegOrNumberByC (f : Fields) (reg0 : BitVec 4 → RegAddr → Instr) (number0 : BitVec 4 → BitVec 9 → Instr)
    (reg1 : BitVec 4 → RegAddr → Instr) (number1 : BitVec 4 → BitVec 9 → Instr) : Option Instr :=
  if f.z then none
  else match f.c, f.r with
    | false, false => some (reg0 f.cccc f.d)
    | false, true  => some (number0 f.cccc f.d)
    | true, false  => some (reg1 f.cccc f.d)
    | true, true   => some (number1 f.cccc f.d)

/-- The one-operand group: opcode 000011 with I = 1, by the S field (30_encoding.md R102). -/
def decodeSub (f : Fields) : Option Instr :=
  match f.s.toNat with
  | 0x000 => decodeReadD f .clkset
  | 0x001 => decodeWriteD f .cogid
  | 0x003 => decodeReadD f .cogstop
  | 0x004 => if f.r then some (.locknew f.z f.c f.cccc f.d) else none
  | 0x005 => decodeReadD f .lockret
  | 0x006 => if f.z || f.r then none else some (.lockset f.c f.cccc f.d)
  | 0x007 => if f.z || f.r then none else some (.lockclr f.c f.cccc f.d)
  | 0x008 => if f.z || f.c || f.r || f.d != 0 then none else some (.cachex f.cccc)
  | 0x00C => if f.r then some (.cmpcnt f.z f.c f.cccc f.d) else some (.subcnt f.z f.c f.cccc f.d)
  | 0x00D => if f.z || f.c then none else if f.r then some (.getcnt f.cccc f.d) else some (.passcnt f.cccc f.d)
  | 0x011 => if f.c || !f.r then none else some (.gettops f.z f.cccc f.d)
  | 0x012 => some (.getptra f.z f.c f.r f.cccc f.d)
  | 0x013 => some (.getptrb f.z f.c f.r f.cccc f.d)
  | 0x0B0 => decodeRegOrNumber f .wrquadD (fun cccc n => .wrquadP cccc (.ofBits n))
  | 0x0B1 => decodeRegOrNumberByC f .rdquadD (fun cccc n => .rdquadP cccc (.ofBits n))
      .rdquadcD (fun cccc n => .rdquadcP cccc (.ofBits n))
  | 0x0B2 => decodeRegOrNumber f .setptraD .setptraI
  | 0x0B3 => decodeRegOrNumber f .setptrbD .setptrbI
  | 0x0B4 => decodeRegOrNumber f .addptraD .addptraI
  | 0x0B5 => decodeRegOrNumber f .addptrbD .addptrbI
  | 0x0B6 => decodeRegOrNumber f .subptraD .subptraI
  | 0x0B7 => decodeRegOrNumber f .subptrbD .subptrbI
  | 0x0E2 => decodeRegOrNumberByC f .setquadD .setquadI .setquazD .setquazI
  | _ => none

/-- SETINDx: opcode 111000, ZCR = 000, I = 0, CCCC the selector (44_indirect.md R220 to R222). -/
def decodeSetInd (f : Fields) : Option Instr :=
  if f.z || f.c || f.r || f.i then none
  else match f.cccc.toNat with
    | 0b0001 => if f.d = 0 then some (.setindaSet f.s) else none
    | 0b0011 => if f.d = 0 then some (.setindaAdj f.s) else none
    | 0b0100 => if f.s = 0 then some (.setindbSet f.d) else none
    | 0b1100 => if f.s = 0 then some (.setindbAdj f.d) else none
    | 0b0101 => some (.setindsSetSet f.d f.s)
    | 0b0111 => some (.setindsSetAdj f.d f.s)
    | 0b1101 => some (.setindsAdjSet f.d f.s)
    | 0b1111 => some (.setindsAdjAdj f.d f.s)
    | _ => none

/-- FIXINDx: opcode 111001, ZCR = 000, I = 0, CCCC the selector (44_indirect.md R226 to R228). -/
def decodeFixInd (f : Fields) : Option Instr :=
  if f.z || f.c || f.r || f.i then none
  else match f.cccc.toNat with
    | 0b0001 => some (.fixinda f.d f.s)
    | 0b0100 => some (.fixindb f.d f.s)
    | 0b0101 => some (.fixinds f.d f.s)
    | _ => none

/-- WAITCNT, WAITPEQ and WAITPNE: opcode 111111 (46_cnt_wait.md R260, R261, R263). -/
def decodeWait (f : Fields) : Option Instr :=
  if !f.z then some (.waitcnt f.c f.r f.cccc f.d (.ofField f.i f.s))
  else if !f.c then none
  else if f.r then some (.waitpne f.cccc f.d (.ofField f.i f.s))
  else some (.waitpeq f.cccc f.d (.ofField f.i f.s))

/-- MOV and ADD: ZCR = 001 only (47_branches_misc.md R285, R286). -/
def decodePlain (f : Fields) (row : BitVec 4 → RegAddr → Src → Instr) : Option Instr :=
  if f.z || f.c || !f.r then none else some (row f.cccc f.d (.ofField f.i f.s))

/-- The row of the opcode table that the fields match (30_encoding.md R101, R102, R106). -/
def decodeFields (f : Fields) : Option Instr :=
  match f.op.toNat with
  | 0b000000 => decodeHub f .wrbyteS .wrbyteP .rdbyteS .rdbyteP .rdbytecS .rdbytecP
  | 0b000001 => decodeHub f .wrwordS .wrwordP .rdwordS .rdwordP .rdwordcS .rdwordcP
  | 0b000010 => decodeHub f .wrlongS .wrlongP .rdlongS .rdlongP .rdlongcS .rdlongcP
  | 0b000011 => if f.i then decodeSub f else some (.coginit f.z f.c f.r f.cccc f.d f.s)
  | 0b100000 => decodePlain f .add
  | 0b101000 => decodePlain f .mov
  | 0b111000 => decodeSetInd f
  | 0b111001 => decodeFixInd f
  | 0b111111 => decodeWait f
  | _ => none

/-- The instruction a long is, or why it is none with a meaning (30_encoding.md R103, R106). -/
def decode (iw : Word) : Except DecodeError Instr :=
  match decodeFields (.split iw) with
  | none => .error .unlisted
  | some i =>
    match i.defect with
    | none => .ok i
    | some d => .error (.noMeaning d)

/-- The long assembled from its four bytes, the first the least significant (20_memory.md R65). -/
def longOfBytes (b0 b1 b2 b3 : Byte) : Word := b3 ++ b2 ++ b1 ++ b0

/-- The instruction at the head of a list of bytes in hub order, and the bytes after it. -/
def decodeBytes : List Byte → Except DecodeError (Instr × List Byte)
  | b0 :: b1 :: b2 :: b3 :: rest =>
    match decode (longOfBytes b0 b1 b2 b3) with
    | .ok i => .ok (i, rest)
    | .error e => .error e
  | _ => .error .truncated

/-- What the decoder reads from an instruction whose bits are `w`, of which the first `nbits` are given. The bits are laid
out as four bytes in hub order and given to the decoder. -/
def decodeTableWord (nbits w : Nat) : Option Instr :=
  let iw : Word := BitVec.ofNat 32 (w % 2 ^ nbits)
  match decodeBytes [iw.extractLsb' 0 8, iw.extractLsb' 8 8, iw.extractLsb' 16 8, iw.extractLsb' 24 8] with
  | .ok (i, _) => some i
  | .error _ => none

/-! ## Encoding -/

/-- A row of opcode 000011 with I = 1 and the given sub-opcode (30_encoding.md R102). -/
def Fields.sub (z c r : Bool) (cccc : BitVec 4) (d s : BitVec 9) : Fields := ⟨0b000011, z, c, r, true, cccc, d, s⟩

/-- The fields of an instruction, from the encodings of the opcode table. -/
def Instr.fields : Instr → Fields
  | .wrbyteS cccc d s => ⟨0b000000, false, false, false, false, cccc, d, s⟩
  | .wrbyteP cccc d p => ⟨0b000000, false, false, false, true, cccc, d, p.bits⟩
  | .rdbyteS z cccc d s => ⟨0b000000, z, false, true, false, cccc, d, s⟩
  | .rdbyteP z cccc d p => ⟨0b000000, z, false, true, true, cccc, d, p.bits⟩
  | .rdbytecS z cccc d s => ⟨0b000000, z, true, true, false, cccc, d, s⟩
  | .rdbytecP z cccc d p => ⟨0b000000, z, true, true, true, cccc, d, p.bits⟩
  | .wrwordS cccc d s => ⟨0b000001, false, false, false, false, cccc, d, s⟩
  | .wrwordP cccc d p => ⟨0b000001, false, false, false, true, cccc, d, p.bits⟩
  | .rdwordS z cccc d s => ⟨0b000001, z, false, true, false, cccc, d, s⟩
  | .rdwordP z cccc d p => ⟨0b000001, z, false, true, true, cccc, d, p.bits⟩
  | .rdwordcS z cccc d s => ⟨0b000001, z, true, true, false, cccc, d, s⟩
  | .rdwordcP z cccc d p => ⟨0b000001, z, true, true, true, cccc, d, p.bits⟩
  | .wrlongS cccc d s => ⟨0b000010, false, false, false, false, cccc, d, s⟩
  | .wrlongP cccc d p => ⟨0b000010, false, false, false, true, cccc, d, p.bits⟩
  | .rdlongS z cccc d s => ⟨0b000010, z, false, true, false, cccc, d, s⟩
  | .rdlongP z cccc d p => ⟨0b000010, z, false, true, true, cccc, d, p.bits⟩
  | .rdlongcS z cccc d s => ⟨0b000010, z, true, true, false, cccc, d, s⟩
  | .rdlongcP z cccc d p => ⟨0b000010, z, true, true, true, cccc, d, p.bits⟩
  | .wrquadD cccc d => .sub false false false cccc d 0x0B0
  | .wrquadP cccc p => .sub false false true cccc p.bits 0x0B0
  | .rdquadD cccc d => .sub false false false cccc d 0x0B1
  | .rdquadP cccc p => .sub false false true cccc p.bits 0x0B1
  | .rdquadcD cccc d => .sub false true false cccc d 0x0B1
  | .rdquadcP cccc p => .sub false true true cccc p.bits 0x0B1
  | .getptra z c r cccc d => .sub z c r cccc d 0x012
  | .getptrb z c r cccc d => .sub z c r cccc d 0x013
  | .setptraD cccc d => .sub false false false cccc d 0x0B2
  | .setptraI cccc n => .sub false false true cccc n 0x0B2
  | .setptrbD cccc d => .sub false false false cccc d 0x0B3
  | .setptrbI cccc n => .sub false false true cccc n 0x0B3
  | .addptraD cccc d => .sub false false false cccc d 0x0B4
  | .addptraI cccc n => .sub false false true cccc n 0x0B4
  | .addptrbD cccc d => .sub false false false cccc d 0x0B5
  | .addptrbI cccc n => .sub false false true cccc n 0x0B5
  | .subptraD cccc d => .sub false false false cccc d 0x0B6
  | .subptraI cccc n => .sub false false true cccc n 0x0B6
  | .subptrbD cccc d => .sub false false false cccc d 0x0B7
  | .subptrbI cccc n => .sub false false true cccc n 0x0B7
  | .cachex cccc => .sub false false false cccc 0 0x008
  | .gettops z cccc d => .sub z false true cccc d 0x011
  | .setquadD cccc d => .sub false false false cccc d 0x0E2
  | .setquadI cccc n => .sub false false true cccc n 0x0E2
  | .setquazD cccc d => .sub false true false cccc d 0x0E2
  | .setquazI cccc n => .sub false true true cccc n 0x0E2
  | .coginit z c r cccc d s => ⟨0b000011, z, c, r, false, cccc, d, s⟩
  | .clkset cccc d => .sub false false false cccc d 0x000
  | .cogid cccc d => .sub false false true cccc d 0x001
  | .cogstop cccc d => .sub false false false cccc d 0x003
  | .locknew z c cccc d => .sub z c true cccc d 0x004
  | .lockret cccc d => .sub false false false cccc d 0x005
  | .lockset c cccc d => .sub false c false cccc d 0x006
  | .lockclr c cccc d => .sub false c false cccc d 0x007
  | .setindaSet a => ⟨0b111000, false, false, false, false, 0b0001, 0, a⟩
  | .setindaAdj a => ⟨0b111000, false, false, false, false, 0b0011, 0, a⟩
  | .setindbSet b => ⟨0b111000, false, false, false, false, 0b0100, b, 0⟩
  | .setindbAdj b => ⟨0b111000, false, false, false, false, 0b1100, b, 0⟩
  | .setindsSetSet b a => ⟨0b111000, false, false, false, false, 0b0101, b, a⟩
  | .setindsSetAdj b a => ⟨0b111000, false, false, false, false, 0b0111, b, a⟩
  | .setindsAdjSet b a => ⟨0b111000, false, false, false, false, 0b1101, b, a⟩
  | .setindsAdjAdj b a => ⟨0b111000, false, false, false, false, 0b1111, b, a⟩
  | .fixinda t i => ⟨0b111001, false, false, false, false, 0b0001, t, i⟩
  | .fixindb t i => ⟨0b111001, false, false, false, false, 0b0100, t, i⟩
  | .fixinds t i => ⟨0b111001, false, false, false, false, 0b0101, t, i⟩
  | .subcnt z c cccc d => .sub z c false cccc d 0x00C
  | .cmpcnt z c cccc d => .sub z c true cccc d 0x00C
  | .passcnt cccc d => .sub false false false cccc d 0x00D
  | .getcnt cccc d => .sub false false true cccc d 0x00D
  | .waitcnt wide r cccc d src => ⟨0b111111, false, wide, r, src.iBit, cccc, d, src.field⟩
  | .waitpeq cccc d src => ⟨0b111111, true, true, false, src.iBit, cccc, d, src.field⟩
  | .waitpne cccc d src => ⟨0b111111, true, true, true, src.iBit, cccc, d, src.field⟩
  | .mov cccc d src => ⟨0b101000, false, false, true, src.iBit, cccc, d, src.field⟩
  | .add cccc d src => ⟨0b100000, false, false, true, src.iBit, cccc, d, src.field⟩

/-- The long that encodes an instruction (30_encoding.md R91). -/
def encode (i : Instr) : Word := i.fields.join

end Sys2Proof
end

