-- ==== Sys2Proof/Machine/State.lean ====
section
/-! DEFINITION. The state of the chip, as plain data, and the ways a step can stop (10_state.md). -/

namespace Sys2Proof.Machine

/-- Sparse longs or bytes by address, addresses strictly rising, no zero listed; an unlisted address holds zero. -/
abbrev Cells (w : Nat) := List (Nat × BitVec w)

/-- Hub memory: the RAM bytes that are not zero, addresses strictly rising; an unlisted address reads as
`unlistedByte` of Machine/Ops.lean (10_state.md R35; log 7, log 8). -/
abbrev HubMem := List Host.Cell

/-- A start-up load in progress (43_hub_control.md R184): where the image is, the parameter, and the registers that have not
been copied yet. -/
structure Load where
  addr : HubAddr
  par  : HubAddr
  left : List Nat
deriving DecidableEq, Repr

/-- Whether a cog executes (10_state.md R33). -/
inductive Run where
  | idle
  | loading (load : Load)
  | running
deriving DecidableEq, Repr

/-- Which of GETCNT, SUBCNT, CMPCNT was the previous instruction and acted on CNTL (46_cnt_wait.md R255). -/
inductive CntPhase where
  | none
  | getcnt
  | subcnt
  | cmpcnt
deriving DecidableEq, Repr

/-- The registers written via D by the last three instructions, the latest first (70_reset_and_hazards.md R341). -/
structure Recent where
  last1 : Option RegAddr
  last2 : Option RegAddr
  last3 : Option RegAddr
deriving DecidableEq, Repr

/-- How far the last QUAD fill lies back (70_reset_and_hazards.md R338, R339). -/
inductive Fill where
  /-- At least three clocks and one further instruction lie behind it, or there was none. -/
  | settled
  /-- At least three clocks lie behind it, no further instruction: readable via D and S, not executable. -/
  | readable
  /-- Fewer than three clocks lie behind it. -/
  | filling (clocks : Nat)
deriving DecidableEq, Repr

/-- An overlay range that SETQUAD or SETQUAZ moved the QUADs to or away from, and how many instructions its window still
covers (70_reset_and_hazards.md R340). -/
structure Remap where
  base : RegAddr
  left : Nat
deriving DecidableEq, Repr

/-- One cog (10_state.md section 1). -/
structure Cog where
  /-- `ram[$000..$1F7]` (R20, R22). -/
  ram        : Cells 32
  /-- `ram[$1F8..$1FF]`, the I/O pin control registers (R21). -/
  pinRegs    : Vector Word 8
  /-- The QUAD registers (R23). -/
  quad       : Vector Word 4
  /-- The QUAD base; $1FF hides the QUADs (R24). -/
  qbase      : RegAddr
  /-- The read cache's valid bit (R25). -/
  cacheValid : Bool
  /-- Bits 16..4 of the cached hub address (R25). -/
  cacheTag   : BitVec 13
  /-- The program counter (R26). -/
  pc         : RegAddr
  /-- The C flag (R27). -/
  cf         : Bool
  /-- The Z flag (R27). -/
  zf         : Bool
  /-- PTRA (R28). -/
  ptra       : HubAddr
  /-- PTRB (R28). -/
  ptrb       : HubAddr
  /-- INDA's hidden registers (R29). -/
  inda       : IndReg
  /-- INDB's hidden registers (R29). -/
  indb       : IndReg
  /-- The 256 longs of stack RAM (R30). -/
  stack      : Cells 32
  /-- SPA (R31). -/
  spa        : BitVec 8
  /-- SPB (R31). -/
  spb        : BitVec 8
  /-- The value set by SETCOG (R32). -/
  cogsel     : BitVec 4
  /-- Idle, loading or running (R33). -/
  run        : Run
  /-- The value most recently stored to a register by an instruction (R34, 46_cnt_wait.md R262). -/
  lastStored : Word
  /-- Which counter instruction came just before (R34, 46_cnt_wait.md R255). -/
  cntPhase   : CntPhase
  /-- The latched upper half of CNT (R34, 46_cnt_wait.md R255). -/
  cnthLatch  : Word
  /-- The latched borrow (R34, 46_cnt_wait.md R255). -/
  cntBorrow  : Bool
  /-- The model's own: while the cog loops in a PASSCNT, the value of `Hub.elapsed` at which CNTL reaches the target
  (46_cnt_wait.md R258, U29; log 39). -/
  passAt     : Option Nat
  /-- Pipeline: registers just written (R34, 70_reset_and_hazards.md R341). -/
  recent     : Recent
  /-- Pipeline: the QUAD fill window (R34, 70_reset_and_hazards.md R338, R339). -/
  fill       : Fill
  /-- Pipeline: the SETQUAD windows (R34, 70_reset_and_hazards.md R340). -/
  remaps     : List Remap
  /-- The model's own: the value of `Hub.elapsed` before which the next instruction cannot begin (log 19). -/
  due        : Nat
deriving DecidableEq, Repr

/-- The shared part (10_state.md section 2). -/
structure Hub where
  /-- Hub memory (R35). -/
  mem      : HubMem
  /-- `lock[n]` (R36). -/
  locks    : Vector Bool 8
  /-- `lockused[n]` (R36). -/
  lockUsed : Vector Bool 8
  /-- The clock register `%R_MMMM_XX_SS` (R37). -/
  clkreg   : BitVec 9
  /-- The system counter CNT, as of its latest read (R38). -/
  cnt      : BitVec 64
  /-- The model's own: clocks that had passed at that read (log 19). -/
  elapsed  : Nat
deriving DecidableEq, Repr

/-- The chip. -/
structure State where
  /-- The eight cogs (R1). -/
  cogs         : Vector Cog 8
  /-- The hub. -/
  hub          : Hub
  /-- The model's own: the cog that steps next (60_exceptions.md R320; log 13). -/
  turn         : CogId
  /-- The model's own: chip reset has happened and the boot process has not started its cogs (log 10). -/
  resetPending : Bool
  /-- The model's own: the counter that the free values of Config are applied to (log 41). -/
  draws        : Nat
deriving DecidableEq, Repr

/-- Why the machine stops. The hardware as described has no faults (60_exceptions.md R300). -/
inductive Fault where
  /-- Raised by the step when every cog is idle: no agent can step until a chip reset from outside the model
  (60_exceptions.md R324, U28 `stuck`). Safe: the hardware executes nothing either. -/
  | everyCogIdle
deriving DecidableEq, Repr

/-- Where the spec says `refuse`: the model gives the case no meaning (00_scope.md R12). All of them are safe: nothing can be
proved of a run that reaches one. -/
inductive Refusal where
  /-- Raised by exec for an instruction that has no meaning yet. Safe. -/
  | notModelled (mnemonic : String)
  /-- Raised by the step on a long that matches no row and is not skipped (30_encoding.md R103, U14). Safe. -/
  | unlistedEncoding
  /-- Raised by the step on a number or PTR expression in D that equals $1F6 or $1F7 (U10). Safe. -/
  | fieldNamesInd
  /-- Raised by the step on PASSCNT with a post-modifying indirect D (46_cnt_wait.md R258, U31). Safe. -/
  | passcntPostModifies
  /-- Raised by operand resolution for an operand in $1F8..$1FF (10_state.md R21, U15). Safe. -/
  | pinRegister
  /-- Raised by operand resolution for an indirect operand that resolves to $1F6..$1FF (44_indirect.md R212, U16). Safe. -/
  | indirectTarget
  /-- Raised by SETQUAD and SETQUAZ for a base in $1F3..$1FE (42_quad.md R167, U12). Safe. -/
  | quadBase
  /-- Raised by the fetch from $1F6..$1FF (10_state.md R26, U17). Safe. -/
  | fetchSpecial
  /-- Raised by the fetch of a register written by one of the three preceding instructions
  (70_reset_and_hazards.md R341, U18). Safe. -/
  | fetchJustWritten
  /-- Raised by the fetch of a mapped QUAD too soon after a fill (70_reset_and_hazards.md R339, U19). Safe. -/
  | fetchQuadFilling
  /-- Raised by the fetch from an overlay range too soon after SETQUAD (70_reset_and_hazards.md R340, U19). Safe. -/
  | fetchQuadRemapped
  /-- Raised by a read via D or S of a mapped QUAD too soon after a fill (70_reset_and_hazards.md R338, U19). Safe. -/
  | readQuadFilling
  /-- Raised by a read via D or S from an overlay range too soon after SETQUAD (70_reset_and_hazards.md R340, U19). Safe. -/
  | readQuadRemapped
deriving DecidableEq, Repr

/-- A cog right after chip reset: idle, every register at the value log 9 names. -/
def Cog.reset : Cog where
  ram        := []
  pinRegs    := Vector.replicate 8 0
  quad       := Vector.replicate 4 0
  qbase      := 0x1FF
  cacheValid := false
  cacheTag   := 0
  pc         := 0
  cf         := false
  zf         := false
  ptra       := 0
  ptrb       := 0
  inda       := ⟨0, 0, 0⟩
  indb       := ⟨0, 0, 0⟩
  stack      := []
  spa        := 0
  spb        := 0
  cogsel     := 0
  run        := .idle
  lastStored := 0
  cntPhase   := .none
  cnthLatch  := 0
  cntBorrow  := false
  passAt     := none
  recent     := ⟨none, none, none⟩
  fill       := .settled
  remaps     := []
  due        := 0

/-- The hub right after chip reset: `clkreg` is 0 (70_reset_and_hazards.md R331), the rest as log 8 and log 9 name it. -/
def Hub.reset : Hub where
  mem      := []
  locks    := Vector.replicate 8 false
  lockUsed := Vector.replicate 8 false
  clkreg   := 0
  cnt      := 0
  elapsed  := 0

/-- The machine right after chip reset (10_state.md R41): every cog idle, the boot process about to start its cogs. -/
def State.reset : State where
  cogs         := Vector.replicate 8 Cog.reset
  hub          := Hub.reset
  turn         := 0
  resetPending := true
  draws        := 0

end Sys2Proof.Machine
end

