-- ==== Sys2Proof/Machine/Flags.lean ====
section
/-! DEFINITION. The condition field and every flag computation (30_encoding.md R97, R105). -/

namespace Sys2Proof.Machine

/-- `cond(cccc, Cf, Zf)`, the spec's default table (30_encoding.md R97, D2): bit `2*Cf + Zf` of the field. The two fields
whose bits are all alike are named first, so that they do not look at the flags.
PRESUMED (log 1): the table is the Propeller 1 convention; unsafe. -/
def cond (cccc : BitVec 4) (cf zf : Bool) : Bool :=
  if cccc = 0b1111 then true
  else if cccc = 0b0000 then false
  else cccc.getLsbD (2 * cf.toNat + zf.toNat)

/-- A flag that the instruction writes when its bit of ZCR is 1 (30_encoding.md R94). -/
def flagIf (bit value : Bool) : Option Bool := if bit then some value else none

/-- Z of an instruction that delivers a value: the value is zero (30_encoding.md R105, D4).
DESIGN CHOICE of the spec (log 4); unsafe. -/
def zeroFlag (v : Word) : Bool := v == 0

/-- C of GETPTRA and GETPTRB: bit 16 of the pointer (41_ptr.md R150, R151). -/
def ptrCarry (p : HubAddr) : Bool := p.getLsbD 16

/-- C of GETSPA and GETSPB: bit 7 of the pointer (45_stack.md R249, R250). -/
def spCarry (p : BitVec 8) : Bool := p.getLsbD 7

/-- The borrow of the first of two counter instructions (46_cnt_wait.md R256, R257). -/
def borrows (a b : Word) : Bool := a.ult b

/-- `cnt_passed(r)`, the spec's default (46_cnt_wait.md R257, D22): the counter, less the target, is not negative.
DESIGN CHOICE of the spec (log 21); unsafe. -/
def cntPassed (r : Word) : Bool := !r.getLsbD 31

/-- The low half of CNT (10_state.md R38). -/
def cntl (c : BitVec 64) : Word := c.extractLsb' 0 32

/-- The high half of CNT (10_state.md R38). -/
def cnth (c : BitVec 64) : Word := c.extractLsb' 32 32

end Sys2Proof.Machine
end

