-- ==== Sys2Proof/Machine/Ops.lean ====
section
/-! DEFINITION. The named operations over registers, hub memory, the QUADs, the counter and the pipeline windows. -/

namespace Sys2Proof.Machine

/-! ## Outcomes -/

/-- What a step or a part of one answers. -/
abbrev Result (α : Type) := Host.Outcome α Fault Refusal

/-- Go on with the value, or stop as before. -/
def andThen {α β : Type} (r : Result α) (f : α → Result β) : Result β :=
  match r with
  | .next a => f a
  | .fault e => .fault e
  | .refused e => .refused e

/-! ## Sparse cells -/

/-- The listed value at an address. -/
def cellFind {w : Nat} : Cells w → Nat → Option (BitVec w)
  | [], _ => none
  | (b, v) :: rest, a => if a = b then some v else cellFind rest a

/-- The cells with `v` at `a`, where an unlisted `a` holds `blank`: nothing is listed for `blank`. -/
def cellPut {w : Nat} (blank : BitVec w) : Cells w → Nat → BitVec w → Cells w
  | [], a, v => if v = blank then [] else [(a, v)]
  | (b, u) :: rest, a, v =>
    if a < b then (if v = blank then (b, u) :: rest else (a, v) :: (b, u) :: rest)
    else if a = b then (if v = blank then rest else (a, v) :: rest)
    else (b, u) :: cellPut blank rest a v

/-- Addresses strictly rising. -/
abbrev CellsSorted {w : Nat} (m : Cells w) : Prop := m.Pairwise fun p q => p.1 < q.1

/-- The canonical form of registers or stack RAM: rising, below the bound, no zero listed. -/
abbrev CellsWf {w : Nat} (bound : Nat) (m : Cells w) : Prop :=
  CellsSorted m ∧ ∀ p ∈ m, p.1 < bound ∧ p.2 ≠ 0

/-! ## Hub memory (20_memory.md) -/

/-- The first RAM address (20_memory.md R61). -/
def romEnd : Nat := 0xE80

/-- The size of hub memory (00_scope.md R6). -/
def hubBytes : Nat := 0x20000

/-- The 32 bytes of ROM that the spec gives (20_memory.md R66). -/
def knownRom : List Byte :=
  [0x50, 0x72, 0x6F, 0x70, 0x32, 0x2E, 0x30, 0x20, 0x00, 0x20, 0x7C, 0x0C, 0x03, 0xCC, 0x7C, 0x0C,
   0x45, 0xFE, 0xC1, 0x0D, 0xE3, 0xB6, 0xFC, 0x0C, 0x01, 0xC6, 0x7C, 0x0C, 0x01, 0xC6, 0x7C, 0x0D]

/-- `ROM_IMAGE` (20_memory.md R66, D10). DEDUCED (log 7): the 32 bytes of the table are the ROM's. -/
def romByte (a : Nat) : Byte :=
  match knownRom[a]? with
  | some b => b
  | none => Config.romImage a

/-- What an unlisted hub address reads as: the ROM image, and in RAM zero.
DESIGN CHOICE (log 8): the spec gives RAM no contents after reset; unsafe. -/
def unlistedByte (a : Nat) : Byte := if a < romEnd then romByte a else 0

/-- One byte of hub memory (10_state.md R35). -/
def hubByte (m : HubMem) (a : Nat) : Byte := (cellFind m a).getD (unlistedByte a)

/-- One byte written; ROM keeps its contents (20_memory.md R64, D9). -/
def setHubByte (m : HubMem) (a : Nat) (v : Byte) : HubMem :=
  if a < romEnd then m else cellPut (unlistedByte a) m a v

/-- The canonical form of hub memory: rising, RAM addresses only, no entry equal to what an unlisted address reads as. -/
abbrev Memory.wf (m : HubMem) : Prop :=
  CellsSorted m ∧ ∀ p ∈ m, romEnd ≤ p.1 ∧ p.1 < hubBytes ∧ p.2 ≠ unlistedByte p.1

/-- The width of a hub access (00_scope.md R6). -/
inductive Width where
  | byte
  | word
  | long
  | quad
deriving DecidableEq, Repr

/-- Bytes moved by an access, and the SCALE of its PTR expressions (20_memory.md R67, 40_hub_memory.md R120). -/
def Width.bytes : Width → Nat
  | .byte => 1
  | .word => 2
  | .long => 4
  | .quad => 16

/-- The address of the aligned unit that holds `a`: the low address bits are ignored (20_memory.md R62). -/
def alignDown (a : HubAddr) (w : Width) : Nat := a.toNat - a.toNat % w.bytes

/-- `n` bytes from address `a` up. -/
def readBytes (m : HubMem) (a : Nat) : Nat → List Byte
  | 0 => []
  | n + 1 => hubByte m a :: readBytes m (a + 1) n

/-- The bytes written from address `a` up. -/
def writeBytes (m : HubMem) (a : Nat) : List Byte → HubMem
  | [] => m
  | b :: bs => writeBytes (setHubByte m a b) (a + 1) bs

/-- The value of bytes, the first the least significant (20_memory.md R65). -/
def leValue (k : Nat) : List Byte → BitVec k
  | [] => 0
  | b :: bs => (leValue k bs <<< 8) ||| b.setWidth k

/-- The lowest `n` bytes of a value, the least significant first (20_memory.md R65). -/
def leBytes {k : Nat} (v : BitVec k) : Nat → List Byte
  | 0 => []
  | n + 1 => v.setWidth 8 :: leBytes (v >>> 8) n

/-- `MemRead(addr, n)` as a value of `k` bits, zero-extended (20_memory.md R63, D7). -/
def memRead (k : Nat) (m : HubMem) (a : HubAddr) (w : Width) : BitVec k := leValue k (readBytes m (alignDown a w) w.bytes)

/-- `MemWrite(addr, n, v)` (20_memory.md R64). -/
def memWrite {k : Nat} (m : HubMem) (a : HubAddr) (w : Width) (v : BitVec k) : HubMem :=
  writeBytes m (alignDown a w) (leBytes v w.bytes)

/-- A hub memory made of any finite list of cells, in canonical form. -/
def hubOfCells : List Host.Cell → HubMem
  | [] => []
  | (a, v) :: rest => setHubByte (hubOfCells rest) (a % hubBytes) v

/-! ## Cog registers and the QUAD overlay (10_state.md R20 to R24) -/

/-- Which QUAD register appears at a register address for a QUAD base, if one does (10_state.md R24). -/
def overlay (base a : RegAddr) : Option (Fin 4) :=
  if base = 0x1FF then none
  else if h : base.toNat ≤ a.toNat ∧ a.toNat < base.toNat + 4 then some ⟨a.toNat - base.toNat, by omega⟩
  else none

/-- `ram[a]`, the long under the overlay (10_state.md R20, R21). -/
def Cog.underlying (c : Cog) (a : RegAddr) : Word :=
  if a.toNat < 0x1F8 then (cellFind c.ram a.toNat).getD 0 else c.pinRegs[Fin.ofNat 8 a.toNat]

/-- `ram[a] <- v`. -/
def Cog.setUnderlying (c : Cog) (a : RegAddr) (v : Word) : Cog :=
  { c with
    ram := if a.toNat < 0x1F8 then cellPut 0 c.ram a.toNat v else c.ram
    pinRegs := if a.toNat < 0x1F8 then c.pinRegs else c.pinRegs.set (Fin.ofNat 8 a.toNat) v }

/-- `x[a]`, and `fetch(a)`, with the QUAD overlay (10_state.md R24). -/
def Cog.reg (c : Cog) (a : RegAddr) : Word :=
  match overlay c.qbase a with
  | some k => c.quad[k]
  | none => c.underlying a

/-- The QUAD registers after a write of `v` to register address `a` (10_state.md R24). -/
def Cog.quadStored (c : Cog) (a : RegAddr) (v : Word) : Vector Word 4 :=
  match overlay c.qbase a with
  | some k => c.quad.set k v
  | none => c.quad

/-- `x[a] <- v`: a mapped QUAD register and the register under it are both written (10_state.md R24), and `v` becomes the
last-stored value (46_cnt_wait.md R262). -/
def Cog.store (c : Cog) (a : RegAddr) (v : Word) : Cog :=
  { c.setUnderlying a v with quad := c.quadStored a v, lastStored := v }

/-! ## Pipeline windows (70_reset_and_hazards.md R336 to R341) -/

/-- Why a read of `x[a]` via D or S has no meaning now (70_reset_and_hazards.md R338, R340). -/
def Cog.readHazard (c : Cog) (a : RegAddr) : Option Refusal :=
  match c.fill, overlay c.qbase a with
  | .filling _, some _ => some .readQuadFilling
  | _, _ =>
    if c.remaps.any fun m => (overlay m.base a).isSome && decide (2 ≤ m.left) then some .readQuadRemapped else none

/-- `x[a]` as the D or S operand of an instruction. -/
def Cog.readReg (c : Cog) (a : RegAddr) : Result Word :=
  match c.readHazard a with
  | some e => .refused e
  | none => .next (c.reg a)

/-- Why a fetch from `a` has no meaning now (10_state.md R26; 70_reset_and_hazards.md R339, R340, R341). -/
def Cog.fetchHazard (c : Cog) (a : RegAddr) : Option Refusal :=
  if 0x1F6 ≤ a.toNat then some .fetchSpecial
  else if c.recent.last1 = some a ∨ c.recent.last2 = some a ∨ c.recent.last3 = some a then some .fetchJustWritten
  else if c.fill ≠ .settled ∧ (overlay c.qbase a).isSome then some .fetchQuadFilling
  else if c.remaps.any fun m => (overlay m.base a).isSome then some .fetchQuadRemapped
  else none

/-- The long at the program counter (10_state.md R26). -/
def Cog.fetch (c : Cog) : Result Word :=
  match c.fetchHazard c.pc with
  | some e => .refused e
  | none => .next (c.reg c.pc)

/-- A fill window after an instruction of at least `clocks` clocks (70_reset_and_hazards.md R338, R339). -/
def Fill.after (f : Fill) (clocks : Nat) : Fill :=
  match f with
  | .settled => .settled
  | .readable => .settled
  | .filling n => if 3 ≤ n + clocks then .readable else .filling (n + clocks)

/-- The SETQUAD windows after one more instruction (70_reset_and_hazards.md R340). -/
def remapsAfter : List Remap → List Remap
  | [] => []
  | m :: rest => if m.left ≤ 1 then remapsAfter rest else ⟨m.base, m.left - 1⟩ :: remapsAfter rest

/-- The registers just written after an instruction that wrote `w` via D (70_reset_and_hazards.md R341). -/
def Recent.after (r : Recent) (w : Option RegAddr) : Recent := ⟨w, r.last1, r.last2⟩

/-- What every executed instruction does at its end: the pipeline windows move on by one instruction of at least `clocks`
clocks, the previous instruction is none of GETCNT, SUBCNT, CMPCNT (46_cnt_wait.md R255), and no PASSCNT is looping (R258). -/
def Cog.retire (c : Cog) (clocks : Nat) (wrote : Option RegAddr) : Cog :=
  { c with
    recent := c.recent.after wrote
    fill := c.fill.after clocks
    remaps := remapsAfter c.remaps
    cntPhase := .none
    passAt := none
    due := c.due + clocks }

/-! ## The end of an instruction -/

/-- What an instruction delivers: a result for a register, flags, and its least number of clocks (30_encoding.md R94;
70_reset_and_hazards.md R346). -/
structure Effect where
  write  : Option (RegAddr × Word) := none
  cf     : Option Bool := none
  zf     : Option Bool := none
  clocks : Nat := 1
deriving DecidableEq, Repr

/-- The result written via D, if there is one. -/
def Cog.writeD (c : Cog) (w : Option (RegAddr × Word)) : Cog :=
  match w with
  | some (a, v) => c.store a v
  | none => c

/-- The flags written, each if there is a value for it (10_state.md R27). -/
def Cog.setFlags (c : Cog) (cf zf : Option Bool) : Cog := { c with cf := cf.getD c.cf, zf := zf.getD c.zf }

/-- An instruction delivers its effect and retires. -/
def Cog.complete (c : Cog) (e : Effect) : Cog :=
  ((c.writeD e.write).setFlags e.cf e.zf).retire e.clocks (e.write.map Prod.fst)

/-! ## Cogs and hub within the state -/

/-- Cog number `t`. -/
def State.cogAt (s : State) (t : CogId) : Cog := s.cogs[t]

/-- The executing cog. -/
def State.cur (s : State) : Cog := s.cogAt s.turn

/-- Cog number `t` changed. -/
def State.modCog (s : State) (t : CogId) (f : Cog → Cog) : State := { s with cogs := s.cogs.set t (f (s.cogAt t)) }

/-- The executing cog changed. -/
def State.modCur (s : State) (f : Cog → Cog) : State := s.modCog s.turn f

/-- The hub changed. -/
def State.modHub (s : State) (f : Hub → Hub) : State := { s with hub := f s.hub }

/-- `n` free values have been used. -/
def State.drawn (s : State) (n : Nat) : State := { s with draws := s.draws + n }

/-- The executing cog delivers its instruction's effect. -/
def State.complete (s : State) (e : Effect) : State := s.modCur (·.complete e)

/-- `x[a]` as an operand of the executing cog. -/
def State.readReg (s : State) (a : RegAddr) : Result Word := s.cur.readReg a

/-! ## The read cache and the QUAD transfers (40_hub_memory.md R129 to R135) -/

/-- `CacheHit(ea)` (40_hub_memory.md R131). -/
def Cog.cacheHit (c : Cog) (ea : HubAddr) : Bool := c.cacheValid && c.cacheTag == ea.extractLsb' 4 13

/-- `{quad[3], quad[2], quad[1], quad[0]}` (40_hub_memory.md R131, D11). -/
def Cog.quadValue (c : Cog) : BitVec 128 := c.quad[3] ++ c.quad[2] ++ c.quad[1] ++ c.quad[0]

/-- The four longs of 128 bits, `quad[k]` the bits from 32k up (40_hub_memory.md R131). -/
def quadOfValue (q : BitVec 128) : Vector Word 4 :=
  #v[q.extractLsb' 0 32, q.extractLsb' 32 32, q.extractLsb' 64 32, q.extractLsb' 96 32]

/-- `QuadFill(ea)` (40_hub_memory.md R131): the QUADs, but not the registers under them, and the cache window. -/
def Cog.quadFill (c : Cog) (m : HubMem) (ea : HubAddr) : Cog :=
  { c with quad := quadOfValue (memRead 128 m ea .quad), cacheValid := true, cacheTag := ea.extractLsb' 4 13 }

/-- The cached unit that holds `ea`, zero-extended (40_hub_memory.md R132 to R134). -/
def Cog.cachedUnit (c : Cog) (ea : HubAddr) (w : Width) : Word :=
  (c.quadValue.extractLsb' (8 * (alignDown ea w % 16)) (8 * w.bytes)).setWidth 32

/-! ## The system counter (46_cnt_wait.md R255; 70_reset_and_hazards.md R345) -/

/-- The least number of clocks that pass until the executing cog's instruction begins (70_reset_and_hazards.md R345 b). -/
def State.clocksToDue (s : State) : Nat := s.cur.due - s.hub.elapsed

/-- `n` clocks pass: CNT counts them (10_state.md R38), and the executing cog's instruction takes place now. -/
def State.passClocks (s : State) (n : Nat) : State :=
  let e := s.hub.elapsed + n
  (s.modHub fun h => { h with cnt := h.cnt + BitVec.ofNat 64 n, elapsed := e }).modCur fun c => { c with due := e }

/-- One read of CNT: at least the clocks due have passed, and a free number more (70_reset_and_hazards.md R345; log 19). The
value read is `hub.cnt` of the state answered. -/
def State.sampleCnt (s : State) : State :=
  (s.passClocks (s.clocksToDue + Config.clockDraw s.draws)).drawn 1

/-- One read of CNT by a further pass of a PASSCNT (46_cnt_wait.md R258): a pass is too short for CNTL to leave the half of its
range in which the target has been passed (log 39). -/
def State.samplePass (s : State) : State :=
  (s.passClocks (s.clocksToDue + Config.clockDraw s.draws % 2 ^ 31)).drawn 1

/-- The clocks until CNTL equals the target (46_cnt_wait.md R260). -/
def State.clocksToTarget (s : State) (target : Word) : Nat := (target - cntl s.hub.cnt).toNat

/-- The moment a wait for CNTL ends, from a state in which CNT has been read (46_cnt_wait.md R260): at the target if it is
ahead, else at a later moment, within 2^32 clocks, at which it has been passed (log 22). -/
def State.reachTarget (s : State) (target : Word) : State :=
  if cntPassed (cntl s.hub.cnt - target) then
    let later := (s.passClocks (Config.clockDraw s.draws % 2 ^ 32)).drawn 1
    if cntPassed (cntl later.hub.cnt - target) then later else later.passClocks (later.clocksToTarget target)
  else s.passClocks (s.clocksToTarget target)

end Sys2Proof.Machine
end

