-- ==== Sys2Proof/Machine/Operands.lean ====
section
/-! DEFINITION. Operands: the indirect registers, the condition, PTR expressions, immediates (30_encoding.md R92 to R99;
44_indirect.md R210 to R217; 40_hub_memory.md R120, R121). -/

namespace Sys2Proof.Machine

/-! ## INDA and INDB (44_indirect.md) -/

/-- One step up, wrapping at the top limit (44_indirect.md R212). -/
def incInd (p : IndReg) : RegAddr := if p.ptr = p.top then p.bot else p.ptr + 1

/-- One step down, wrapping at the bottom limit (44_indirect.md R212). -/
def decInd (p : IndReg) : RegAddr := if p.ptr = p.bot then p.top else p.ptr - 1

/-- The register an indirect operand designates in a mode: `++INDx` uses the next value (44_indirect.md R211, R212). -/
def indTarget (p : IndReg) (mode : BitVec 2) : RegAddr := if mode = 0b11 then incInd p else p.ptr

/-- `PostMod(p, m)` (44_indirect.md R213). -/
def postMod (p : IndReg) (mode : BitVec 2) : IndReg :=
  if mode = 0b00 then p
  else if mode = 0b10 then { p with ptr := decInd p }
  else { p with ptr := incInd p }

/-- `ind(f)`: INDA for $1F6, INDB for $1F7 (44_indirect.md R212). -/
def Cog.ind (c : Cog) (f : RegAddr) : IndReg := if f = 0x1F6 then c.inda else c.indb

/-- The indirect D mode: the top two bits of CCCC (30_encoding.md R98). -/
def modeD (cccc : BitVec 4) : BitVec 2 := cccc.extractLsb' 2 2

/-- The indirect S mode: the bottom two bits of CCCC (30_encoding.md R98). -/
def modeS (cccc : BitVec 4) : BitVec 2 := cccc.extractLsb' 0 2

/-- The row has the field as a register, and it names INDA or INDB (44_indirect.md R212). -/
def fieldInd (f : Option RegAddr) : Bool := f.any namesInd

/-- The mode that moves the pointer of the indirect register at `f`: none if no operand names it, and the OR of the D and S modes if
both do (44_indirect.md R213, R214). -/
def usedMode (f : RegAddr) (cccc : BitVec 4) (d s : Option RegAddr) : BitVec 2 :=
  (if d = some f then modeD cccc else 0) ||| (if s = some f then modeS cccc else 0)

/-- Post-modification of every pointer used, once each (44_indirect.md R213). -/
def Cog.postModOperands (c : Cog) (cccc : BitVec 4) (d s : Option RegAddr) : Cog :=
  { c with
    inda := postMod c.inda (usedMode 0x1F6 cccc d s)
    indb := postMod c.indb (usedMode 0x1F7 cccc d s) }

/-- The register address an operand field designates (44_indirect.md R212). -/
def Cog.target (c : Cog) (f : RegAddr) (mode : BitVec 2) : RegAddr :=
  if namesInd f then indTarget (c.ind f) mode else f

/-- Why the register a field designates has no meaning as an operand (10_state.md R21, 44_indirect.md R212). -/
def Cog.targetRefusal (c : Cog) (f : RegAddr) (mode : BitVec 2) : Option Refusal :=
  if namesInd f then (if 0x1F6 ≤ (c.target f mode).toNat then some .indirectTarget else none)
  else if 0x1F8 ≤ f.toNat then some .pinRegister
  else none

/-- The addresses that the D and S fields designate; 0 stands for a field that is no register. -/
structure Operands where
  d : RegAddr
  s : RegAddr
deriving DecidableEq, Repr

/-- The addresses the D and S fields designate, from the pointers before this instruction's post-modification
(44_indirect.md R212). -/
def Cog.operands (c : Cog) (cccc : BitVec 4) (d s : Option RegAddr) : Operands where
  d := match d with
    | some f => c.target f (modeD cccc)
    | none => 0
  s := match s with
    | some g => c.target g (modeS cccc)
    | none => 0

/-- Why the D or S operand has no meaning. -/
def Cog.operandRefusal (c : Cog) (cccc : BitVec 4) (d s : Option RegAddr) : Option Refusal :=
  (d.bind fun f => c.targetRefusal f (modeD cccc)).or (s.bind fun g => c.targetRefusal g (modeS cccc))

/-- Steps (3) and (4) of 30_encoding.md R96 for an instruction whose register fields are `d` and `s`: with an indirect operand
the pointers move and the instruction executes whatever CCCC holds (R98, 44_indirect.md R215); without one it executes if its
condition holds, and changes nothing otherwise (R97). -/
def issue (cccc : BitVec 4) (d s : Option RegAddr) (st : State) (body : Operands → State → Result State) : Result State :=
  let c := st.cur
  if fieldInd d || fieldInd s || cond cccc c.cf c.zf then
    match c.operandRefusal cccc d s with
    | some e => .refused e
    | none => body (c.operands cccc d s) (st.modCur (·.postModOperands cccc d s))
  else .next (st.complete {})

/-! ## Immediates -/

/-- The register field of an operand that is a register or an immediate. -/
def srcField : Src → Option RegAddr
  | .reg f => some f
  | .imm _ => none

/-- The value of a register or immediate operand, the immediate zero-extended (30_encoding.md R95, R92); `a` is the address the
register field designates. -/
def State.readSrc (s : State) (src : Src) (a : RegAddr) : Result Word :=
  match src with
  | .reg _ => s.readReg a
  | .imm n => .next (n.setWidth 32)

/-! ## Hub addresses -/

/-- A hub address operand: a register or a PTR expression (40_hub_memory.md R120). -/
inductive HubOperand where
  | reg (f : RegAddr)
  | ptr (p : PtrExpr)
deriving DecidableEq, Repr

/-- The register field of a hub address operand. -/
def HubOperand.regField : HubOperand → Option RegAddr
  | .reg f => some f
  | .ptr _ => none

/-- The pointer a PTR expression names (40_hub_memory.md R121). -/
def Cog.ptr (c : Cog) (sel : PtrSel) : HubAddr :=
  match sel with
  | .ptra => c.ptra
  | .ptrb => c.ptrb

/-- The pointer a PTR expression names, written. -/
def Cog.setPtr (c : Cog) (sel : PtrSel) (v : HubAddr) : Cog :=
  { c with
    ptra := if sel = .ptra then v else c.ptra
    ptrb := if sel = .ptrb then v else c.ptrb }

/-- `new` of 40_hub_memory.md R121: the pointer plus the signed index times the scale, modulo 2^17. -/
def Cog.ptrNew (c : Cog) (p : PtrExpr) (w : Width) : HubAddr :=
  c.ptr p.sel + p.index.signExtend 17 * BitVec.ofNat 17 w.bytes

/-- The address `PtrEA` answers (40_hub_memory.md R121). -/
def Cog.ptrEA (c : Cog) (p : PtrExpr) (w : Width) : HubAddr := if p.post then c.ptr p.sel else c.ptrNew p w

/-- The pointer update of `PtrEA` (40_hub_memory.md R121). -/
def Cog.ptrUpdate (c : Cog) (p : PtrExpr) (w : Width) : Cog :=
  c.setPtr p.sel (if p.update then c.ptrNew p w else c.ptr p.sel)

/-- The effective address of a hub access; `a` is the address the register field designates (40_hub_memory.md R120). -/
def State.hubEA (s : State) (h : HubOperand) (w : Width) (a : RegAddr) : Result HubAddr :=
  match h with
  | .reg _ => andThen (s.readReg a) fun v => .next (v.setWidth 17)
  | .ptr p => .next (s.cur.ptrEA p w)

/-- The pointer update that comes with a hub address operand. -/
def State.hubUpdate (s : State) (h : HubOperand) (w : Width) : State :=
  match h with
  | .reg _ => s
  | .ptr p => s.modCur (·.ptrUpdate p w)

end Sys2Proof.Machine
end

