-- ==== Sys2Proof/Machine/Counter.lean ====
section
/-! DEFINITION. SUBCNT, CMPCNT, PASSCNT, GETCNT, WAITCNT, WAITPEQ, WAITPNE (46_cnt_wait.md). -/

namespace Sys2Proof.Machine

/-! ## The counter's two halves (46_cnt_wait.md R255) -/

/-- The instruction's own phase at its end: none after a high half, its own after a low half (46_cnt_wait.md R255). -/
def State.endPhase (s : State) (high : Bool) (x : CntPhase) : State :=
  s.modCur fun c => { c with cntPhase := if high then .none else x }

/-- The difference of a low half: CNT is read, the low half less D answered, and the high half and the borrow latched
(46_cnt_wait.md R256, R257). -/
def State.subLow (s : State) (dv : Word) : State × Word :=
  let s' := s.sampleCnt
  let c := s'.hub.cnt
  (s'.modCur fun k => { k with cnthLatch := cnth c, cntBorrow := borrows (cntl c) dv }, cntl c - dv)

/-- The difference of a high half, with the latched borrow (46_cnt_wait.md R256, R257). -/
def Cog.subHigh (c : Cog) (dv : Word) : Word := c.cnthLatch - dv - (BitVec.ofBool c.cntBorrow).setWidth 32

/-- The difference that SUBCNT and CMPCNT compute, of the half that is due (46_cnt_wait.md R255 to R257). -/
def State.cntDifference (s : State) (high : Bool) (dv : Word) : State × Word :=
  if high then (s, s.cur.subHigh dv) else s.subLow dv

/-- SUBCNT D (46_cnt_wait.md R256). C takes any value (D4; log 15). -/
def execSubcnt (z c : Bool) (cccc : BitVec 4) (d : RegAddr) (st : State) : Result State :=
  issue cccc (some d) none st fun o s =>
    andThen (s.readReg o.d) fun dv =>
    let high := decide (s.cur.cntPhase = .subcnt)
    let (s', r) := s.cntDifference high dv
    .next (((s'.drawn 1).complete
      { write := some (o.d, r), zf := flagIf z (zeroFlag r), cf := flagIf c (Config.anyFlag s'.draws) }).endPhase high .subcnt)

/-- CMPCNT D (46_cnt_wait.md R257). -/
def execCmpcnt (z c : Bool) (cccc : BitVec 4) (d : RegAddr) (st : State) : Result State :=
  issue cccc (some d) none st fun o s =>
    andThen (s.readReg o.d) fun dv =>
    let high := decide (s.cur.cntPhase = .cmpcnt)
    let (s', r) := s.cntDifference high dv
    .next ((s'.complete { zf := flagIf z (zeroFlag r), cf := flagIf c (cntPassed r) }).endPhase high .cmpcnt)

/-- A pass of PASSCNT reads CNT: the first whenever it begins, a further one soon after the pass before it. -/
def State.samplePasscnt (s : State) : State :=
  match s.cur.passAt with
  | none => s.sampleCnt
  | some _ => s.samplePass

/-- The moment at which the PASSCNT that the cog executes reaches its target: the one noted by its first pass, or, in the first
pass, the next one (46_cnt_wait.md R258; log 39). -/
def State.passMoment (s : State) (target : Word) : Nat :=
  s.cur.passAt.getD (s.hub.elapsed + s.clocksToTarget target)

/-- PASSCNT D (46_cnt_wait.md R258): one pass. Until CNTL has passed D the same instruction executes again. The loop ends at the
first pass from the target's moment on, so it always completes (U29), whatever clocks other cogs let pass meanwhile (log 39). -/
def execPasscnt (cccc : BitVec 4) (d : RegAddr) (st : State) : Result State :=
  issue cccc (some d) none st fun o s =>
    andThen (s.readReg o.d) fun dv =>
    let s' := s.samplePasscnt
    let moment := s'.passMoment dv
    .next (
      if cntPassed (cntl s'.hub.cnt - dv) || decide (moment ≤ s'.hub.elapsed) then s'.complete {}
      else ((s'.modCur fun c => { c with pc := c.pc - 1 }).complete {}).modCur fun c => { c with passAt := some moment })

/-- GETCNT D (46_cnt_wait.md R259). -/
def execGetcnt (cccc : BitVec 4) (d : RegAddr) (st : State) : Result State :=
  issue cccc (some d) none st fun o s =>
    if s.cur.cntPhase = .getcnt then
      .next ((s.complete { write := some (o.d, s.cur.cnthLatch) }).endPhase true .getcnt)
    else
      let s' := (s.sampleCnt).modCur fun k => { k with cnthLatch := cnth s.sampleCnt.hub.cnt }
      .next ((s'.complete { write := some (o.d, cntl s'.hub.cnt) }).endPhase false .getcnt)

/-! ## Waits -/

/-- WAITCNT D,S (46_cnt_wait.md R260): the wait ends in this step (log 22). Of the 64-bit wait nothing is promised but that it
ends; C then takes any value (D22; log 15). -/
def execWaitcnt (wide r : Bool) (cccc : BitVec 4) (d : RegAddr) (src : Src) (st : State) : Result State :=
  issue cccc (some d) (srcField src) st fun o s =>
    andThen (s.readReg o.d) fun dv =>
    andThen (s.readSrc src o.s) fun sv =>
    let s' := if wide then s.sampleCnt else s.sampleCnt.reachTarget dv
    .next ((s'.drawn 1).complete
      { write := if r then some (o.d, dv + sv) else none, cf := flagIf wide (Config.anyFlag s'.draws) })

/-- WAITPEQ and WAITPNE: the wait ends because a sample of the pins meets the condition, C = 0, or because CNTL has reached the
last-stored value, C = 1 (46_cnt_wait.md R261 to R263). Which one comes first is free, but a pin end needs a sample that
meets the condition; Z takes any value (log 15, log 23). -/
def waitPins (met : Word → Word → Word → Bool) (cccc : BitVec 4) (d : RegAddr) (src : Src) (st : State) : Result State :=
  issue cccc (some d) (srcField src) st fun o s =>
    andThen (s.readReg o.d) fun dv =>
    andThen (s.readSrc src o.s) fun sv =>
    let pinEnd := met (Config.pinsIn s.draws) sv dv && Config.anyFlag (s.draws + 1)
    let s' := (s.drawn 2).sampleCnt
    let s'' := if pinEnd then s' else s'.reachTarget s.cur.lastStored
    .next ((s''.drawn 1).complete { cf := some !pinEnd, zf := some (Config.anyFlag s''.draws) })

/-- The pin condition of WAITPEQ (46_cnt_wait.md R261). -/
def pinsEqual (pins mask value : Word) : Bool := pins &&& mask == value

/-- The pin condition of WAITPNE (46_cnt_wait.md R263). -/
def pinsDiffer (pins mask value : Word) : Bool := pins &&& mask != value

/-- WAITPEQ D,S WC (46_cnt_wait.md R261). -/
def execWaitpeq (cccc : BitVec 4) (d : RegAddr) (src : Src) (s : State) : Result State := waitPins pinsEqual cccc d src s

/-- WAITPNE D,S WC (46_cnt_wait.md R263). -/
def execWaitpne (cccc : BitVec 4) (d : RegAddr) (src : Src) (s : State) : Result State := waitPins pinsDiffer cccc d src s

end Sys2Proof.Machine
end

