-- ==== Sys2Proof/Machine/Startup.lean ====
section
/-! DEFINITION. Cog start-up, chip reset, the boot process, and which cog steps next: the hardware's only involuntary
transfers of control (43_hub_control.md R184; 70_reset_and_hazards.md R330 to R332; 60_exceptions.md R303, R320). -/

namespace Sys2Proof.Machine

/-- The cogs by number (10_state.md R1). -/
def allCogs : List CogId := [0, 1, 2, 3, 4, 5, 6, 7]

/-- The locks by number (10_state.md R36). -/
def allLocks : List LockId := [0, 1, 2, 3, 4, 5, 6, 7]

/-- One of the candidates: the only one, or the one a free value picks (D15). -/
def pickFrom {α : Type} (l : List α) (n : Nat) : Option α :=
  match l with
  | [] => none
  | x :: [] => some x
  | x :: rest => some ((x :: rest).getD (n % (rest.length + 1)) x)

/-- The cogs that can be started as "next idle cog" (43_hub_control.md R181). -/
def State.idleCogs (s : State) : List CogId := allCogs.filter fun t => decide ((s.cogAt t).run = .idle)

/-- The cogs that can step (10_state.md R33). -/
def State.activeCogs (s : State) : List CogId := allCogs.filter fun t => decide ((s.cogAt t).run ≠ .idle)

/-- Any cog that is not idle may step next (60_exceptions.md R320; log 13). -/
def State.passTurn (s : State) : State :=
  match pickFrom s.activeCogs (Config.schedule s.draws) with
  | some t => { s with turn := t }.drawn 1
  | none => s

/-! ## Cog start-up (43_hub_control.md R184) -/

/-- `COG_LOAD_LONGS` (00_scope.md R6). -/
def loadLongs : Nat := 0x1F8

/-- `COG_LOAD_CLOCKS` (00_scope.md R6). -/
def loadClocks : Nat := 1016

/-- The long address of a program: the low two bits are dropped (43_hub_control.md R181, D35). -/
def programAddr (v : HubAddr) : HubAddr := v &&& 0x1FFFC

/-- The beginning of `StartCog(t, addr, par)`: whatever the cog was doing stops at once, and it can execute 1,016 clocks after
`start` (43_hub_control.md R184). -/
def Cog.beginLoad (c : Cog) (addr par : HubAddr) (start : Nat) : Cog :=
  { c with run := .loading ⟨addr, par, List.range loadLongs⟩, due := start + loadClocks }

/-- `StartCog(t, addr, par)`: the load begins, not before the moment `start` (43_hub_control.md R184). -/
def State.startCog (s : State) (t : CogId) (addr par : HubAddr) (start : Nat) : State :=
  s.modCog t fun c => c.beginLoad addr par start

/-- The earliest moment at which the executing cog's instruction takes place (70_reset_and_hazards.md R345 b). -/
def State.earliest (s : State) : Nat := max s.hub.elapsed s.cur.due

/-- The loader copies the long of register `i` (43_hub_control.md R184): the register under the overlay is written, and the
write is no instruction's result (46_cnt_wait.md R262). -/
def Cog.copyLong (c : Cog) (m : HubMem) (l : Load) (i : Nat) : Cog :=
  { c with
    ram := cellPut 0 c.ram i (memRead 32 m (l.addr + BitVec.ofNat 17 (4 * i)) .long)
    run := .loading { l with left := l.left.erase i } }

/-- The end of `StartCog` (43_hub_control.md R184): the cog runs from $000; what start-up leaves unspecified is `u`
(10_state.md R41); stack RAM keeps its contents. -/
def Cog.finishLoad (c : Cog) (l : Load) (u : StartUp) : Cog :=
  { c with
    ptra := l.par
    ptrb := l.addr
    cogsel := 0
    quad := Vector.replicate 4 0
    qbase := 0x1FF
    cacheValid := false
    pc := 0
    recent := ⟨none, none, none⟩
    fill := .settled
    remaps := []
    cntPhase := .none
    passAt := none
    run := .running
    cf := u.cf
    zf := u.zf
    inda := u.inda
    indb := u.indb
    spa := u.spa
    spb := u.spb
    pinRegs := u.pinRegs
    cacheTag := u.cacheTag
    lastStored := u.lastStored
    cnthLatch := u.cnthLatch
    cntBorrow := u.cntBorrow }

/-- One step of the loader acting for the cog whose turn it is: one of the longs still to be copied, in any order (log 26), or,
when all are copied, the end of the start-up. -/
def State.loaderStep (s : State) (l : Load) : State :=
  match pickFrom l.left (Config.loadOrder s.draws) with
  | some i => (s.modCur (·.copyLong s.hub.mem l i)).drawn 1
  | none => (s.modCur (·.finishLoad l (Config.startUp s.draws))).drawn 1

/-! ## Chip reset and boot (70_reset_and_hazards.md R330, R331) -/

/-- A cog after a chip reset: as after power-up, but for the stack RAM, which a reset does not initialise (45_stack.md R240). -/
def Cog.afterReset (c : Cog) : Cog := { Cog.reset with stack := c.stack }

/-- Chip reset by CLKSET (43_hub_control.md R187, D29): every cog ceases, the clock register is cleared, and hub RAM, the locks
and CNT hold any value (10_state.md R41; log 29). -/
def State.chipReset (s : State) : State where
  cogs := #v[(s.cogAt 0).afterReset, (s.cogAt 1).afterReset, (s.cogAt 2).afterReset, (s.cogAt 3).afterReset,
    (s.cogAt 4).afterReset, (s.cogAt 5).afterReset, (s.cogAt 6).afterReset, (s.cogAt 7).afterReset]
  hub :=
    { mem := hubOfCells (Config.afterReset s.draws).ram
      locks := (Config.afterReset s.draws).locks
      lockUsed := (Config.afterReset s.draws).lockUsed
      clkreg := 0
      cnt := (Config.afterReset s.draws).cnt
      elapsed := s.hub.elapsed }
  turn := s.turn
  resetPending := true
  draws := s.draws + 1

/-- The loads that the boot process starts. -/
def State.startAll (s : State) : List BootEntry → State
  | [] => s
  | e :: rest => (s.startCog e.cog (programAddr e.addr) e.par s.hub.elapsed).startAll rest

/-- The boot process starts the loads of `BOOT`; all other cogs stay idle (70_reset_and_hazards.md R331). -/
def State.boot (s : State) : State := { s with resetPending := false }.startAll Config.boot

end Sys2Proof.Machine
end

