-- ==== Sys2Proof/Machine/HubControl.lean ====
section
/-! DEFINITION. COGINIT to LOCKCLR (43_hub_control.md). -/

namespace Sys2Proof.Machine

/-- The least clocks of a hub control instruction whose ZCR bits are all 0, or not (43_hub_control.md R180). -/
def hubClocks (result : Bool) : Nat := if result then 2 else 1

/-- The cog or lock number in a register: its low three bits (43_hub_control.md R189, R193; D16). -/
def unitNumber (v : Word) : Fin 8 := Fin.ofNat 8 v.toNat

/-- A cog or lock number as a register value. -/
def unitWord (n : Fin 8) : Word := BitVec.ofNat 32 n.val

/-- SETCOG's value asks for the next idle cog (43_hub_control.md R181). -/
def wantsIdle (cogsel : BitVec 4) : Bool := cogsel.getLsbD 3

/-- The explicit target in SETCOG's value (43_hub_control.md R181). -/
def explicitCog (cogsel : BitVec 4) : CogId := Fin.ofNat 8 (cogsel.extractLsb' 0 3).toNat

/-- The target COGINIT starts, if there is one (43_hub_control.md R181). -/
def State.coginitTarget (s : State) : Option CogId :=
  if wantsIdle s.cur.cogsel then pickFrom s.idleCogs (Config.pickIdleCog s.draws) else some (explicitCog s.cur.cogsel)

/-- What COGINIT delivers when its own cog goes on (43_hub_control.md R181): D and C are defined for "the next idle cog" only,
and D only if one was started; Z, and D and C otherwise, take any value (D17; log 15). -/
def State.coginitEffect (s : State) (z c r : Bool) (d : RegAddr) (target : Option CogId) : Effect where
  write := if r then
      some (d, match wantsIdle s.cur.cogsel, target with
        | true, some t => unitWord t
        | _, _ => Config.anyWord (s.draws + 1))
    else none
  cf := flagIf c (if wantsIdle s.cur.cogsel then target.isNone else Config.anyFlag (s.draws + 2))
  zf := flagIf z (Config.anyFlag (s.draws + 3))
  clocks := hubClocks (z || c || r)

/-- COGINIT D,S (43_hub_control.md R181). -/
def execCoginit (z c r : Bool) (cccc : BitVec 4) (d sf : RegAddr) (st : State) : Result State :=
  issue cccc (some d) (some sf) st fun o s =>
    andThen (s.readReg o.d) fun dv =>
    andThen (s.readReg o.s) fun sv =>
    let target := s.coginitTarget
    let effect := s.coginitEffect z c r o.d target
    match target with
    | some t =>
      let started := (s.startCog t (programAddr (dv.setWidth 17)) (sv.setWidth 17) s.earliest).drawn 4
      .next (if t = s.turn then started else started.complete effect)
    | none => .next ((s.drawn 4).complete effect)

/-- CLKSET D (43_hub_control.md R187): with R = 1 a chip reset, at which nothing else remains of the instruction (D29). -/
def execClkset (cccc : BitVec 4) (d : RegAddr) (st : State) : Result State :=
  issue cccc (some d) none st fun o s =>
    andThen (s.readReg o.d) fun v =>
    let mode : BitVec 9 := v.setWidth 9
    if mode.getLsbD 8 then .next s.chipReset
    else .next ((s.modHub fun h => { h with clkreg := mode }).complete {})

/-- COGID D (43_hub_control.md R188). -/
def execCogid (cccc : BitVec 4) (d : RegAddr) (st : State) : Result State :=
  issue cccc (some d) none st fun o s =>
    .next (s.complete { write := some (o.d, unitWord s.turn), clocks := hubClocks true })

/-- COGSTOP D (43_hub_control.md R189): an executing cog that stops itself executes nothing further. -/
def execCogstop (cccc : BitVec 4) (d : RegAddr) (st : State) : Result State :=
  issue cccc (some d) none st fun o s =>
    andThen (s.readReg o.d) fun v =>
    .next ((s.complete {}).modCog (unitNumber v) fun c => { c with run := .idle })

/-- The locks that LOCKNEW can give (43_hub_control.md R192). -/
def State.freeLocks (s : State) : List LockId := allLocks.filter fun n => !s.hub.lockUsed[n]

/-- LOCKNEW D (43_hub_control.md R192). -/
def execLocknew (z c : Bool) (cccc : BitVec 4) (d : RegAddr) (st : State) : Result State :=
  issue cccc (some d) none st fun o s =>
    let zf := flagIf z (Config.anyFlag (s.draws + 2))
    match pickFrom s.freeLocks (Config.pickFreeLock s.draws) with
    | some n =>
      .next (((s.modHub fun h => { h with lockUsed := h.lockUsed.set n true }).drawn 3).complete
        { write := some (o.d, unitWord n), cf := flagIf c false, zf := zf, clocks := hubClocks true })
    | none =>
      .next ((s.drawn 3).complete
        { write := some (o.d, Config.anyWord (s.draws + 1)), cf := flagIf c true, zf := zf, clocks := hubClocks true })

/-- LOCKRET D (43_hub_control.md R193). -/
def execLockret (cccc : BitVec 4) (d : RegAddr) (st : State) : Result State :=
  issue cccc (some d) none st fun o s =>
    andThen (s.readReg o.d) fun v =>
    .next ((s.modHub fun h => { h with lockUsed := h.lockUsed.set (unitNumber v) false }).complete {})

/-- LOCKSET and LOCKCLR: the lock takes a state, its prior state goes to C (43_hub_control.md R194, R195). -/
def lockWrite (state c : Bool) (cccc : BitVec 4) (d : RegAddr) (st : State) : Result State :=
  issue cccc (some d) none st fun o s =>
    andThen (s.readReg o.d) fun v =>
    .next ((s.modHub fun h => { h with locks := h.locks.set (unitNumber v) state }).complete
      { cf := flagIf c s.hub.locks[unitNumber v], clocks := hubClocks c })

/-- LOCKSET D (43_hub_control.md R194). -/
def execLockset (c : Bool) (cccc : BitVec 4) (d : RegAddr) (s : State) : Result State := lockWrite true c cccc d s

/-- LOCKCLR D (43_hub_control.md R195). -/
def execLockclr (c : Bool) (cccc : BitVec 4) (d : RegAddr) (s : State) : Result State := lockWrite false c cccc d s

end Sys2Proof.Machine
end

