-- ==== Sys2Proof/Machine/HubMemory.lean ====
section
/-! DEFINITION. WRBYTE to RDQUADC (40_hub_memory.md). -/

namespace Sys2Proof.Machine

/-! ## The shared operations -/

/-- Writes of 1, 2 or 4 bytes (40_hub_memory.md R123 to R125). -/
def hubWrite (w : Width) (cccc : BitVec 4) (d : RegAddr) (h : HubOperand) (st : State) : Result State :=
  issue cccc (some d) h.regField st fun o s =>
    andThen (s.readReg o.d) fun v =>
    andThen (s.hubEA h w o.s) fun ea =>
    .next (((s.hubUpdate h w).modHub fun b => { b with mem := memWrite b.mem ea w v }).complete {})

/-- Uncached reads of 1, 2 or 4 bytes (40_hub_memory.md R126 to R128). -/
def hubRead (w : Width) (z : Bool) (cccc : BitVec 4) (d : RegAddr) (h : HubOperand) (st : State) : Result State :=
  issue cccc (some d) h.regField st fun o s =>
    andThen (s.hubEA h w o.s) fun ea =>
    let v : Word := memRead 32 s.hub.mem ea w
    .next ((s.hubUpdate h w).complete { write := some (o.d, v), zf := flagIf z (zeroFlag v), clocks := 3 })

/-- The executing cog's fill window opens: the instruction that filled the QUADs has completed
(70_reset_and_hazards.md R338). -/
def State.openFill (s : State) : State := s.modCur fun c => { c with fill := .filling 0 }

/-- Cached reads of 1, 2 or 4 bytes (40_hub_memory.md R132 to R134). -/
def hubReadCached (w : Width) (z : Bool) (cccc : BitVec 4) (d : RegAddr) (h : HubOperand) (st : State) : Result State :=
  issue cccc (some d) h.regField st fun o s =>
    andThen (s.hubEA h w o.s) fun ea =>
    let s' := s.hubUpdate h w
    if s'.cur.cacheHit ea then
      let v := s'.cur.cachedUnit ea w
      .next (s'.complete { write := some (o.d, v), zf := flagIf z (zeroFlag v) })
    else
      let s'' := s'.modCur (·.quadFill s'.hub.mem ea)
      let v := s''.cur.cachedUnit ea w
      .next (s''.complete { write := some (o.d, v), zf := flagIf z (zeroFlag v), clocks := 3 }).openFill

/-- WRQUAD (40_hub_memory.md R129). -/
def quadWrite (cccc : BitVec 4) (h : HubOperand) (st : State) : Result State :=
  issue cccc h.regField none st fun o s =>
    andThen (s.hubEA h .quad o.d) fun ea =>
    .next (((s.hubUpdate h .quad).modHub fun b => { b with mem := memWrite b.mem ea .quad s.cur.quadValue }).complete {})

/-- RDQUAD (40_hub_memory.md R130). -/
def quadRead (cccc : BitVec 4) (h : HubOperand) (st : State) : Result State :=
  issue cccc h.regField none st fun o s =>
    andThen (s.hubEA h .quad o.d) fun ea =>
    .next (((s.hubUpdate h .quad).modCur (·.quadFill s.hub.mem ea)).complete {}).openFill

/-- RDQUADC (40_hub_memory.md R135). -/
def quadReadCached (cccc : BitVec 4) (h : HubOperand) (st : State) : Result State :=
  issue cccc h.regField none st fun o s =>
    andThen (s.hubEA h .quad o.d) fun ea =>
    let s' := s.hubUpdate h .quad
    if s'.cur.cacheHit ea then .next (s'.complete {})
    else .next ((s'.modCur (·.quadFill s'.hub.mem ea)).complete {}).openFill

/-! ## The instructions -/

/-- WRBYTE D,S (40_hub_memory.md R123). -/
def execWrbyteS (cccc : BitVec 4) (d sf : RegAddr) (s : State) : Result State := hubWrite .byte cccc d (.reg sf) s

/-- WRBYTE D,PTR (40_hub_memory.md R123). -/
def execWrbyteP (cccc : BitVec 4) (d : RegAddr) (p : PtrExpr) (s : State) : Result State := hubWrite .byte cccc d (.ptr p) s

/-- RDBYTE D,S (40_hub_memory.md R126). -/
def execRdbyteS (z : Bool) (cccc : BitVec 4) (d sf : RegAddr) (s : State) : Result State := hubRead .byte z cccc d (.reg sf) s

/-- RDBYTE D,PTR (40_hub_memory.md R126). -/
def execRdbyteP (z : Bool) (cccc : BitVec 4) (d : RegAddr) (p : PtrExpr) (s : State) : Result State :=
  hubRead .byte z cccc d (.ptr p) s

/-- RDBYTEC D,S (40_hub_memory.md R132). -/
def execRdbytecS (z : Bool) (cccc : BitVec 4) (d sf : RegAddr) (s : State) : Result State :=
  hubReadCached .byte z cccc d (.reg sf) s

/-- RDBYTEC D,PTR (40_hub_memory.md R132). -/
def execRdbytecP (z : Bool) (cccc : BitVec 4) (d : RegAddr) (p : PtrExpr) (s : State) : Result State :=
  hubReadCached .byte z cccc d (.ptr p) s

/-- WRWORD D,S (40_hub_memory.md R124). -/
def execWrwordS (cccc : BitVec 4) (d sf : RegAddr) (s : State) : Result State := hubWrite .word cccc d (.reg sf) s

/-- WRWORD D,PTR (40_hub_memory.md R124). -/
def execWrwordP (cccc : BitVec 4) (d : RegAddr) (p : PtrExpr) (s : State) : Result State := hubWrite .word cccc d (.ptr p) s

/-- RDWORD D,S (40_hub_memory.md R127). -/
def execRdwordS (z : Bool) (cccc : BitVec 4) (d sf : RegAddr) (s : State) : Result State := hubRead .word z cccc d (.reg sf) s

/-- RDWORD D,PTR (40_hub_memory.md R127). -/
def execRdwordP (z : Bool) (cccc : BitVec 4) (d : RegAddr) (p : PtrExpr) (s : State) : Result State :=
  hubRead .word z cccc d (.ptr p) s

/-- RDWORDC D,S (40_hub_memory.md R133). -/
def execRdwordcS (z : Bool) (cccc : BitVec 4) (d sf : RegAddr) (s : State) : Result State :=
  hubReadCached .word z cccc d (.reg sf) s

/-- RDWORDC D,PTR (40_hub_memory.md R133). -/
def execRdwordcP (z : Bool) (cccc : BitVec 4) (d : RegAddr) (p : PtrExpr) (s : State) : Result State :=
  hubReadCached .word z cccc d (.ptr p) s

/-- WRLONG D,S (40_hub_memory.md R125). -/
def execWrlongS (cccc : BitVec 4) (d sf : RegAddr) (s : State) : Result State := hubWrite .long cccc d (.reg sf) s

/-- WRLONG D,PTR (40_hub_memory.md R125). -/
def execWrlongP (cccc : BitVec 4) (d : RegAddr) (p : PtrExpr) (s : State) : Result State := hubWrite .long cccc d (.ptr p) s

/-- RDLONG D,S (40_hub_memory.md R128). -/
def execRdlongS (z : Bool) (cccc : BitVec 4) (d sf : RegAddr) (s : State) : Result State := hubRead .long z cccc d (.reg sf) s

/-- RDLONG D,PTR (40_hub_memory.md R128). -/
def execRdlongP (z : Bool) (cccc : BitVec 4) (d : RegAddr) (p : PtrExpr) (s : State) : Result State :=
  hubRead .long z cccc d (.ptr p) s

/-- RDLONGC D,S (40_hub_memory.md R134). -/
def execRdlongcS (z : Bool) (cccc : BitVec 4) (d sf : RegAddr) (s : State) : Result State :=
  hubReadCached .long z cccc d (.reg sf) s

/-- RDLONGC D,PTR (40_hub_memory.md R134). -/
def execRdlongcP (z : Bool) (cccc : BitVec 4) (d : RegAddr) (p : PtrExpr) (s : State) : Result State :=
  hubReadCached .long z cccc d (.ptr p) s

/-- WRQUAD D (40_hub_memory.md R129). -/
def execWrquadD (cccc : BitVec 4) (d : RegAddr) (s : State) : Result State := quadWrite cccc (.reg d) s

/-- WRQUAD PTR (40_hub_memory.md R129). -/
def execWrquadP (cccc : BitVec 4) (p : PtrExpr) (s : State) : Result State := quadWrite cccc (.ptr p) s

/-- RDQUAD D (40_hub_memory.md R130). -/
def execRdquadD (cccc : BitVec 4) (d : RegAddr) (s : State) : Result State := quadRead cccc (.reg d) s

/-- RDQUAD PTR (40_hub_memory.md R130). -/
def execRdquadP (cccc : BitVec 4) (p : PtrExpr) (s : State) : Result State := quadRead cccc (.ptr p) s

/-- RDQUADC D (40_hub_memory.md R135). -/
def execRdquadcD (cccc : BitVec 4) (d : RegAddr) (s : State) : Result State := quadReadCached cccc (.reg d) s

/-- RDQUADC PTR (40_hub_memory.md R135). -/
def execRdquadcP (cccc : BitVec 4) (p : PtrExpr) (s : State) : Result State := quadReadCached cccc (.ptr p) s

end Sys2Proof.Machine
end

