-- ==== Sys2Proof/Machine/Indirect.lean ====
section
/-! DEFINITION. SETINDA to FIXINDS (44_indirect.md R217 to R228): unconditional, their fields numbers. -/

namespace Sys2Proof.Machine

/-- `SetInd(p, a)` (44_indirect.md R217). -/
def setInd (a : RegAddr) (_ : IndReg) : IndReg := ⟨a, 0x000, 0x1FF⟩

/-- `AdjInd(p, d)`: modulo 512, the delta signed (44_indirect.md R217, D23). -/
def adjInd (delta : BitVec 9) (p : IndReg) : IndReg := ⟨p.ptr + delta, 0x000, 0x1FF⟩

/-- `FixInd(p, t, i)` (44_indirect.md R217). -/
def fixInd (terminal initial : RegAddr) (_ : IndReg) : IndReg :=
  ⟨initial, if initial.ule terminal then initial else terminal, if initial.ule terminal then terminal else initial⟩

/-- INDA and INDB both changed, each by its own function. -/
def indModify (fa fb : IndReg → IndReg) (s : State) : Result State :=
  .next ((s.modCur fun c => { c with inda := fa c.inda, indb := fb c.indb }).complete {})

/-- SETINDA #addrA (44_indirect.md R220). -/
def execSetindaSet (addr : BitVec 9) (s : State) : Result State := indModify (setInd addr) id s

/-- SETINDA ++deltA or --deltA (44_indirect.md R220). -/
def execSetindaAdj (delta : BitVec 9) (s : State) : Result State := indModify (adjInd delta) id s

/-- SETINDB #addrB (44_indirect.md R221). -/
def execSetindbSet (addr : BitVec 9) (s : State) : Result State := indModify id (setInd addr) s

/-- SETINDB ++deltB or --deltB (44_indirect.md R221). -/
def execSetindbAdj (delta : BitVec 9) (s : State) : Result State := indModify id (adjInd delta) s

/-- SETINDS #addrB,#addrA (44_indirect.md R222). -/
def execSetindsSetSet (addrB addrA : BitVec 9) (s : State) : Result State := indModify (setInd addrA) (setInd addrB) s

/-- SETINDS #addrB,++deltA or --deltA (44_indirect.md R222). -/
def execSetindsSetAdj (addrB deltaA : BitVec 9) (s : State) : Result State := indModify (adjInd deltaA) (setInd addrB) s

/-- SETINDS ++deltB or --deltB,#addrA (44_indirect.md R222). -/
def execSetindsAdjSet (deltaB addrA : BitVec 9) (s : State) : Result State := indModify (setInd addrA) (adjInd deltaB) s

/-- SETINDS ++deltB or --deltB,++deltA or --deltA (44_indirect.md R222). -/
def execSetindsAdjAdj (deltaB deltaA : BitVec 9) (s : State) : Result State := indModify (adjInd deltaA) (adjInd deltaB) s

/-- FIXINDA #terminal,#initial (44_indirect.md R226). -/
def execFixinda (terminal initial : BitVec 9) (s : State) : Result State := indModify (fixInd terminal initial) id s

/-- FIXINDB #terminal,#initial (44_indirect.md R227). -/
def execFixindb (terminal initial : BitVec 9) (s : State) : Result State := indModify id (fixInd terminal initial) s

/-- FIXINDS #terminal,#initial (44_indirect.md R228). -/
def execFixinds (terminal initial : BitVec 9) (s : State) : Result State :=
  indModify (fixInd terminal initial) (fixInd terminal initial) s

end Sys2Proof.Machine
end

