-- ==== Sys2Proof/Machine/Plain.lean ====
section
/-! DEFINITION. MOV and ADD (47_branches_misc.md R285, R286). -/

namespace Sys2Proof.Machine

/-- MOV D,S (47_branches_misc.md R285). -/
def execMov (cccc : BitVec 4) (d : RegAddr) (src : Src) (st : State) : Result State :=
  issue cccc (some d) (srcField src) st fun o s =>
    andThen (s.readSrc src o.s) fun sv =>
    .next (s.complete { write := some (o.d, sv) })

/-- ADD D,S (47_branches_misc.md R286). -/
def execAdd (cccc : BitVec 4) (d : RegAddr) (src : Src) (st : State) : Result State :=
  issue cccc (some d) (srcField src) st fun o s =>
    andThen (s.readReg o.d) fun dv =>
    andThen (s.readSrc src o.s) fun sv =>
    .next (s.complete { write := some (o.d, dv + sv) })

end Sys2Proof.Machine
end

