-- ==== Sys2Proof/Machine/Pointers.lean ====
section
/-! DEFINITION. GETPTRA to SUBPTRB (41_ptr.md). -/

namespace Sys2Proof.Machine

/-! ## The shared operations -/

/-- GETPTRx: the pointer, zero-extended, its bit 16 in C (41_ptr.md R150, R151). -/
def ptrGet (sel : PtrSel) (z c r : Bool) (cccc : BitVec 4) (d : RegAddr) (st : State) : Result State :=
  issue cccc (some d) none st fun o s =>
    let p := s.cur.ptr sel
    let v : Word := p.setWidth 32
    .next (s.complete
      { write := if r then some (o.d, v) else none
        cf := flagIf c (ptrCarry p)
        zf := flagIf z (zeroFlag v) })

/-- SETPTRx, ADDPTRx, SUBPTRx: the pointer becomes `f` of itself and the low 17 bits of the operand
(41_ptr.md R152 to R157). -/
def ptrModify (sel : PtrSel) (f : HubAddr → HubAddr → HubAddr) (cccc : BitVec 4) (src : Src) (st : State) : Result State :=
  issue cccc (srcField src) none st fun o s =>
    andThen (s.readSrc src o.d) fun v =>
    .next ((s.modCur fun c => c.setPtr sel (f (c.ptr sel) (v.setWidth 17))).complete {})

/-! ## The instructions -/

/-- GETPTRA D (41_ptr.md R150). -/
def execGetptra (z c r : Bool) (cccc : BitVec 4) (d : RegAddr) (s : State) : Result State := ptrGet .ptra z c r cccc d s

/-- GETPTRB D (41_ptr.md R151). -/
def execGetptrb (z c r : Bool) (cccc : BitVec 4) (d : RegAddr) (s : State) : Result State := ptrGet .ptrb z c r cccc d s

/-- SETPTRA D (41_ptr.md R152). -/
def execSetptraD (cccc : BitVec 4) (d : RegAddr) (s : State) : Result State := ptrModify .ptra (fun _ v => v) cccc (.reg d) s

/-- SETPTRA #n (41_ptr.md R152). -/
def execSetptraI (cccc : BitVec 4) (n : BitVec 9) (s : State) : Result State := ptrModify .ptra (fun _ v => v) cccc (.imm n) s

/-- SETPTRB D (41_ptr.md R153). -/
def execSetptrbD (cccc : BitVec 4) (d : RegAddr) (s : State) : Result State := ptrModify .ptrb (fun _ v => v) cccc (.reg d) s

/-- SETPTRB #n (41_ptr.md R153). -/
def execSetptrbI (cccc : BitVec 4) (n : BitVec 9) (s : State) : Result State := ptrModify .ptrb (fun _ v => v) cccc (.imm n) s

/-- ADDPTRA D (41_ptr.md R154). -/
def execAddptraD (cccc : BitVec 4) (d : RegAddr) (s : State) : Result State := ptrModify .ptra (· + ·) cccc (.reg d) s

/-- ADDPTRA #n (41_ptr.md R154). -/
def execAddptraI (cccc : BitVec 4) (n : BitVec 9) (s : State) : Result State := ptrModify .ptra (· + ·) cccc (.imm n) s

/-- ADDPTRB D (41_ptr.md R155). -/
def execAddptrbD (cccc : BitVec 4) (d : RegAddr) (s : State) : Result State := ptrModify .ptrb (· + ·) cccc (.reg d) s

/-- ADDPTRB #n (41_ptr.md R155). -/
def execAddptrbI (cccc : BitVec 4) (n : BitVec 9) (s : State) : Result State := ptrModify .ptrb (· + ·) cccc (.imm n) s

/-- SUBPTRA D (41_ptr.md R156). -/
def execSubptraD (cccc : BitVec 4) (d : RegAddr) (s : State) : Result State := ptrModify .ptra (· - ·) cccc (.reg d) s

/-- SUBPTRA #n (41_ptr.md R156). -/
def execSubptraI (cccc : BitVec 4) (n : BitVec 9) (s : State) : Result State := ptrModify .ptra (· - ·) cccc (.imm n) s

/-- SUBPTRB D (41_ptr.md R157). -/
def execSubptrbD (cccc : BitVec 4) (d : RegAddr) (s : State) : Result State := ptrModify .ptrb (· - ·) cccc (.reg d) s

/-- SUBPTRB #n (41_ptr.md R157). -/
def execSubptrbI (cccc : BitVec 4) (n : BitVec 9) (s : State) : Result State := ptrModify .ptrb (· - ·) cccc (.imm n) s

end Sys2Proof.Machine
end

