-- ==== Sys2Proof/Machine/Quad.lean ====
section
/-! DEFINITION. CACHEX, GETTOPS, SETQUAD, SETQUAZ (42_quad.md). -/

namespace Sys2Proof.Machine

/-- The top bytes of the QUADs, that of `quad[k]` at byte k (42_quad.md R166, D12). -/
def Cog.tops (c : Cog) : Word :=
  c.quad[3].extractLsb' 24 8 ++ c.quad[2].extractLsb' 24 8 ++ c.quad[1].extractLsb' 24 8 ++ c.quad[0].extractLsb' 24 8

/-- The QUAD base moves, and the windows of both overlay ranges open: three instructions for a fetch, two for a read
(42_quad.md R167; 70_reset_and_hazards.md R340). -/
def Cog.rebase (c : Cog) (b : RegAddr) : Cog :=
  { c with qbase := b, remaps := ⟨c.qbase, 3⟩ :: ⟨b, 3⟩ :: c.remaps }

/-- The overlay would cover $1F6..$1FF or run past $1FF (42_quad.md R167, U12). -/
def badBase (b : RegAddr) : Bool := decide (0x1F3 ≤ b.toNat ∧ b.toNat ≤ 0x1FE)

/-- SETQUAD and SETQUAZ, which also does `f` to the cog (42_quad.md R167, R168). -/
def quadBase (f : Cog → Cog) (cccc : BitVec 4) (src : Src) (st : State) : Result State :=
  issue cccc (srcField src) none st fun o s =>
    andThen (s.readSrc src o.d) fun v =>
    let b : RegAddr := v.setWidth 9
    if badBase b then .refused .quadBase
    else .next (((s.modCur f).complete {}).modCur (·.rebase b))

/-- The four QUAD registers cleared (42_quad.md R168). -/
def Cog.clearQuad (c : Cog) : Cog := { c with quad := Vector.replicate 4 0 }

/-- CACHEX (42_quad.md R165). -/
def execCachex (cccc : BitVec 4) (st : State) : Result State :=
  issue cccc none none st fun _ s => .next ((s.modCur fun c => { c with cacheValid := false }).complete {})

/-- GETTOPS D (42_quad.md R166). -/
def execGettops (z : Bool) (cccc : BitVec 4) (d : RegAddr) (st : State) : Result State :=
  issue cccc (some d) none st fun o s =>
    let v := s.cur.tops
    .next (s.complete { write := some (o.d, v), zf := flagIf z (zeroFlag v) })

/-- SETQUAD D (42_quad.md R167). -/
def execSetquadD (cccc : BitVec 4) (d : RegAddr) (s : State) : Result State := quadBase id cccc (.reg d) s

/-- SETQUAD #n (42_quad.md R167). -/
def execSetquadI (cccc : BitVec 4) (n : BitVec 9) (s : State) : Result State := quadBase id cccc (.imm n) s

/-- SETQUAZ D (42_quad.md R168). -/
def execSetquazD (cccc : BitVec 4) (d : RegAddr) (s : State) : Result State := quadBase Cog.clearQuad cccc (.reg d) s

/-- SETQUAZ #n (42_quad.md R168). -/
def execSetquazI (cccc : BitVec 4) (n : BitVec 9) (s : State) : Result State := quadBase Cog.clearQuad cccc (.imm n) s

end Sys2Proof.Machine
end

