-- ==== Sys2Proof/Machine/Dispatch.lean ====
section
/-! DEFINITION. The meaning of each instruction: one arm per row of the opcode table. -/

namespace Sys2Proof.Machine

def exec (i : Instr) (s : State) : Host.Outcome State Fault Refusal :=
  match i with
  | .wrbyteS cccc d sf => Sys2Proof.Machine.execWrbyteS cccc d sf s
  | .wrbyteP cccc d p => Sys2Proof.Machine.execWrbyteP cccc d p s
  | .rdbyteS z cccc d sf => Sys2Proof.Machine.execRdbyteS z cccc d sf s
  | .rdbyteP z cccc d p => Sys2Proof.Machine.execRdbyteP z cccc d p s
  | .rdbytecS z cccc d sf => Sys2Proof.Machine.execRdbytecS z cccc d sf s
  | .rdbytecP z cccc d p => Sys2Proof.Machine.execRdbytecP z cccc d p s
  | .wrwordS cccc d sf => Sys2Proof.Machine.execWrwordS cccc d sf s
  | .wrwordP cccc d p => Sys2Proof.Machine.execWrwordP cccc d p s
  | .rdwordS z cccc d sf => Sys2Proof.Machine.execRdwordS z cccc d sf s
  | .rdwordP z cccc d p => Sys2Proof.Machine.execRdwordP z cccc d p s
  | .rdwordcS z cccc d sf => Sys2Proof.Machine.execRdwordcS z cccc d sf s
  | .rdwordcP z cccc d p => Sys2Proof.Machine.execRdwordcP z cccc d p s
  | .wrlongS cccc d sf => Sys2Proof.Machine.execWrlongS cccc d sf s
  | .wrlongP cccc d p => Sys2Proof.Machine.execWrlongP cccc d p s
  | .rdlongS z cccc d sf => Sys2Proof.Machine.execRdlongS z cccc d sf s
  | .rdlongP z cccc d p => Sys2Proof.Machine.execRdlongP z cccc d p s
  | .rdlongcS z cccc d sf => Sys2Proof.Machine.execRdlongcS z cccc d sf s
  | .rdlongcP z cccc d p => Sys2Proof.Machine.execRdlongcP z cccc d p s
  | .wrquadD cccc d => Sys2Proof.Machine.execWrquadD cccc d s
  | .wrquadP cccc p => Sys2Proof.Machine.execWrquadP cccc p s
  | .rdquadD cccc d => Sys2Proof.Machine.execRdquadD cccc d s
  | .rdquadP cccc p => Sys2Proof.Machine.execRdquadP cccc p s
  | .rdquadcD cccc d => Sys2Proof.Machine.execRdquadcD cccc d s
  | .rdquadcP cccc p => Sys2Proof.Machine.execRdquadcP cccc p s
  | .getptra z c r cccc d => Sys2Proof.Machine.execGetptra z c r cccc d s
  | .getptrb z c r cccc d => Sys2Proof.Machine.execGetptrb z c r cccc d s
  | .setptraD cccc d => Sys2Proof.Machine.execSetptraD cccc d s
  | .setptraI cccc n => Sys2Proof.Machine.execSetptraI cccc n s
  | .setptrbD cccc d => Sys2Proof.Machine.execSetptrbD cccc d s
  | .setptrbI cccc n => Sys2Proof.Machine.execSetptrbI cccc n s
  | .addptraD cccc d => Sys2Proof.Machine.execAddptraD cccc d s
  | .addptraI cccc n => Sys2Proof.Machine.execAddptraI cccc n s
  | .addptrbD cccc d => Sys2Proof.Machine.execAddptrbD cccc d s
  | .addptrbI cccc n => Sys2Proof.Machine.execAddptrbI cccc n s
  | .subptraD cccc d => Sys2Proof.Machine.execSubptraD cccc d s
  | .subptraI cccc n => Sys2Proof.Machine.execSubptraI cccc n s
  | .subptrbD cccc d => Sys2Proof.Machine.execSubptrbD cccc d s
  | .subptrbI cccc n => Sys2Proof.Machine.execSubptrbI cccc n s
  | .cachex cccc => Sys2Proof.Machine.execCachex cccc s
  | .gettops z cccc d => Sys2Proof.Machine.execGettops z cccc d s
  | .setquadD cccc d => Sys2Proof.Machine.execSetquadD cccc d s
  | .setquadI cccc n => Sys2Proof.Machine.execSetquadI cccc n s
  | .setquazD cccc d => Sys2Proof.Machine.execSetquazD cccc d s
  | .setquazI cccc n => Sys2Proof.Machine.execSetquazI cccc n s
  | .coginit z c r cccc d sf => Sys2Proof.Machine.execCoginit z c r cccc d sf s
  | .clkset cccc d => Sys2Proof.Machine.execClkset cccc d s
  | .cogid cccc d => Sys2Proof.Machine.execCogid cccc d s
  | .cogstop cccc d => Sys2Proof.Machine.execCogstop cccc d s
  | .locknew z c cccc d => Sys2Proof.Machine.execLocknew z c cccc d s
  | .lockret cccc d => Sys2Proof.Machine.execLockret cccc d s
  | .lockset c cccc d => Sys2Proof.Machine.execLockset c cccc d s
  | .lockclr c cccc d => Sys2Proof.Machine.execLockclr c cccc d s
  | .setindaSet addr => Sys2Proof.Machine.execSetindaSet addr s
  | .setindaAdj delta => Sys2Proof.Machine.execSetindaAdj delta s
  | .setindbSet addr => Sys2Proof.Machine.execSetindbSet addr s
  | .setindbAdj delta => Sys2Proof.Machine.execSetindbAdj delta s
  | .setindsSetSet addrB addrA => Sys2Proof.Machine.execSetindsSetSet addrB addrA s
  | .setindsSetAdj addrB deltaA => Sys2Proof.Machine.execSetindsSetAdj addrB deltaA s
  | .setindsAdjSet deltaB addrA => Sys2Proof.Machine.execSetindsAdjSet deltaB addrA s
  | .setindsAdjAdj deltaB deltaA => Sys2Proof.Machine.execSetindsAdjAdj deltaB deltaA s
  | .fixinda terminal initial => Sys2Proof.Machine.execFixinda terminal initial s
  | .fixindb terminal initial => Sys2Proof.Machine.execFixindb terminal initial s
  | .fixinds terminal initial => Sys2Proof.Machine.execFixinds terminal initial s
  | .subcnt z c cccc d => Sys2Proof.Machine.execSubcnt z c cccc d s
  | .cmpcnt z c cccc d => Sys2Proof.Machine.execCmpcnt z c cccc d s
  | .passcnt cccc d => Sys2Proof.Machine.execPasscnt cccc d s
  | .getcnt cccc d => Sys2Proof.Machine.execGetcnt cccc d s
  | .waitcnt wide r cccc d src => Sys2Proof.Machine.execWaitcnt wide r cccc d src s
  | .waitpeq cccc d src => Sys2Proof.Machine.execWaitpeq cccc d src s
  | .waitpne cccc d src => Sys2Proof.Machine.execWaitpne cccc d src s
  | .mov cccc d src => Sys2Proof.Machine.execMov cccc d src s
  | .add cccc d src => Sys2Proof.Machine.execAdd cccc d src s

end Sys2Proof.Machine
end

