-- ==== Sys2Proof/Machine/Fetch.lean ====
section
/-! DEFINITION. Fetching a long, and what becomes of one that is no instruction (10_state.md R26; 30_encoding.md R103). -/

namespace Sys2Proof.Machine

/-- `pc <- pc + 1`, before the instruction executes (10_state.md R26). -/
def State.advancePc (s : State) : State := s.modCur fun c => { c with pc := c.pc + 1 }

/-- A long that matches no row and never executes: its condition field is 0000, no field of it may name an indirect register, and its
opcode is not SETINDx's or FIXINDx's (30_encoding.md R103, U14).
DEDUCED (log 18): of a long without a row the D field, and with I = 0 the S field, may be a register field; safe. -/
def skipped (f : Fields) : Bool :=
  f.cccc == 0b0000 && f.op != 0b111000 && f.op != 0b111001 && !namesInd f.d && (f.i || !namesInd f.s)

/-- What becomes of a long that is no instruction with a meaning (30_encoding.md R103). -/
def State.undecoded (s : State) (iw : Word) (e : DecodeError) : Result State :=
  match e with
  | .noMeaning .fieldNamesInd => .refused .fieldNamesInd
  | .noMeaning .passcntPostModifies => .refused .passcntPostModifies
  | .unlisted => if skipped (.split iw) then .next (s.complete {}) else .refused .unlistedEncoding
  | .truncated => .refused .unlistedEncoding

/-- The cog running, with a long where its next fetch reads, in no PASSCNT's loop, and no pipeline window against that fetch. -/
def Cog.placeLong (c : Cog) (iw : Word) : Cog :=
  let a : RegAddr := if c.pc.toNat < 0x1F6 then c.pc else 0
  { c.setUnderlying a iw with
    quad := c.quadStored a iw
    pc := a
    run := .running
    passAt := none
    recent := ⟨none, none, none⟩
    fill := .settled
    remaps := [] }

end Sys2Proof.Machine
end

