-- ==== Sys2Proof/Machine/Step.lean ====
section
/-! DEFINITION. One step of the chip (00_scope.md R15; 10_state.md R26). -/

namespace Sys2Proof.Machine

/-- A running cog executes a long it has fetched: the program counter advances, then the instruction executes
(10_state.md R26). -/
def State.runLong (s : State) (iw : Word) : Result State :=
  match decode iw with
  | .ok i => exec i s.advancePc
  | .error e => s.advancePc.undecoded iw e

/-- The agent whose turn it is does what it does next (10_state.md R33): nothing if idle, one long of the load if loading, one
instruction if running. -/
def State.cogStep (s : State) : Result State :=
  match s.cur.run with
  | .idle => if s.activeCogs.isEmpty then .fault .everyCogIdle else .next s
  | .loading l => .next (s.loaderStep l)
  | .running => andThen s.cur.fetch s.runLong

/-- One step: after a chip reset the boot process, else the agent whose turn it is; then any agent may be next. -/
def step (s : State) : Host.Outcome State Fault Refusal :=
  if s.resetPending then .next s.boot.passTurn
  else andThen s.cogStep fun t => .next (if t.resetPending then t else t.passTurn)

/-- The state with an instruction where the next step fetches: a program loaded from outside into the cog whose turn it is
(log 10). -/
def State.withFetchWord (s : State) (nbits w : Nat) : State :=
  { s.modCur (·.placeLong (BitVec.ofNat 32 (w % 2 ^ nbits))) with resetPending := false }

end Sys2Proof.Machine
end

