-- ==== Sys2Proof/Machine/Unencoded.lean ====
section
/-! DEFINITION. The effects that the spec states for instructions whose encodings are lost: SETCOG (43_hub_control.md R182) and
the stack-pointer instructions (45_stack.md R243 to R251). No row of the opcode table has them, so no instruction of
Syntax.lean reaches them; each acts on the executing cog once its operand has been read (log 33). -/

namespace Sys2Proof.Machine

/-- SETCOG D with the value of D (43_hub_control.md R182). -/
def opSetcog (v : Word) (s : State) : State := (s.modCur fun c => { c with cogsel := v.setWidth 4 }).complete {}

/-- SETSPA D/#n with the operand's value (45_stack.md R243). -/
def opSetspa (v : Word) (s : State) : State := (s.modCur fun c => { c with spa := v.setWidth 8 }).complete {}

/-- SETSPB D/#n with the operand's value (45_stack.md R244). -/
def opSetspb (v : Word) (s : State) : State := (s.modCur fun c => { c with spb := v.setWidth 8 }).complete {}

/-- ADDSPA D/#n with the operand's value (45_stack.md R245). -/
def opAddspa (v : Word) (s : State) : State := (s.modCur fun c => { c with spa := c.spa + v.setWidth 8 }).complete {}

/-- ADDSPB D/#n with the operand's value (45_stack.md R246). -/
def opAddspb (v : Word) (s : State) : State := (s.modCur fun c => { c with spb := c.spb + v.setWidth 8 }).complete {}

/-- SUBSPA D/#n with the operand's value (45_stack.md R247). -/
def opSubspa (v : Word) (s : State) : State := (s.modCur fun c => { c with spa := c.spa - v.setWidth 8 }).complete {}

/-- SUBSPB D/#n with the operand's value (45_stack.md R248). -/
def opSubspb (v : Word) (s : State) : State := (s.modCur fun c => { c with spb := c.spb - v.setWidth 8 }).complete {}

/-- A stack pointer into register `d`: Z says it is zero, C is its bit 7 (45_stack.md R249, R250). -/
def spGet (p : BitVec 8) (z c : Bool) (d : RegAddr) (s : State) : State :=
  s.complete { write := some (d, p.setWidth 32), zf := flagIf z (p == 0), cf := flagIf c (spCarry p) }

/-- GETSPA D (45_stack.md R249). -/
def opGetspa (z c : Bool) (d : RegAddr) (s : State) : State := spGet s.cur.spa z c d s

/-- GETSPB D (45_stack.md R250). -/
def opGetspb (z c : Bool) (d : RegAddr) (s : State) : State := spGet s.cur.spb z c d s

/-- GETSPD D (45_stack.md R251): what C receives is lost, and takes any value (log 15). -/
def opGetspd (z c : Bool) (d : RegAddr) (s : State) : State :=
  (s.drawn 1).complete
    { write := some (d, (s.cur.spa - s.cur.spb).setWidth 32)
      zf := flagIf z (s.cur.spa == s.cur.spb)
      cf := flagIf c (Config.anyFlag s.draws) }

end Sys2Proof.Machine
end

