-- ==== Sys2Proof/Safety.lean ====
section
/-! DEFINITION. The terms the claims use: when an instruction executes, what its end leaves alone, and the invariant. -/

namespace Sys2Proof

/-! ## The opcode table -/

/-- Mask and match of every row of the opcode table, in its order (30_encoding.md R101, R102, R106): a long is of a row if its masked
bits are the match. -/
def opcodeRows : List (Word × Word) :=
  -- hub bytes
  [(0xFFC00000, 0x00000000), (0xFFC00000, 0x00400000), (0xFDC00000, 0x00800000), (0xFDC00000, 0x00C00000),
   (0xFDC00000, 0x01800000), (0xFDC00000, 0x01C00000)] ++
  -- hub words
  [(0xFFC00000, 0x04000000), (0xFFC00000, 0x04400000), (0xFDC00000, 0x04800000), (0xFDC00000, 0x04C00000),
   (0xFDC00000, 0x05800000), (0xFDC00000, 0x05C00000)] ++
  -- hub longs
  [(0xFFC00000, 0x08000000), (0xFFC00000, 0x08400000), (0xFDC00000, 0x08800000), (0xFDC00000, 0x08C00000),
   (0xFDC00000, 0x09800000), (0xFDC00000, 0x09C00000)] ++
  -- QUAD transfers
  [(0xFFC001FF, 0x0C4000B0), (0xFFC001FF, 0x0CC000B0), (0xFFC001FF, 0x0C4000B1), (0xFFC001FF, 0x0CC000B1),
   (0xFFC001FF, 0x0D4000B1), (0xFFC001FF, 0x0DC000B1)] ++
  -- PTRA and PTRB
  [(0xFC4001FF, 0x0C400012), (0xFC4001FF, 0x0C400013), (0xFFC001FF, 0x0C4000B2), (0xFFC001FF, 0x0CC000B2),
   (0xFFC001FF, 0x0C4000B3), (0xFFC001FF, 0x0CC000B3), (0xFFC001FF, 0x0C4000B4), (0xFFC001FF, 0x0CC000B4),
   (0xFFC001FF, 0x0C4000B5), (0xFFC001FF, 0x0CC000B5), (0xFFC001FF, 0x0C4000B6), (0xFFC001FF, 0x0CC000B6),
   (0xFFC001FF, 0x0C4000B7), (0xFFC001FF, 0x0CC000B7)] ++
  -- QUAD control
  [(0xFFC3FFFF, 0x0C400008), (0xFDC001FF, 0x0CC00011), (0xFFC001FF, 0x0C4000E2), (0xFFC001FF, 0x0CC000E2),
   (0xFFC001FF, 0x0D4000E2), (0xFFC001FF, 0x0DC000E2)] ++
  -- hub control
  [(0xFC400000, 0x0C000000), (0xFFC001FF, 0x0C400000), (0xFFC001FF, 0x0CC00001), (0xFFC001FF, 0x0C400003),
   (0xFCC001FF, 0x0CC00004), (0xFFC001FF, 0x0C400005), (0xFEC001FF, 0x0C400006), (0xFEC001FF, 0x0C400007)] ++
  -- indirect registers
  [(0xFFFFFE00, 0xE0040000), (0xFFFFFE00, 0xE00C0000), (0xFFFC01FF, 0xE0100000), (0xFFFC01FF, 0xE0300000),
   (0xFFFC0000, 0xE0140000), (0xFFFC0000, 0xE01C0000), (0xFFFC0000, 0xE0340000), (0xFFFC0000, 0xE03C0000),
   (0xFFFC0000, 0xE4040000), (0xFFFC0000, 0xE4100000), (0xFFFC0000, 0xE4140000)] ++
  -- counter and waits
  [(0xFCC001FF, 0x0C40000C), (0xFCC001FF, 0x0CC0000C), (0xFFC001FF, 0x0C40000D), (0xFFC001FF, 0x0CC0000D),
   (0xFE000000, 0xFC000000), (0xFF800000, 0xFF000000), (0xFF800000, 0xFF800000)] ++
  -- MOV and ADD
  [(0xFF800000, 0xA0800000), (0xFF800000, 0x80800000)]

/-! ## Kinds of instruction -/

/-- The condition field and the register fields of an instruction that is conditional or indirect; none for SETINDx and FIXINDx,
which are neither (30_encoding.md R97, R98, R100). -/
def Instr.issueFields : Instr → Option (BitVec 4 × Option RegAddr × Option RegAddr)
  | .wrbyteS k d sf | .rdbyteS _ k d sf | .rdbytecS _ k d sf | .wrwordS k d sf | .rdwordS _ k d sf | .rdwordcS _ k d sf
  | .wrlongS k d sf | .rdlongS _ k d sf | .rdlongcS _ k d sf | .coginit _ _ _ k d sf => some (k, some d, some sf)
  | .wrbyteP k d _ | .rdbyteP _ k d _ | .rdbytecP _ k d _ | .wrwordP k d _ | .rdwordP _ k d _ | .rdwordcP _ k d _
  | .wrlongP k d _ | .rdlongP _ k d _ | .rdlongcP _ k d _ => some (k, some d, none)
  | .wrquadD k d | .rdquadD k d | .rdquadcD k d | .getptra _ _ _ k d | .getptrb _ _ _ k d
  | .setptraD k d | .setptrbD k d | .addptraD k d | .addptrbD k d | .subptraD k d | .subptrbD k d
  | .gettops _ k d | .setquadD k d | .setquazD k d | .clkset k d | .cogid k d | .cogstop k d | .locknew _ _ k d
  | .lockret k d | .lockset _ k d | .lockclr _ k d | .subcnt _ _ k d | .cmpcnt _ _ k d | .passcnt k d | .getcnt k d =>
    some (k, some d, none)
  | .wrquadP k _ | .rdquadP k _ | .rdquadcP k _ | .setptraI k _ | .setptrbI k _ | .addptraI k _ | .addptrbI k _
  | .subptraI k _ | .subptrbI k _ | .cachex k | .setquadI k _ | .setquazI k _ => some (k, none, none)
  | .waitcnt _ _ k d src | .waitpeq k d src | .waitpne k d src | .mov k d src | .add k d src =>
    some (k, some d, Machine.srcField src)
  | .setindaSet .. | .setindaAdj .. | .setindbSet .. | .setindbAdj .. | .setindsSetSet .. | .setindsSetAdj ..
  | .setindsAdjSet .. | .setindsAdjAdj .. | .fixinda .. | .fixindb .. | .fixinds .. => none

/-- The instructions that write hub memory (10_state.md R35). -/
def Instr.storesHub : Instr → Bool
  | .wrbyteS .. | .wrbyteP .. | .wrwordS .. | .wrwordP .. | .wrlongS .. | .wrlongP .. | .wrquadD .. | .wrquadP .. => true
  | .rdbyteS .. | .rdbyteP .. | .rdbytecS .. | .rdbytecP .. | .rdwordS .. | .rdwordP .. | .rdwordcS .. | .rdwordcP ..
  | .rdlongS .. | .rdlongP .. | .rdlongcS .. | .rdlongcP .. | .rdquadD .. | .rdquadP .. | .rdquadcD .. | .rdquadcP ..
  | .getptra .. | .getptrb .. | .setptraD .. | .setptraI .. | .setptrbD .. | .setptrbI .. | .addptraD .. | .addptraI ..
  | .addptrbD .. | .addptrbI .. | .subptraD .. | .subptraI .. | .subptrbD .. | .subptrbI .. | .cachex .. | .gettops ..
  | .setquadD .. | .setquadI .. | .setquazD .. | .setquazI .. | .coginit .. | .clkset .. | .cogid .. | .cogstop ..
  | .locknew .. | .lockret .. | .lockset .. | .lockclr .. | .setindaSet .. | .setindaAdj .. | .setindbSet ..
  | .setindbAdj .. | .setindsSetSet .. | .setindsSetAdj .. | .setindsAdjSet .. | .setindsAdjAdj .. | .fixinda ..
  | .fixindb .. | .fixinds .. | .subcnt .. | .cmpcnt .. | .passcnt .. | .getcnt .. | .waitcnt .. | .waitpeq ..
  | .waitpne .. | .mov .. | .add .. => false

/-- The instructions that start or stop a cog (43_hub_control.md R181, R189). -/
def Instr.controlsCogs : Instr → Bool
  | .coginit .. | .cogstop .. => true
  | .wrbyteS .. | .wrbyteP .. | .wrwordS .. | .wrwordP .. | .wrlongS .. | .wrlongP .. | .wrquadD .. | .wrquadP ..
  | .rdbyteS .. | .rdbyteP .. | .rdbytecS .. | .rdbytecP .. | .rdwordS .. | .rdwordP .. | .rdwordcS .. | .rdwordcP ..
  | .rdlongS .. | .rdlongP .. | .rdlongcS .. | .rdlongcP .. | .rdquadD .. | .rdquadP .. | .rdquadcD .. | .rdquadcP ..
  | .getptra .. | .getptrb .. | .setptraD .. | .setptraI .. | .setptrbD .. | .setptrbI .. | .addptraD .. | .addptraI ..
  | .addptrbD .. | .addptrbI .. | .subptraD .. | .subptraI .. | .subptrbD .. | .subptrbI .. | .cachex .. | .gettops ..
  | .setquadD .. | .setquadI .. | .setquazD .. | .setquazI .. | .clkset .. | .cogid .. | .locknew .. | .lockret ..
  | .lockset .. | .lockclr .. | .setindaSet .. | .setindaAdj .. | .setindbSet .. | .setindbAdj .. | .setindsSetSet ..
  | .setindsSetAdj .. | .setindsAdjSet .. | .setindsAdjAdj .. | .fixinda .. | .fixindb .. | .fixinds .. | .subcnt ..
  | .cmpcnt .. | .passcnt .. | .getcnt .. | .waitcnt .. | .waitpeq .. | .waitpne .. | .mov .. | .add .. => false

end Sys2Proof

namespace Sys2Proof.Machine

/-! ## When an instruction executes -/

/-- The instruction with register fields `d` and `sf` executes, and its operands have a meaning (30_encoding.md R96 to R98,
44_indirect.md R212, R215). -/
abbrev Executes (s : State) (cccc : BitVec 4) (d sf : Option RegAddr) : Prop :=
  (fieldInd d || fieldInd sf || cond cccc s.cur.cf s.cur.zf) = true ∧ s.cur.operandRefusal cccc d sf = none

/-- No window of 70_reset_and_hazards.md R338, R340 stands against a read of `x[a]` via D or S. -/
abbrev Readable (s : State) (a : RegAddr) : Prop := s.cur.readHazard a = none

/-- The operand, if it is a register, can be read. -/
abbrev SrcReadable (s : State) (src : Src) (a : RegAddr) : Prop :=
  match src with
  | .reg _ => Readable s a
  | .imm _ => True

/-- The hub address operand, if it is a register, can be read. -/
abbrev HubReadable (s : State) (h : HubOperand) (a : RegAddr) : Prop :=
  match h with
  | .reg _ => Readable s a
  | .ptr _ => True

/-- The value of a register or immediate operand (30_encoding.md R95). -/
def State.srcValue (s : State) (src : Src) (a : RegAddr) : Word :=
  match src with
  | .reg _ => s.cur.reg a
  | .imm n => n.setWidth 32

/-- The effective address of a hub access (40_hub_memory.md R120). -/
def State.hubAddress (s : State) (h : HubOperand) (w : Width) (a : RegAddr) : HubAddr :=
  match h with
  | .reg _ => (s.cur.reg a).setWidth 17
  | .ptr p => s.cur.ptrEA p w

/-- The state after the operands are resolved: the pointers used have moved (44_indirect.md R213). -/
def State.issued (s : State) (cccc : BitVec 4) (d sf : Option RegAddr) : State :=
  s.modCur (·.postModOperands cccc d sf)

/-! ## What an instruction leaves alone -/

/-- What a register holds after an optional write. -/
def written (w : Option (RegAddr × Word)) (a : RegAddr) (old : Word) : Word :=
  match w with
  | some (b, v) => if a = b then v else old
  | none => old

/-- `c'` is `c` but for registers, flags and the pipeline: every special register, pointer, stack cell and hidden register of
10_state.md section 1 that is none of these is as it was. -/
def SpecialsKept (c c' : Cog) : Prop :=
  c' = { c with
    ram := c'.ram, pinRegs := c'.pinRegs, quad := c'.quad, lastStored := c'.lastStored, cf := c'.cf, zf := c'.zf,
    recent := c'.recent, fill := c'.fill, remaps := c'.remaps, cntPhase := c'.cntPhase, passAt := c'.passAt,
    due := c'.due }

/-- `t` is `b` with the effect `e` of an instruction of the executing cog, and with one more instruction gone by in its
pipeline: one register at most is written, and every other register, whether a QUAD lies over it or not, reads as before;
hidden QUADs, flags not written, special registers, the hub with every byte of its memory, and the other cogs are as before. -/
structure Delivers (b t : State) (e : Effect) : Prop where
  reg        : ∀ a, t.cur.reg a = written e.write a (b.cur.reg a)
  underlying : ∀ a, t.cur.underlying a = written e.write a (b.cur.underlying a)
  hiddenQuad : ∀ k : Fin 4, (∀ a, overlay b.cur.qbase a ≠ some k) → t.cur.quad[k] = b.cur.quad[k]
  lastStored : t.cur.lastStored = (e.write.map Prod.snd).getD b.cur.lastStored
  cf         : t.cur.cf = e.cf.getD b.cur.cf
  zf         : t.cur.zf = e.zf.getD b.cur.zf
  specials   : SpecialsKept b.cur t.cur
  recent     : t.cur.recent = b.cur.recent.after (e.write.map Prod.fst)
  fill       : t.cur.fill = b.cur.fill.after e.clocks
  remaps     : t.cur.remaps = remapsAfter b.cur.remaps
  cntPhase   : t.cur.cntPhase = .none
  passAt     : t.cur.passAt = none
  due        : t.cur.due = b.cur.due + e.clocks
  hub        : t.hub = b.hub
  others     : ∀ k, k ≠ b.turn → t.cogAt k = b.cogAt k
  turn       : t.turn = b.turn
  reset      : t.resetPending = b.resetPending

/-- The instruction completes: it answers a next state, which is `b` with the effect `e`. -/
abbrev Answers (r : Result State) (b : State) (e : Effect) : Prop := ∃ t, r = .next t ∧ Delivers b t e

/-! ## The invariant -/

/-- A start-up load copies registers $000..$1F7 from a long address (43_hub_control.md R184). -/
def LoadWf (l : Load) : Prop := (∀ i ∈ l.left, i < loadLongs) ∧ l.addr &&& 3 = 0

/-- A cog's registers and stack are in canonical form, its program counter is at most $1F6 (10_state.md R26), its QUAD base hides
the QUADs or leaves $1F6..$1FF free (42_quad.md R167), and its load, if it has one, is proper. -/
structure Cog.Wf (c : Cog) : Prop where
  ram   : CellsWf loadLongs c.ram
  stack : CellsWf 256 c.stack
  pc    : c.pc.toNat ≤ 0x1F6
  qbase : c.qbase = 0x1FF ∨ c.qbase.toNat ≤ 0x1F2
  load  : ∀ l, c.run = .loading l → LoadWf l

/-- Hub memory is in canonical form, every cog is well-formed, and the clock register's reset bit is 0: a CLKSET that writes it
resets the chip (43_hub_control.md R187). -/
structure State.Inv (s : State) : Prop where
  mem    : Memory.wf s.hub.mem
  cogs   : ∀ t, (s.cogAt t).Wf
  clkreg : s.hub.clkreg.getLsbD 8 = false

/-- The pointer lies within its limits (10_state.md R29). -/
def IndOrdered (p : IndReg) : Prop := p.bot.toNat ≤ p.ptr.toNat ∧ p.ptr.toNat ≤ p.top.toNat

/-! ## Steps one after the other -/

/-- The state after `n` steps, if each of them answers a next state. -/
def steps : Nat → State → Result State
  | 0, s => .next s
  | n + 1, s => andThen (step s) (steps n)

/-! ## A start-up load on its own -/

/-- `n` steps of the loader acting for the cog whose turn it is, and of nobody else. -/
def loadSteps : Nat → State → State
  | 0, s => s
  | n + 1, s =>
    match s.cur.run with
    | .loading l => loadSteps n (s.loaderStep l)
    | _ => s

end Sys2Proof.Machine
end

