-- ==== Sys2Proof/Certificates/Slice0/Obligations.lean ====
section
/-! DEFINITION. The statements for the provers. A statement about an instruction with operand fields speaks of the state
`s` after its operands are resolved (`issued`) and of the addresses `o` they designate, so that it holds for direct and
indirect operands alike; `Answers` and `Delivers` of Safety.lean say what is left alone. -/

open Sys2Proof Sys2Proof.Machine

/-! ## Reset, the invariant, and the whole machine -/

/-- Right after chip reset the clock register is 0 and hub ROM holds the ROM image, of which the spec gives 32 bytes
(10_state.md R41, 20_memory.md R66); no cog executes and the boot process is due (70_reset_and_hazards.md R331; log 10). The
model's own: the 32 bytes being the ROM's: log 7; every cog idle and a boot step to come: log 9, log 10. -/
def Obligations.ResetLeavesTheStatedValues : Prop :=
  State.reset.hub.clkreg = 0 ∧
  (∀ a, a < romEnd → hubByte State.reset.hub.mem a = romByte a) ∧
  (List.range 32).map romByte = knownRom ∧
  (∀ t, (State.reset.cogAt t).run = .idle) ∧ State.reset.resetPending = true

/-- The invariant holds right after reset. The model's own: register values at reset: log 9. -/
def Obligations.ResetMeetsTheInvariant : Prop := State.reset.Inv

/-- Every step keeps the invariant: hub memory, register RAM and stack RAM in canonical form; every program counter at most
$1F6 (10_state.md R26); every QUAD base hidden or below $1F3 (42_quad.md R167); every load from a long address
(43_hub_control.md R184); the clock register's reset bit 0 (43_hub_control.md R187). The model's own: the canonical form is the
model's: log 8; the bounds of the program counter and the QUAD base: log 27, log 34. -/
def Obligations.StepKeepsTheInvariant : Prop := ∀ s t : State, s.Inv → step s = .next t → t.Inv

/-- No step changes ROM, and no instruction but WRBYTE, WRWORD, WRLONG, WRQUAD changes RAM, short of a chip reset (10_state.md
R35). The model's own: writes to ROM dropped: log 6; a chip reset frees RAM: log 29. -/
def Obligations.OnlyStoresChangeHubMemory : Prop :=
  (∀ (s t : State) (a : Nat), s.Inv → step s = .next t → a < romEnd →
    hubByte t.hub.mem a = romByte a ∧ hubByte s.hub.mem a = romByte a) ∧
  (∀ (i : Instr) (s t : State), i.storesHub = false → exec i s = .next t → t.resetPending = false →
    t.hub.mem = s.hub.mem)

/-- One cog cannot reach another cog's registers or private state (20_memory.md R60): short of a chip reset an instruction
leaves the other cogs as they are, and COGINIT and COGSTOP change only whether they run and when. The model's own: when a
started cog may execute: log 30. -/
def Obligations.CogsAreIsolated : Prop :=
  ∀ (i : Instr) (s t : State) (k : CogId), exec i s = .next t → t.resetPending = false → k ≠ s.turn →
    t.cogAt k = { s.cogAt k with run := (t.cogAt k).run, due := (t.cogAt k).due } ∧
    (i.controlsCogs = false → t.cogAt k = s.cogAt k)

/-- The counter never runs back: short of a chip reset every step adds some number of clocks to it (70_reset_and_hazards.md
R345 a). The model's own: CNT as draws: log 19. -/
def Obligations.CounterNeverRunsBack : Prop :=
  ∀ s t : State, step s = .next t → t.resetPending = false →
    ∃ n : Nat, t.hub.cnt = s.hub.cnt + BitVec.ofNat 64 n ∧ t.hub.elapsed = s.hub.elapsed + n

/-- No instruction with an encoding reaches stack RAM, SPA, SPB, SETCOG's value or the pin registers of any cog (45_stack.md,
43_hub_control.md R182, 10_state.md R21); a chip reset keeps stack RAM (45_stack.md R240). The model's own: the instructions
that reach them have no encoding: log 33; stack RAM across a chip reset: log 29. -/
def Obligations.UnreachableStateStaysPut : Prop :=
  ∀ (i : Instr) (s t : State) (k : CogId), exec i s = .next t →
    (t.cogAt k).stack = (s.cogAt k).stack ∧
    (t.resetPending = false →
      (t.cogAt k).spa = (s.cogAt k).spa ∧ (t.cogAt k).spb = (s.cogAt k).spb ∧
      (t.cogAt k).cogsel = (s.cogAt k).cogsel ∧ (t.cogAt k).pinRegs = (s.cogAt k).pinRegs)

/-- Once INDA's or INDB's pointer lies within its limits it does so after every instruction (10_state.md R29, 44_indirect.md
R213). The model's own: after a chip reset R41 leaves INDA and INDB unspecified, and the limits hold by the model's register
values at reset: log 9, log 29. -/
def Obligations.IndirectPointersStayWithinLimits : Prop :=
  ∀ (i : Instr) (s t : State) (k : CogId), exec i s = .next t →
    (IndOrdered (s.cogAt k).inda → IndOrdered (t.cogAt k).inda) ∧
    (IndOrdered (s.cogAt k).indb → IndOrdered (t.cogAt k).indb)

/-! ## Decoding and encoding -/

/-- Decoding the encoding of a well-formed instruction gives it back, with every operand. -/
def Obligations.DecodeOfEncode : Prop := ∀ i : Instr, i.wellFormed = true → decode (encode i) = .ok i

/-- A long that decodes is the encoding of what it decodes to, and that is well-formed: no two longs are one instruction
(30_encoding.md R106). -/
def Obligations.EncodeOfDecode : Prop :=
  ∀ (iw : Word) (i : Instr), decode iw = .ok i → encode i = iw ∧ i.wellFormed = true

/-- Encodings of listed rows that the spec gives no meaning are rejected by name: a number or PTR expression in D equal to $1F6
or $1F7 (30_encoding.md R92), PASSCNT with a post-modifying indirect D (46_cnt_wait.md R258). The model's own: U10, U31: log
34, log 39. -/
def Obligations.MeaninglessEncodingsAreRejected : Prop :=
  ∀ (i : Instr) (e : Defect), i.defect = some e → decode (encode i) = .error (.noMeaning e)

/-- A long is rejected as unlisted exactly if it matches no row of the opcode table: an opcode, a sub-opcode, a combination of
ZCR and I or a selector that is not listed, or an unused field that is not zero (30_encoding.md R101, R102, R103); and no long
matches two rows (R106). -/
def Obligations.UnlistedLongsAreRejected : Prop :=
  ∀ iw : Word,
    (decode iw = .error .unlisted ↔ ∀ row ∈ opcodeRows, iw &&& row.1 ≠ row.2) ∧
    opcodeRows.Pairwise fun x y => iw &&& x.1 = x.2 → iw &&& y.1 ≠ y.2

/-- Words written out from the spec's encodings decode to the instructions they stand for: CLKSET and COGSTOP of the ROM
(20_memory.md R65), the indirect MOV and ADD (47_branches_misc.md R285, R286), one of each other family. -/
def Obligations.SampleWordsDecode : Prop :=
  decode 0x0C7C2000 = .ok (.clkset 0b1111 0x010) ∧
  decode 0x0C7CCC03 = .ok (.cogstop 0b1111 0x066) ∧
  decode 0xA08FEDF6 = .ok (.mov 0b0011 0x1F6 (.reg 0x1F6)) ∧
  decode 0x80B3EFF7 = .ok (.add 0b1100 0x1F7 (.reg 0x1F7)) ∧
  decode 0x003C2011 = .ok (.wrbyteS 0b1111 0x010 0x011) ∧
  decode 0x0CFFFAB0 = .ok (.wrquadP 0b1111 ⟨.ptrb, true, true, 0x3D⟩) ∧
  decode 0x0CFE00B2 = .ok (.setptraI 0b1111 0x100) ∧
  decode 0x0CFC40E2 = .ok (.setquadI 0b1111 0x020) ∧
  decode 0xE01C0E08 = .ok (.setindsSetAdj 0x007 0x008) ∧
  decode 0x0C7C200C = .ok (.subcnt false false 0b1111 0x010) ∧
  decode 0xFCFC21F4 = .ok (.waitcnt false true 0b1111 0x010 (.imm 500))

/-! ## The step -/

/-- A step of a running cog: the long at the program counter, if no window stands against its fetch, is decoded; the program
counter advances by one (10_state.md R26); the instruction executes; then, unless it was a chip reset, any cog that is not idle
may be next (60_exceptions.md R320). Passing the turn changes the turn and the counter of free values only. The model's own:
the turn: log 13; the fetch windows: log 27, log 28. -/
def Obligations.StepRunsTheDecodedInstruction : Prop :=
  ∀ (s : State) (i : Instr), s.resetPending = false → s.cur.run = .running → s.cur.fetchHazard s.cur.pc = none →
    decode (s.cur.reg s.cur.pc) = .ok i →
    step s = andThen (exec i (s.modCur fun c => { c with pc := c.pc + 1 }))
      (fun t => .next (if t.resetPending then t else t.passTurn)) ∧
    (∀ t : State, t.passTurn = { t with turn := t.passTurn.turn, draws := t.passTurn.draws } ∧
      ((∃ k, (t.cogAt k).run ≠ .idle) → (t.cogAt t.passTurn.turn).run ≠ .idle))

/-- A long that matches no row is refused, whatever its condition (30_encoding.md R103), but for one that never executes: with
CCCC = 0000, no operand that may be indirect and an opcode that is not SETINDx's or FIXINDx's it is stepped over, with nothing
else changed. The meaningless forms of listed rows are refused. The model's own: which fields of a long without a row may name
an indirect operand: log 18; the meaningless forms: log 34, log 39. -/
def Obligations.StepOverOrRefuseUndecoded : Prop :=
  ∀ (s : State) (e : DecodeError), s.resetPending = false → s.cur.run = .running → s.cur.fetchHazard s.cur.pc = none →
    decode (s.cur.reg s.cur.pc) = .error e →
    let f := Fields.split (s.cur.reg s.cur.pc)
    let mayBeIndirect := namesInd f.d = true ∨ (f.i = false ∧ namesInd f.s = true)
    (e = .unlisted → f.cccc = 0b0000 → ¬ mayBeIndirect → f.op ≠ 0b111000 → f.op ≠ 0b111001 →
      ∃ t, step s = .next t.passTurn ∧ Delivers (s.modCur fun c => { c with pc := c.pc + 1 }) t {}) ∧
    (e = .unlisted → f.cccc ≠ 0b0000 ∨ mayBeIndirect ∨ f.op = 0b111000 ∨ f.op = 0b111001 →
      step s = .refused .unlistedEncoding) ∧
    (e = .noMeaning .fieldNamesInd → step s = .refused .fieldNamesInd) ∧
    (e = .noMeaning .passcntPostModifies → step s = .refused .passcntPostModifies)

/-- Fetches with no meaning: from $1F6..$1FF (10_state.md R26), of a register that one of the three preceding instructions
wrote (70_reset_and_hazards.md R341), of a mapped QUAD too soon after a fill (R339), from an overlay range too soon after
SETQUAD (R340); where both windows stand, the refusal is the fill's. The model's own: log 27, log 28. -/
def Obligations.FetchesWithNoMeaningAreRefused : Prop :=
  ∀ s : State, s.resetPending = false → s.cur.run = .running →
    let pc := s.cur.pc
    let fresh := s.cur.recent.last1 = some pc ∨ s.cur.recent.last2 = some pc ∨ s.cur.recent.last3 = some pc
    (0x1F6 ≤ pc.toNat → step s = .refused .fetchSpecial) ∧
    (pc.toNat < 0x1F6 → fresh → step s = .refused .fetchJustWritten) ∧
    (pc.toNat < 0x1F6 → ¬ fresh → s.cur.fill ≠ .settled → overlay s.cur.qbase pc ≠ none →
      step s = .refused .fetchQuadFilling) ∧
    (pc.toNat < 0x1F6 → ¬ fresh → (s.cur.fill = .settled ∨ overlay s.cur.qbase pc = none) → (∃ m ∈ s.cur.remaps, overlay m.base pc ≠ none) →
      step s = .refused .fetchQuadRemapped)

/-- If every cog is idle no agent can step (60_exceptions.md R324, U28 `stuck`); the model's fault says so. The model's own: a
fault of the model's own: log 36. -/
def Obligations.EveryCogIdleStops : Prop :=
  ∀ s : State, s.resetPending = false → (∀ k, (s.cogAt k).run = .idle) → step s = .fault .everyCogIdle

/-- After a chip reset the boot process starts the loads of BOOT and nothing else (70_reset_and_hazards.md R331). The model's
own: BOOT as a step: log 10; who is next: log 13. -/
def Obligations.BootStartsItsCogs : Prop :=
  ∀ s : State, s.resetPending = true → ∃ t, step s = .next t ∧ t.resetPending = false ∧ t.hub = s.hub ∧
    ∀ k, ((∀ e ∈ Config.boot, e.cog ≠ k) → t.cogAt k = s.cogAt k) ∧
      ((∃ e ∈ Config.boot, e.cog = k) → ∃ e ∈ Config.boot, e.cog = k ∧
        t.cogAt k = { s.cogAt k with
          run := .loading ⟨e.addr &&& 0x1FFFC, e.par, List.range 0x1F8⟩, due := s.hub.elapsed + 1016 })

/-- A start-up load that nobody disturbs copies $1F8 contiguous longs of hub memory to registers $000..$1F7, in whatever order,
and leaves the cog running from $000 with the start-up values (43_hub_control.md R184, 10_state.md R41). A step whose turn is a
loading cog's is one step of the loader. The model's own: the order of the copies: log 26; the parts left unspecified are free:
log 16; the turn: log 13. -/
def Obligations.LoaderCopiesTheImage : Prop :=
  (∀ (s : State) (l : Load), s.resetPending = false → s.cur.run = .loading l →
    step s = .next (s.loaderStep l).passTurn ∧ ∀ n, loadSteps (n + 1) s = loadSteps n (s.loaderStep l)) ∧
  ∀ (s : State) (addr par : HubAddr), s.cur.run = .loading ⟨addr, par, List.range 0x1F8⟩ → CellsSorted s.cur.ram →
    let t := loadSteps (0x1F8 + 1) s
    t.cur.run = .running ∧ t.cur.pc = 0 ∧ t.cur.ptra = par ∧ t.cur.ptrb = addr ∧ t.cur.cogsel = 0 ∧
    t.cur.quad = Vector.replicate 4 0 ∧ t.cur.qbase = 0x1FF ∧ t.cur.cacheValid = false ∧ t.cur.cntPhase = .none ∧ t.cur.passAt = none ∧
    t.cur.recent = ⟨none, none, none⟩ ∧ t.cur.fill = .settled ∧ t.cur.remaps = [] ∧
    (∀ a : RegAddr, a.toNat < 0x1F8 →
      t.cur.underlying a = memRead 32 s.hub.mem (addr + 4 * a.setWidth 17) .long) ∧
    t.cur.stack = s.cur.stack ∧ t.hub = s.hub ∧ (∀ k, k ≠ s.turn → t.cogAt k = s.cogAt k)

/-! ## Hub memory -/

/-- `MemRead(addr, n)` (20_memory.md R63). The model's own: byte order read from the table: log 3. -/
def Obligations.MemReadIsLittleEndian : Prop :=
  ∀ (m : HubMem) (addr : HubAddr) (w : Width) (i : Nat), i < w.bytes →
    let a := (addr &&& ~~~BitVec.ofNat 17 (w.bytes - 1)).toNat
    (memRead (8 * w.bytes) m addr w).extractLsb' (8 * i) 8 = hubByte m (a + i)

/-- `MemWrite(addr, n, v)` (20_memory.md R64); the access is wholly in ROM or wholly in RAM. The model's own: writes to ROM
dropped: log 6; the canonical form: log 8. -/
def Obligations.MemWriteStoresInRamOnly : Prop :=
  ∀ (m : HubMem) (addr : HubAddr) (w : Width) (v : BitVec (8 * w.bytes)), Memory.wf m →
    let a := (addr &&& ~~~BitVec.ofNat 17 (w.bytes - 1)).toNat
    (∀ b, hubByte (memWrite m addr w v) b =
      if 0xE80 ≤ b ∧ a ≤ b ∧ b < a + w.bytes then v.extractLsb' (8 * (b - a)) 8 else hubByte m b) ∧
    (a + w.bytes ≤ 0xE80 ∨ 0xE80 ≤ a) ∧ Memory.wf (memWrite m addr w v)

/-- The addressing table (20_memory.md R66): in a memory that holds its 32 bytes, every address of $00000..$0001F reads the
listed byte, word, long and quad. -/
def Obligations.AddressingTableReads : Prop :=
  ∀ m : HubMem,
    (List.range 32).map (hubByte m) =
      [0x50, 0x72, 0x6F, 0x70, 0x32, 0x2E, 0x30, 0x20, 0x00, 0x20, 0x7C, 0x0C, 0x03, 0xCC, 0x7C, 0x0C,
        0x45, 0xFE, 0xC1, 0x0D, 0xE3, 0xB6, 0xFC, 0x0C, 0x01, 0xC6, 0x7C, 0x0C, 0x01, 0xC6, 0x7C, 0x0D] →
    ∀ x ∈ ([(0x00000, 0x0C7CCC030C7C200020302E32706F7250), (0x00010, 0x0D7CC6010C7CC6010CFCB6E30DC1FE45)] :
        List (HubAddr × BitVec 128)), ∀ k : Fin 16,
      let a := x.1 + BitVec.ofNat 17 k
      memRead 8 m a .byte = x.2.extractLsb' (8 * k) 8 ∧ memRead 16 m a .word = x.2.extractLsb' (16 * (k / 2)) 16 ∧
      memRead 32 m a .long = x.2.extractLsb' (32 * (k / 4)) 32 ∧ memRead 128 m a .quad = x.2

/-- `PtrEA(f, scale)` (40_hub_memory.md R121): the address, the updated pointer, and nothing else changed. The model's own: U =
0 with P = 1: log 35. -/
def Obligations.PtrExpressionsFollowTheirBits : Prop :=
  ∀ (c : Cog) (f : BitVec 9) (w : Width),
    let ptr := if f.getLsbD 8 then c.ptrb else c.ptra
    let new := BitVec.ofInt 17 (ptr.toNat + (f.extractLsb' 0 6).toInt * w.bytes)
    c.ptrEA (.ofBits f) w = (if f.getLsbD 6 then ptr else new) ∧
    c.ptrUpdate (.ofBits f) w = { c with
      ptra := if f.getLsbD 7 = true ∧ f.getLsbD 8 = false then new else c.ptra
      ptrb := if f.getLsbD 7 = true ∧ f.getLsbD 8 = true then new else c.ptrb }

/-- `QuadFill(ea)` and `CacheHit(ea)` (40_hub_memory.md R131): quad[k] takes the long at offset 4k of the aligned quad, the
cache window is that quad, and nothing else changes, the registers under the QUADs included. The model's own: the order of the
QUADs: log 11. -/
def Obligations.QuadFillLoadsTheAlignedQuad : Prop :=
  ∀ (c : Cog) (m : HubMem) (ea : HubAddr),
    (∀ k : Fin 4, (c.quadFill m ea).quad[k] = memRead 32 m ((ea &&& 0x1FFF0) + BitVec.ofNat 17 (4 * k)) .long) ∧
    c.quadFill m ea =
      { c with quad := (c.quadFill m ea).quad, cacheValid := true, cacheTag := ea.extractLsb' 4 13 } ∧
    (∀ a : HubAddr, (c.quadFill m ea).cacheHit a = true ↔ a.extractLsb' 4 13 = ea.extractLsb' 4 13)

/-- WRBYTE, WRWORD, WRLONG store the low bytes of D to the aligned unit, in RAM, and change no other byte (40_hub_memory.md
R123 to R125). The model's own: writes to ROM dropped: log 6. -/
def Obligations.HubWritesStoreTheLowBytes : Prop :=
  ∀ (st : State) (cccc : BitVec 4) (d sf : RegAddr) (p : PtrExpr),
    ∀ x ∈ ([(.byte, .reg sf, .wrbyteS cccc d sf), (.byte, .ptr p, .wrbyteP cccc d p),
        (.word, .reg sf, .wrwordS cccc d sf), (.word, .ptr p, .wrwordP cccc d p),
        (.long, .reg sf, .wrlongS cccc d sf), (.long, .ptr p, .wrlongP cccc d p)] : List (Width × HubOperand × Instr)),
    let w := x.1
    let h := x.2.1
    let o := st.cur.operands cccc (some d) h.regField
    let s := st.issued cccc (some d) h.regField
    let ea := s.hubAddress h w o.s
    Executes st cccc (some d) h.regField → Readable s o.d → HubReadable s h o.s →
    ∃ t, exec x.2.2 st = .next t ∧
      Delivers ((s.hubUpdate h w).modHub fun b => { b with mem := t.hub.mem }) t {} ∧
      (Memory.wf st.hub.mem → ∀ a, hubByte t.hub.mem a =
        if romEnd ≤ a ∧ alignDown ea w ≤ a ∧ a < alignDown ea w + w.bytes
        then (s.cur.reg o.d).extractLsb' (8 * (a - alignDown ea w)) 8 else hubByte st.hub.mem a)

/-- RDBYTE, RDWORD, RDLONG put the aligned unit, zero-extended, into D, and with Z say whether it is zero (40_hub_memory.md
R126 to R128). The model's own: the zero extension: log 5; Z as a test for zero: log 4; that the letter Z asks for the flag:
log 2; the least clocks: log 37. -/
def Obligations.HubReadsDeliverTheUnit : Prop :=
  ∀ (st : State) (z : Bool) (cccc : BitVec 4) (d sf : RegAddr) (p : PtrExpr),
    ∀ x ∈ ([(.byte, .reg sf, .rdbyteS z cccc d sf), (.byte, .ptr p, .rdbyteP z cccc d p),
        (.word, .reg sf, .rdwordS z cccc d sf), (.word, .ptr p, .rdwordP z cccc d p),
        (.long, .reg sf, .rdlongS z cccc d sf), (.long, .ptr p, .rdlongP z cccc d p)] : List (Width × HubOperand × Instr)),
    let w := x.1
    let h := x.2.1
    let o := st.cur.operands cccc (some d) h.regField
    let s := st.issued cccc (some d) h.regField
    let v : Word := (memRead (8 * w.bytes) st.hub.mem (s.hubAddress h w o.s) w).setWidth 32
    Executes st cccc (some d) h.regField → HubReadable s h o.s → CellsSorted st.cur.ram →
    Answers (exec x.2.2 st) (s.hubUpdate h w) { write := some (o.d, v), zf := flagIf z (v == 0), clocks := 3 }

/-- A cached read inside the window delivers the unit of the QUADs, whatever hub memory holds (40_hub_memory.md R131 to R134,
20_memory.md R73). The model's own: the QUADs' order and the cache policy: log 11, log 12; Z as a test for zero: log 4; the
zero extension: log 5; that the letter Z asks for the flag: log 2. -/
def Obligations.CachedReadsHitTheQuads : Prop :=
  ∀ (st : State) (z : Bool) (cccc : BitVec 4) (d sf : RegAddr) (p : PtrExpr),
    ∀ x ∈ ([(.byte, .reg sf, .rdbytecS z cccc d sf), (.byte, .ptr p, .rdbytecP z cccc d p),
        (.word, .reg sf, .rdwordcS z cccc d sf), (.word, .ptr p, .rdwordcP z cccc d p),
        (.long, .reg sf, .rdlongcS z cccc d sf), (.long, .ptr p, .rdlongcP z cccc d p)] : List (Width × HubOperand × Instr)),
    let w := x.1
    let h := x.2.1
    let o := st.cur.operands cccc (some d) h.regField
    let s := st.issued cccc (some d) h.regField
    let ea := s.hubAddress h w o.s
    let q : BitVec 128 := st.cur.quad[3] ++ st.cur.quad[2] ++ st.cur.quad[1] ++ st.cur.quad[0]
    let v : Word := (q.extractLsb' (8 * (alignDown ea w % 16)) (8 * w.bytes)).setWidth 32
    Executes st cccc (some d) h.regField → HubReadable s h o.s → CellsSorted st.cur.ram →
    st.cur.cacheValid = true → st.cur.cacheTag = ea.extractLsb' 4 13 →
    Answers (exec x.2.2 st) (s.hubUpdate h w) { write := some (o.d, v), zf := flagIf z (v == 0) }

/-- A cached read outside the window fills the QUADs with the aligned quad and delivers the unit from hub memory; the fill
window opens (40_hub_memory.md R131 to R134, 70_reset_and_hazards.md R338). The model's own: the QUADs' order and the cache
policy: log 11, log 12; Z as a test for zero: log 4; the zero extension: log 5; the fill window: log 28; that the letter Z asks
for the flag: log 2; the least clocks: log 37. -/
def Obligations.CachedReadsMissAndFill : Prop :=
  ∀ (st : State) (z : Bool) (cccc : BitVec 4) (d sf : RegAddr) (p : PtrExpr),
    ∀ x ∈ ([(.byte, .reg sf, .rdbytecS z cccc d sf), (.byte, .ptr p, .rdbytecP z cccc d p),
        (.word, .reg sf, .rdwordcS z cccc d sf), (.word, .ptr p, .rdwordcP z cccc d p),
        (.long, .reg sf, .rdlongcS z cccc d sf), (.long, .ptr p, .rdlongcP z cccc d p)] : List (Width × HubOperand × Instr)),
    let w := x.1
    let h := x.2.1
    let o := st.cur.operands cccc (some d) h.regField
    let s := st.issued cccc (some d) h.regField
    let ea := s.hubAddress h w o.s
    let v : Word := (memRead (8 * w.bytes) st.hub.mem ea w).setWidth 32
    Executes st cccc (some d) h.regField → HubReadable s h o.s → CellsSorted st.cur.ram →
    (st.cur.cacheValid = true → st.cur.cacheTag ≠ ea.extractLsb' 4 13) →
    ∃ u, exec x.2.2 st = .next (u.modCur fun c => { c with fill := .filling 0 }) ∧
      Delivers ((s.hubUpdate h w).modCur (·.quadFill st.hub.mem ea)) u
        { write := some (o.d, v), zf := flagIf z (v == 0), clocks := 3 }

/-- WRQUAD stores the four QUADs to the aligned quad, quad[0] lowest, in RAM, and changes no other byte (40_hub_memory.md
R129). The model's own: the QUADs' order: log 11; writes to ROM dropped: log 6. -/
def Obligations.WrquadStoresTheQuads : Prop :=
  ∀ (st : State) (cccc : BitVec 4) (d : RegAddr) (p : PtrExpr),
    ∀ x ∈ ([(.reg d, .wrquadD cccc d), (.ptr p, .wrquadP cccc p)] : List (HubOperand × Instr)),
    let h := x.1
    let o := st.cur.operands cccc h.regField none
    let s := st.issued cccc h.regField none
    let ea := s.hubAddress h .quad o.d
    let q : BitVec 128 := st.cur.quad[3] ++ st.cur.quad[2] ++ st.cur.quad[1] ++ st.cur.quad[0]
    Executes st cccc h.regField none → HubReadable s h o.d →
    ∃ t, exec x.2 st = .next t ∧
      Delivers ((s.hubUpdate h .quad).modHub fun b => { b with mem := t.hub.mem }) t {} ∧
      (Memory.wf st.hub.mem → ∀ a, hubByte t.hub.mem a =
        if romEnd ≤ a ∧ alignDown ea .quad ≤ a ∧ a < alignDown ea .quad + 16
        then q.extractLsb' (8 * (a - alignDown ea .quad)) 8 else hubByte st.hub.mem a)

/-- RDQUAD, and RDQUADC outside the window, fill the QUADs from the aligned quad and write no register; the fill window opens
(40_hub_memory.md R130, R135; 70_reset_and_hazards.md R338). The model's own: the cache policy: log 12; the fill window: log
28. -/
def Obligations.QuadReadsFillTheQuads : Prop :=
  ∀ (st : State) (cccc : BitVec 4) (d : RegAddr) (p : PtrExpr),
    ∀ x ∈ ([(.reg d, false, .rdquadD cccc d), (.ptr p, false, .rdquadP cccc p),
        (.reg d, true, .rdquadcD cccc d), (.ptr p, true, .rdquadcP cccc p)] : List (HubOperand × Bool × Instr)),
    let h := x.1
    let o := st.cur.operands cccc h.regField none
    let s := st.issued cccc h.regField none
    let ea := s.hubAddress h .quad o.d
    Executes st cccc h.regField none → HubReadable s h o.d →
    (x.2.1 = true → st.cur.cacheValid = true → st.cur.cacheTag ≠ ea.extractLsb' 4 13) →
    ∃ u, exec x.2.2 st = .next (u.modCur fun c => { c with fill := .filling 0 }) ∧
      Delivers ((s.hubUpdate h .quad).modCur (·.quadFill st.hub.mem ea)) u {}

/-- RDQUADC inside the window changes nothing but a pointer it updates (40_hub_memory.md R135). The model's own: the cache
policy: log 12. -/
def Obligations.RdquadcHitsChangeNothing : Prop :=
  ∀ (st : State) (cccc : BitVec 4) (d : RegAddr) (p : PtrExpr),
    ∀ x ∈ ([(.reg d, .rdquadcD cccc d), (.ptr p, .rdquadcP cccc p)] : List (HubOperand × Instr)),
    let h := x.1
    let o := st.cur.operands cccc h.regField none
    let s := st.issued cccc h.regField none
    Executes st cccc h.regField none → HubReadable s h o.d →
    st.cur.cacheValid = true → st.cur.cacheTag = (s.hubAddress h .quad o.d).extractLsb' 4 13 →
    Answers (exec x.2 st) (s.hubUpdate h .quad) {}

/-! ## Operands, registers, conditions -/

/-- The QUAD overlay (10_state.md R24): a mapped register reads as its QUAD; a write via D goes to the QUAD and to the register
under it, and to nothing else; hidden QUADs keep their values. The model's own: the last-stored value: log 24; which QUAD lies
at which register: log 11. -/
def Obligations.OverlayReadsAndWrites : Prop :=
  ∀ (c : Cog) (a b : RegAddr) (v : Word), CellsSorted c.ram →
    (∀ k : Fin 4, c.qbase.toNat ≤ 0x1F2 → a.toNat = c.qbase.toNat + k → c.reg a = c.quad[k] ∧ (c.store a v).quad[k] = v) ∧
    (c.qbase = 0x1FF ∨ a.toNat < c.qbase.toNat ∨ c.qbase.toNat + 4 ≤ a.toNat →
      c.reg a = c.underlying a ∧ (c.store a v).quad = c.quad) ∧
    (c.store a v).underlying b = (if b = a then v else c.underlying b) ∧
    (c.store a v).reg b = (if b = a then v else c.reg b) ∧
    (c.store a v).lastStored = v

/-- Indirect operands (44_indirect.md R212 to R214): INDA and INDB designate the register pointed at, or, with `++` before, the
next one, wrapping at the top limit; any other field designates itself. Each pointer used moves once, wrapping within its
limits, by the mode of the side that names it or by the OR of both modes; nothing else of the cog changes. The model's own: ++
at the top limit and mixed modes: log 25. -/
def Obligations.IndirectOperandsResolveAndMove : Prop :=
  ∀ (c : Cog) (cccc : BitVec 4) (d s : Option RegAddr),
    let inc := fun p : IndReg => if p.ptr = p.top then p.bot else p.ptr + 1
    let dec := fun p : IndReg => if p.ptr = p.bot then p.top else p.ptr - 1
    let move := fun (m : BitVec 2) (p : IndReg) =>
      if m = 0b00 then p else ({ p with ptr := if m = 0b10 then dec p else inc p } : IndReg)
    let md : BitVec 2 := cccc.extractLsb' 2 2
    let ms : BitVec 2 := cccc.extractLsb' 0 2
    let c' := c.postModOperands cccc d s
    (∀ r ∈ ([(0x1F6, c.inda, c'.inda), (0x1F7, c.indb, c'.indb)] : List (RegAddr × IndReg × IndReg)),
      (d = some r.1 → (c.operands cccc d s).d = if md = 0b11 then inc r.2.1 else r.2.1.ptr) ∧
      (s = some r.1 → (c.operands cccc d s).s = if ms = 0b11 then inc r.2.1 else r.2.1.ptr) ∧
      (d ≠ some r.1 → s ≠ some r.1 → r.2.2 = r.2.1) ∧
      (d = some r.1 → s ≠ some r.1 → r.2.2 = move md r.2.1) ∧
      (d ≠ some r.1 → s = some r.1 → r.2.2 = move ms r.2.1) ∧
      (d = some r.1 → s = some r.1 → r.2.2 = move (md ||| ms) r.2.1)) ∧
    (∀ f, f ≠ 0x1F6 → f ≠ 0x1F7 →
      (d = some f → (c.operands cccc d s).d = f) ∧ (s = some f → (c.operands cccc d s).s = f)) ∧
    c' = { c with inda := c'.inda, indb := c'.indb } ∧
    (∀ m p, (move m p).bot = p.bot ∧ (move m p).top = p.top ∧ (IndOrdered p → IndOrdered (move m p)))

/-- The default condition table (30_encoding.md R97): the instruction executes iff bit `2*Cf + Zf` of CCCC is 1. The table is
the spec's default from general knowledge (log 1). -/
def Obligations.ConditionTableIsTheDefault : Prop :=
  ∀ cf zf : Bool,
    (List.range 16).map (fun k => cond (BitVec.ofNat 4 k) cf zf) =
      [false, !cf && !zf, !cf && zf, !cf, cf && !zf, !zf, cf != zf, !cf || !zf,
        cf && zf, cf == zf, zf, !cf || zf, cf, cf || !zf, cf || zf, true]

/-- A conditional instruction with no indirect operand whose condition fails changes nothing (30_encoding.md R97); this covers
every instruction but SETINDx and FIXINDx. The model's own: what the condition field means: log 1. -/
def Obligations.FailedConditionChangesNothing : Prop :=
  ∀ (i : Instr) (st : State) (cccc : BitVec 4) (d sf : Option RegAddr), i.issueFields = some (cccc, d, sf) →
    fieldInd d = false → fieldInd sf = false → cond cccc st.cur.cf st.cur.zf = false →
    Answers (exec i st) st {}

/-- An instruction that executes with an operand in $1F8..$1FF, or with an indirect operand resolved to $1F6..$1FF, is refused
(10_state.md R21, 44_indirect.md R212). The model's own: log 25, log 34. -/
def Obligations.OperandsWithNoMeaningAreRefused : Prop :=
  ∀ (i : Instr) (st : State) (cccc : BitVec 4) (d sf : Option RegAddr), i.issueFields = some (cccc, d, sf) →
    (fieldInd d || fieldInd sf || cond cccc st.cur.cf st.cur.zf) = true →
    (∀ f, d = some f → 0x1F8 ≤ f.toNat → exec i st = .refused .pinRegister) ∧
    (∀ f, d = some f → namesInd f = true → 0x1F6 ≤ (st.cur.target f (modeD cccc)).toNat →
      exec i st = .refused .indirectTarget) ∧
    ((∀ f, d = some f → st.cur.targetRefusal f (modeD cccc) = none) →
      (∀ f, sf = some f → 0x1F8 ≤ f.toNat → exec i st = .refused .pinRegister) ∧
      (∀ f, sf = some f → namesInd f = true → 0x1F6 ≤ (st.cur.target f (modeS cccc)).toNat →
        exec i st = .refused .indirectTarget))

/-- An instruction that reads a D or S operand in a mapped QUAD fewer than three clocks after a fill, or in an overlay range in
the two instructions after SETQUAD, is refused (70_reset_and_hazards.md R338, R340): of D, every instruction that reads it; of
S, every instruction with a register S, where D, if it is read too, is readable. The model's own: log 28. -/
def Obligations.ReadsInsideAWindowAreRefused : Prop :=
  ∀ (st : State) (cccc : BitVec 4) (d sf : RegAddr) (p : PtrExpr) (z c r : Bool) (src : Src),
    let refusedAt := fun (a : RegAddr) (i : Instr) =>
      (∀ n, st.cur.fill = .filling n → overlay st.cur.qbase a ≠ none → exec i st = .refused .readQuadFilling) ∧
      (st.cur.fill = .settled ∨ st.cur.fill = .readable ∨ overlay st.cur.qbase a = none →
        (∃ m ∈ st.cur.remaps, 2 ≤ m.left ∧ overlay m.base a ≠ none) → exec i st = .refused .readQuadRemapped)
    (∀ x ∈ ([(some sf, .wrbyteS cccc d sf), (none, .wrbyteP cccc d p), (some sf, .wrwordS cccc d sf), (none, .wrwordP cccc d p),
        (some sf, .wrlongS cccc d sf), (none, .wrlongP cccc d p), (none, .wrquadD cccc d), (none, .rdquadD cccc d),
        (none, .rdquadcD cccc d), (none, .setptraD cccc d), (none, .setptrbD cccc d), (none, .addptraD cccc d),
        (none, .addptrbD cccc d), (none, .subptraD cccc d), (none, .subptrbD cccc d), (none, .setquadD cccc d),
        (none, .setquazD cccc d), (some sf, .coginit z c r cccc d sf), (none, .clkset cccc d), (none, .cogstop cccc d),
        (none, .lockret cccc d), (none, .lockset c cccc d), (none, .lockclr c cccc d), (none, .subcnt z c cccc d),
        (none, .cmpcnt z c cccc d), (none, .passcnt cccc d), (srcField src, .waitcnt c r cccc d src),
        (srcField src, .waitpeq cccc d src), (srcField src, .waitpne cccc d src), (srcField src, .add cccc d src)] :
        List (Option RegAddr × Instr)),
      Executes st cccc (some d) x.1 → refusedAt (st.cur.operands cccc (some d) x.1).d x.2) ∧
    (∀ x ∈ ([(true, .wrbyteS cccc d sf), (true, .wrwordS cccc d sf), (true, .wrlongS cccc d sf),
        (false, .rdbyteS z cccc d sf), (false, .rdwordS z cccc d sf), (false, .rdlongS z cccc d sf),
        (false, .rdbytecS z cccc d sf), (false, .rdwordcS z cccc d sf), (false, .rdlongcS z cccc d sf),
        (true, .coginit z c r cccc d sf), (true, .waitcnt c r cccc d (.reg sf)), (true, .waitpeq cccc d (.reg sf)),
        (true, .waitpne cccc d (.reg sf)), (true, .add cccc d (.reg sf)), (false, .mov cccc d (.reg sf))] :
        List (Bool × Instr)),
      let o := st.cur.operands cccc (some d) (some sf)
      Executes st cccc (some d) (some sf) → (x.1 = true → Readable st o.d) → refusedAt o.s x.2)

/-- How long the windows last (70_reset_and_hazards.md R338 to R341): a fill window covers reads for three clocks and fetches
for three clocks and one instruction; a SETQUAD window three instructions; a written register three instructions. The model's
own: log 27, log 28. -/
def Obligations.WindowsCloseInTime : Prop :=
  ((Fill.filling 0).after 1).after 1 ≠ .readable ∧ (((Fill.filling 0).after 1).after 1).after 1 = .readable ∧
  (Fill.filling 0).after 3 = .readable ∧ Fill.readable.after 1 = .settled ∧ Fill.settled.after 1 = .settled ∧
  (∀ b, remapsAfter [⟨b, 3⟩] = [⟨b, 2⟩] ∧ remapsAfter [⟨b, 2⟩] = [⟨b, 1⟩] ∧ remapsAfter [⟨b, 1⟩] = []) ∧
  (∀ (r : Recent) (w x y z : Option RegAddr), (((r.after w).after x).after y) = ⟨y, x, w⟩ ∧
    ((((r.after w).after x).after y).after z) = ⟨z, y, x⟩)

/-! ## PTRA and PTRB -/

/-- GETPTRA, GETPTRB (41_ptr.md R150, R151): the pointer zero-extended into D if R, its bit 16 into C if C, whether it is zero
into Z if Z. The model's own: Z as a test for zero: log 4; that the letters R, C and Z ask for D, C and Z, and that the flags
are written with R = 0 too: log 2. -/
def Obligations.GetptrDeliversThePointer : Prop :=
  ∀ (st : State) (z c r : Bool) (cccc : BitVec 4) (d : RegAddr),
    ∀ x ∈ ([(st.cur.ptra, .getptra z c r cccc d), (st.cur.ptrb, .getptrb z c r cccc d)] : List (HubAddr × Instr)),
    let o := st.cur.operands cccc (some d) none
    let s := st.issued cccc (some d) none
    Executes st cccc (some d) none → CellsSorted st.cur.ram →
    Answers (exec x.2 st) s
      { write := if r then some (o.d, x.1.setWidth 32) else none
        cf := if c then some (x.1.getLsbD 16) else none
        zf := if z then some (x.1 == 0) else none }

/-- SETPTRx, ADDPTRx, SUBPTRx (41_ptr.md R152 to R157): their encodings; the pointer is set to, increased or decreased by the
low 17 bits of the operand, modulo 2^17, and nothing else changes. The model's own: that bits 31..17 of the operand are
dropped, and the arithmetic modulo 2^17: log 5. -/
def Obligations.PointerArithmetic : Prop :=
  ∀ (st : State) (cccc : BitVec 4) (d : RegAddr) (n : BitVec 9),
    ∀ x ∈ ([(.reg d, fun c v => { c with ptra := v }, 0b0000110001#10 ++ cccc ++ d ++ 0b010110010#9, .setptraD cccc d),
        (.imm n, fun c v => { c with ptra := v }, 0b0000110011#10 ++ cccc ++ n ++ 0b010110010#9, .setptraI cccc n),
        (.reg d, fun c v => { c with ptrb := v }, 0b0000110001#10 ++ cccc ++ d ++ 0b010110011#9, .setptrbD cccc d),
        (.imm n, fun c v => { c with ptrb := v }, 0b0000110011#10 ++ cccc ++ n ++ 0b010110011#9, .setptrbI cccc n),
        (.reg d, fun c v => { c with ptra := c.ptra + v }, 0b0000110001#10 ++ cccc ++ d ++ 0b010110100#9, .addptraD cccc d),
        (.imm n, fun c v => { c with ptra := c.ptra + v }, 0b0000110011#10 ++ cccc ++ n ++ 0b010110100#9, .addptraI cccc n),
        (.reg d, fun c v => { c with ptrb := c.ptrb + v }, 0b0000110001#10 ++ cccc ++ d ++ 0b010110101#9, .addptrbD cccc d),
        (.imm n, fun c v => { c with ptrb := c.ptrb + v }, 0b0000110011#10 ++ cccc ++ n ++ 0b010110101#9, .addptrbI cccc n),
        (.reg d, fun c v => { c with ptra := c.ptra - v }, 0b0000110001#10 ++ cccc ++ d ++ 0b010110110#9, .subptraD cccc d),
        (.imm n, fun c v => { c with ptra := c.ptra - v }, 0b0000110011#10 ++ cccc ++ n ++ 0b010110110#9, .subptraI cccc n),
        (.reg d, fun c v => { c with ptrb := c.ptrb - v }, 0b0000110001#10 ++ cccc ++ d ++ 0b010110111#9, .subptrbD cccc d),
        (.imm n, fun c v => { c with ptrb := c.ptrb - v }, 0b0000110011#10 ++ cccc ++ n ++ 0b010110111#9, .subptrbI cccc n)] :
        List (Src × (Cog → HubAddr → Cog) × Word × Instr)),
    let o := st.cur.operands cccc (srcField x.1) none
    let s := st.issued cccc (srcField x.1) none
    encode x.2.2.2 = x.2.2.1 ∧
    (Executes st cccc (srcField x.1) none → SrcReadable s x.1 o.d →
      Answers (exec x.2.2.2 st) (s.modCur fun c => x.2.1 c ((s.srcValue x.1 o.d).setWidth 17)) {})

/-! ## QUAD control -/

/-- CACHEX (42_quad.md R165): its encoding; it clears the cache's valid bit and changes nothing else, so that no cached read
hits after it; with a D field that is not zero the long is no instruction. -/
def Obligations.CachexInvalidates : Prop :=
  ∀ (st : State) (cccc : BitVec 4),
    encode (.cachex cccc) = 0b0000110001#10 ++ cccc ++ 0#9 ++ 0b000001000#9 ∧
    (∀ d : BitVec 9, d ≠ 0 → decode (0b0000110001#10 ++ cccc ++ d ++ 0b000001000#9) = .error .unlisted) ∧
    (cond cccc st.cur.cf st.cur.zf = true → ∃ t, exec (.cachex cccc) st = .next t ∧
      Delivers (st.modCur fun c => { c with cacheValid := false }) t {} ∧ ∀ ea, t.cur.cacheHit ea = false)

/-- GETTOPS delivers the top bytes of the QUADs, that of quad[k] at byte k, mapped or hidden (42_quad.md R166). The model's
own: their order: log 11; Z as a test for zero: log 4; that the letter Z asks for the flag: log 2. -/
def Obligations.GettopsDeliversTheTopBytes : Prop :=
  ∀ (st : State) (z : Bool) (cccc : BitVec 4) (d : RegAddr),
    let o := st.cur.operands cccc (some d) none
    let s := st.issued cccc (some d) none
    Executes st cccc (some d) none → CellsSorted st.cur.ram →
    ∃ v : Word, (∀ k : Fin 4, v.extractLsb' (8 * k) 8 = st.cur.quad[k].extractLsb' 24 8) ∧
      Answers (exec (.gettops z cccc d) st) s { write := some (o.d, v), zf := if z then some (v == 0) else none }

/-- SETQUAD and SETQUAZ move the QUAD base, and SETQUAZ clears the QUADs; the windows of the old and the new overlay range
open; a base in $1F3..$1FE is refused (42_quad.md R167, R168; 70_reset_and_hazards.md R340). The model's own: the refused
range: log 34; the windows: log 28; the upper bits ignored: log 5. -/
def Obligations.SetquadMovesTheBase : Prop :=
  ∀ (st : State) (cccc : BitVec 4) (d : RegAddr) (n : BitVec 9),
    ∀ x ∈ ([(.reg d, fun c => c, .setquadD cccc d), (.imm n, fun c => c, .setquadI cccc n),
        (.reg d, fun c => { c with quad := Vector.replicate 4 0 }, .setquazD cccc d),
        (.imm n, fun c => { c with quad := Vector.replicate 4 0 }, .setquazI cccc n)] : List (Src × (Cog → Cog) × Instr)),
    let o := st.cur.operands cccc (srcField x.1) none
    let s := st.issued cccc (srcField x.1) none
    let b : RegAddr := (s.srcValue x.1 o.d).setWidth 9
    Executes st cccc (srcField x.1) none → SrcReadable s x.1 o.d →
    (b.toNat < 0x1F3 ∨ b = 0x1FF → ∃ u, exec x.2.2 st = .next (u.modCur fun c =>
        { c with qbase := b, remaps := ⟨st.cur.qbase, 3⟩ :: ⟨b, 3⟩ :: remapsAfter st.cur.remaps }) ∧
      Delivers (s.modCur x.2.1) u {}) ∧
    (0x1F3 ≤ b.toNat → b.toNat ≤ 0x1FE → exec x.2.2 st = .refused .quadBase)

/-! ## Hub control -/

/-- COGINIT with an explicit target (43_hub_control.md R181): the target's load begins, wherever it was; if the target is
another cog the executing cog goes on, with any value in D, C and Z as far as R, C and Z ask for one; if it is the executing
cog, nothing else of the instruction remains. The model's own: the any-value results: log 15; address bits 1..0 dropped: log
26; the timing: log 30; that the letters R, C and Z ask for D, C and Z: log 2; the address bits used: log 5; the least clocks:
log 37. -/
def Obligations.CoginitStartsTheExplicitCog : Prop :=
  ∀ (st : State) (z c r : Bool) (cccc : BitVec 4) (d sf : RegAddr) (t : CogId),
    let o := st.cur.operands cccc (some d) (some sf)
    let s := st.issued cccc (some d) (some sf)
    let addr : HubAddr := (s.cur.reg o.d).setWidth 17 &&& 0x1FFFC
    let par : HubAddr := (s.cur.reg o.s).setWidth 17
    let started := s.modCog t fun k =>
      { k with run := .loading ⟨addr, par, List.range 0x1F8⟩, due := max s.hub.elapsed s.cur.due + 1016 }
    Executes st cccc (some d) (some sf) → Readable s o.d → Readable s o.s → CellsSorted st.cur.ram →
    st.cur.cogsel.getLsbD 3 = false → (st.cur.cogsel.extractLsb' 0 3).toNat = t.val →
    (t ≠ st.turn → ∃ (v : Word) (f g : Bool), Answers (exec (.coginit z c r cccc d sf) st) started
      { write := if r then some (o.d, v) else none
        cf := if c then some f else none
        zf := if z then some g else none
        clocks := if z || c || r then 2 else 1 }) ∧
    (t = st.turn → ∃ n, exec (.coginit z c r cccc d sf) st = .next { started with draws := n })

/-- COGINIT for "the next idle cog" (43_hub_control.md R181): some idle cog is started, its number goes to D and 0 to C; if no
cog is idle nothing is started, 1 goes to C, and any value to D; any value goes to Z. The model's own: the choice of the cog:
log 14; the any-value results: log 15; address bits 1..0 dropped: log 26; the timing: log 30; that the letters R, C and Z ask
for D, C and Z: log 2; the address bits used: log 5; the least clocks: log 37. -/
def Obligations.CoginitStartsAnIdleCog : Prop :=
  ∀ (st : State) (z c r : Bool) (cccc : BitVec 4) (d sf : RegAddr),
    let o := st.cur.operands cccc (some d) (some sf)
    let s := st.issued cccc (some d) (some sf)
    let addr : HubAddr := (s.cur.reg o.d).setWidth 17 &&& 0x1FFFC
    let par : HubAddr := (s.cur.reg o.s).setWidth 17
    Executes st cccc (some d) (some sf) → Readable s o.d → Readable s o.s → CellsSorted st.cur.ram →
    st.cur.cogsel.getLsbD 3 = true → st.cur.run = .running →
    ((∃ k, (st.cogAt k).run = .idle) → ∃ (t : CogId) (g : Bool), (st.cogAt t).run = .idle ∧
      Answers (exec (.coginit z c r cccc d sf) st)
        (s.modCog t fun k =>
          { k with run := .loading ⟨addr, par, List.range 0x1F8⟩, due := max s.hub.elapsed s.cur.due + 1016 })
        { write := if r then some (o.d, BitVec.ofNat 32 t.val) else none
          cf := if c then some false else none
          zf := if z then some g else none
          clocks := if z || c || r then 2 else 1 }) ∧
    ((∀ k, (st.cogAt k).run ≠ .idle) → ∃ (v : Word) (g : Bool),
      Answers (exec (.coginit z c r cccc d sf) st) s
        { write := if r then some (o.d, v) else none
          cf := if c then some true else none
          zf := if z then some g else none
          clocks := if z || c || r then 2 else 1 })

/-- CLKSET with R = 0 writes the low nine bits of D to the clock register, and nothing else (43_hub_control.md R187). The
model's own: the clock itself is not modelled: log 38. -/
def Obligations.ClksetWritesTheClockRegister : Prop :=
  ∀ (st : State) (cccc : BitVec 4) (d : RegAddr),
    let o := st.cur.operands cccc (some d) none
    let s := st.issued cccc (some d) none
    Executes st cccc (some d) none → Readable s o.d → (s.cur.reg o.d).getLsbD 8 = false →
    Answers (exec (.clkset cccc d) st) (s.modHub fun h => { h with clkreg := (s.cur.reg o.d).extractLsb' 0 9 }) {}

/-- CLKSET with R = 1 resets the chip (43_hub_control.md R187, 70_reset_and_hazards.md R331): every cog ceases, the clock
register is cleared, ROM keeps the ROM image, stack RAM is not initialised (45_stack.md R240), and the boot process is due. The
model's own: what a reset leaves: log 29; the boot process: log 10. -/
def Obligations.ClksetResetsTheChip : Prop :=
  ∀ (st : State) (cccc : BitVec 4) (d : RegAddr),
    let o := st.cur.operands cccc (some d) none
    let s := st.issued cccc (some d) none
    Executes st cccc (some d) none → Readable s o.d → (s.cur.reg o.d).getLsbD 8 = true →
    ∃ t, exec (.clkset cccc d) st = .next t ∧ t.resetPending = true ∧ t.hub.clkreg = 0 ∧ Memory.wf t.hub.mem ∧
      (∀ a, a < romEnd → hubByte t.hub.mem a = romByte a) ∧
      (∀ k, (t.cogAt k).run = .idle ∧ (t.cogAt k).stack = (st.cogAt k).stack)

/-- COGID delivers the executing cog's number (43_hub_control.md R188). The model's own: the least clocks: log 37. -/
def Obligations.CogidDeliversTheNumber : Prop :=
  ∀ (st : State) (cccc : BitVec 4) (d : RegAddr),
    let o := st.cur.operands cccc (some d) none
    let s := st.issued cccc (some d) none
    Executes st cccc (some d) none → CellsSorted st.cur.ram →
    Answers (exec (.cogid cccc d) st) s { write := some (o.d, BitVec.ofNat 32 st.turn.val), clocks := 2 }

/-- COGSTOP makes the cog of D's low three bits idle, the executing cog included, and changes nothing else (43_hub_control.md
R189). The model's own: the low three bits: log 5; the timing: log 30. -/
def Obligations.CogstopStopsTheCog : Prop :=
  ∀ (st : State) (cccc : BitVec 4) (d : RegAddr) (t : CogId),
    let o := st.cur.operands cccc (some d) none
    let s := st.issued cccc (some d) none
    Executes st cccc (some d) none → Readable s o.d → t.val = (s.cur.reg o.d).toNat % 8 →
    ∃ u, exec (.cogstop cccc d) st = .next (u.modCog t fun c => { c with run := .idle }) ∧ Delivers s u {}

/-- LOCKNEW (43_hub_control.md R192): some free lock is checked out, its number goes to D and 0 to C; if none is free 1 goes to
C and any value to D; any value goes to Z. The model's own: the choice of the lock: log 14; the any-value results: log 15; that
the letters C and Z ask for the flags: log 2; the least clocks: log 37. -/
def Obligations.LocknewChecksOutAFreeLock : Prop :=
  ∀ (st : State) (z c : Bool) (cccc : BitVec 4) (d : RegAddr),
    let o := st.cur.operands cccc (some d) none
    let s := st.issued cccc (some d) none
    Executes st cccc (some d) none → CellsSorted st.cur.ram →
    ((∃ k : LockId, st.hub.lockUsed[k] = false) → ∃ (n : LockId) (g : Bool), st.hub.lockUsed[n] = false ∧
      Answers (exec (.locknew z c cccc d) st) (s.modHub fun h => { h with lockUsed := h.lockUsed.set n true })
        { write := some (o.d, BitVec.ofNat 32 n.val)
          cf := if c then some false else none
          zf := if z then some g else none
          clocks := 2 }) ∧
    ((∀ k : LockId, st.hub.lockUsed[k] = true) → ∃ (v : Word) (g : Bool),
      Answers (exec (.locknew z c cccc d) st) s
        { write := some (o.d, v)
          cf := if c then some true else none
          zf := if z then some g else none
          clocks := 2 })

/-- LOCKSET and LOCKCLR set and clear the lock of D's low three bits and report its prior state in C if asked; LOCKRET makes it
free to be checked out (43_hub_control.md R193 to R195); none of them changes anything else. The model's own: the low three
bits: log 5; that the letter C asks for the flag: log 2; the least clocks: log 37. -/
def Obligations.LocksReportAndAreFreed : Prop :=
  ∀ (st : State) (c : Bool) (cccc : BitVec 4) (d : RegAddr) (n : LockId),
    let o := st.cur.operands cccc (some d) none
    let s := st.issued cccc (some d) none
    Executes st cccc (some d) none → Readable s o.d → n.val = (s.cur.reg o.d).toNat % 8 →
    (∀ x ∈ ([(true, .lockset c cccc d), (false, .lockclr c cccc d)] : List (Bool × Instr)),
      Answers (exec x.2 st) (s.modHub fun h => { h with locks := h.locks.set n x.1 })
        { cf := if c then some st.hub.locks[n] else none, clocks := if c then 2 else 1 }) ∧
    Answers (exec (.lockret cccc d) st) (s.modHub fun h => { h with lockUsed := h.lockUsed.set n false }) {}

/-! ## Indirect registers -/

/-- SETINDA, SETINDB, SETINDS (44_indirect.md R217, R220 to R222): their encodings, and their effect in every state: each
pointer named is set, or moved by a signed delta modulo 512, with limits $000 and $1FF, and lies within them; nothing else
changes. The model's own: the delta modulo 512: log 25. -/
def Obligations.SetindSetsOrMovesPointers : Prop :=
  ∀ (st : State) (a b : BitVec 9),
    let set := fun (v : BitVec 9) (_ : IndReg) => (⟨v, 0x000, 0x1FF⟩ : IndReg)
    let adjust := fun (v : BitVec 9) (p : IndReg) =>
      (⟨BitVec.ofInt 9 ((p.ptr.toNat + v.toInt) % 512), 0x000, 0x1FF⟩ : IndReg)
    let keep := fun p : IndReg => p
    (∀ p, IndOrdered (set a p) ∧ IndOrdered (adjust a p)) ∧
    ∀ x ∈ ([(set a, keep, 0b1110000000#10 ++ 0b0001#4 ++ 0#9 ++ a, .setindaSet a),
        (adjust a, keep, 0b1110000000#10 ++ 0b0011#4 ++ 0#9 ++ a, .setindaAdj a),
        (keep, set b, 0b1110000000#10 ++ 0b0100#4 ++ b ++ 0#9, .setindbSet b),
        (keep, adjust b, 0b1110000000#10 ++ 0b1100#4 ++ b ++ 0#9, .setindbAdj b),
        (set a, set b, 0b1110000000#10 ++ 0b0101#4 ++ b ++ a, .setindsSetSet b a),
        (adjust a, set b, 0b1110000000#10 ++ 0b0111#4 ++ b ++ a, .setindsSetAdj b a),
        (set a, adjust b, 0b1110000000#10 ++ 0b1101#4 ++ b ++ a, .setindsAdjSet b a),
        (adjust a, adjust b, 0b1110000000#10 ++ 0b1111#4 ++ b ++ a, .setindsAdjAdj b a)] :
        List ((IndReg → IndReg) × (IndReg → IndReg) × Word × Instr)),
    encode x.2.2.2 = x.2.2.1 ∧
    Answers (exec x.2.2.2 st) (st.modCur fun c => { c with inda := x.1 c.inda, indb := x.2.1 c.indb }) {}

/-- FIXINDA, FIXINDB, FIXINDS (44_indirect.md R217, R226 to R228), in every state: the pointer starts at initial, with limits
the lower and the higher of terminal and initial, so that from a terminal below initial a step up wraps at once to the bottom
and steps down walk to the terminal value; nothing else changes. Other selectors under their opcode are no instructions. -/
def Obligations.FixindSetsPointersAndLimits : Prop :=
  ∀ (st : State) (t i : BitVec 9),
    let fixed : IndReg := ⟨i, if i.toNat ≤ t.toNat then i else t, if i.toNat ≤ t.toNat then t else i⟩
    IndOrdered fixed ∧ (t.toNat < i.toNat → incInd fixed = t) ∧
    (∀ p : BitVec 9, t.toNat < p.toNat → p.toNat ≤ i.toNat →
      (decInd { fixed with ptr := p }).toNat = p.toNat - 1) ∧
    (∀ x ∈ ([(0b0001, (fun c : Cog => { c with inda := fixed }), .fixinda t i), (0b0100, fun c => { c with indb := fixed }, .fixindb t i),
        (0b0101, fun c => { c with inda := fixed, indb := fixed }, .fixinds t i)] : List (BitVec 4 × (Cog → Cog) × Instr)),
      encode x.2.2 = 0b1110010000#10 ++ x.1 ++ t ++ i ∧ Answers (exec x.2.2 st) (st.modCur x.2.1) {}) ∧
    (∀ k ∉ ([0b0001, 0b0100, 0b0101] : List (BitVec 4)), decode (0b1110010000#10 ++ k ++ t ++ i) = .error .unlisted)

/-! ## The system counter and the waits -/

/-- GETCNT (46_cnt_wait.md R255, R259): after another instruction it reads CNT, delivers the low half and latches the high
half; after a GETCNT that did so it delivers the latch. At least the clocks due have passed at the read
(70_reset_and_hazards.md R345 b). The model's own: the counter as draws: log 19; consecutive means: log 20. -/
def Obligations.GetcntDeliversTheHalves : Prop :=
  ∀ (st : State) (cccc : BitVec 4) (d : RegAddr),
    let o := st.cur.operands cccc (some d) none
    let s := st.issued cccc (some d) none
    Executes st cccc (some d) none → CellsSorted st.cur.ram →
    (st.cur.cntPhase ≠ .getcnt → ∃ (n : Nat) (u : State),
      let now := st.hub.cnt + BitVec.ofNat 64 n
      st.cur.due - st.hub.elapsed ≤ n ∧
      exec (.getcnt cccc d) st = .next (u.modCur fun c => { c with cntPhase := .getcnt }) ∧
      Delivers ((s.passClocks n).modCur fun c => { c with cnthLatch := now.extractLsb' 32 32 }) u
        { write := some (o.d, now.extractLsb' 0 32) }) ∧
    (st.cur.cntPhase = .getcnt → Answers (exec (.getcnt cccc d) st) s { write := some (o.d, st.cur.cnthLatch) })

/-- SUBCNT (46_cnt_wait.md R255, R256): D becomes the low half of CNT less D, the high half and the borrow are latched; or,
after a SUBCNT that did so, the latch less D less the borrow. Z says whether the result is zero; C takes any value. The model's
own: the counter as draws: log 19; consecutive means: log 20; Z as a test for zero: log 4; C: log 15; that the letters Z and C
ask for the flags, and that D is written: log 2. -/
def Obligations.SubcntSubtracts : Prop :=
  ∀ (st : State) (z c : Bool) (cccc : BitVec 4) (d : RegAddr),
    let o := st.cur.operands cccc (some d) none
    let s := st.issued cccc (some d) none
    let dv := s.cur.reg o.d
    Executes st cccc (some d) none → Readable s o.d → CellsSorted st.cur.ram →
    (st.cur.cntPhase ≠ .subcnt → ∃ (n : Nat) (g : Bool) (u : State),
      let now := st.hub.cnt + BitVec.ofNat 64 n
      let low : Word := now.extractLsb' 0 32
      st.cur.due - st.hub.elapsed ≤ n ∧
      exec (.subcnt z c cccc d) st = .next (u.modCur fun c => { c with cntPhase := .subcnt }) ∧
      Delivers ((s.passClocks n).modCur fun c =>
          { c with cnthLatch := now.extractLsb' 32 32, cntBorrow := decide (low.toNat < dv.toNat) }) u
        { write := some (o.d, low - dv), zf := if z then some (low - dv == 0) else none, cf := if c then some g else none }) ∧
    (st.cur.cntPhase = .subcnt → ∃ g : Bool,
      let r := st.cur.cnthLatch - dv - (if st.cur.cntBorrow then 1 else 0)
      Answers (exec (.subcnt z c cccc d) st) s
        { write := some (o.d, r), zf := if z then some (r == 0) else none, cf := if c then some g else none })

/-- CMPCNT (46_cnt_wait.md R255, R257) computes the same difference, writes no register, and says in C whether it is not
negative (the spec's default of cnt_passed) and in Z whether it is zero. The model's own: the counter as draws: log 19;
consecutive means: log 20; Z as a test for zero: log 4; that the letters Z and C ask for the flags, and that D is not written:
log 2; what passed means: log 21. -/
def Obligations.CmpcntCompares : Prop :=
  ∀ (st : State) (z c : Bool) (cccc : BitVec 4) (d : RegAddr),
    let o := st.cur.operands cccc (some d) none
    let s := st.issued cccc (some d) none
    let dv := s.cur.reg o.d
    Executes st cccc (some d) none → Readable s o.d →
    (st.cur.cntPhase ≠ .cmpcnt → ∃ (n : Nat) (u : State),
      let now := st.hub.cnt + BitVec.ofNat 64 n
      let low : Word := now.extractLsb' 0 32
      st.cur.due - st.hub.elapsed ≤ n ∧
      exec (.cmpcnt z c cccc d) st = .next (u.modCur fun c => { c with cntPhase := .cmpcnt }) ∧
      Delivers ((s.passClocks n).modCur fun c =>
          { c with cnthLatch := now.extractLsb' 32 32, cntBorrow := decide (low.toNat < dv.toNat) }) u
        { zf := if z then some (low - dv == 0) else none, cf := if c then some (!(low - dv).getLsbD 31) else none }) ∧
    (st.cur.cntPhase = .cmpcnt →
      let r := st.cur.cnthLatch - dv - (if st.cur.cntBorrow then 1 else 0)
      Answers (exec (.cmpcnt z c cccc d) st) s
        { zf := if z then some (r == 0) else none, cf := if c then some (!r.getLsbD 31) else none })

/-- PASSCNT (46_cnt_wait.md R258), one pass in every state: it reads CNT and goes on if its low half has passed D, or if the
moment at which its loop reaches the target has come; else the program counter steps back, and the moment is noted. And the
loop of a cog that runs alone and begins the PASSCNT always completes (U29): after some number of steps, each a pass, the
program counter is past the PASSCNT, CNTL has passed D, and no register, flag, special register or byte of memory has changed.
The model's own: what passed means: log 21; the loop and its noted moment: log 39; the counter as draws: log 19. -/
def Obligations.PasscntLoopsUntilPassed : Prop :=
  (∀ (st : State) (cccc : BitVec 4) (d : RegAddr),
    let o := st.cur.operands cccc (some d) none
    let s := st.issued cccc (some d) none
    let dv := s.cur.reg o.d
    Executes st cccc (some d) none → Readable s o.d →
    ∃ (n : Nat) (u : State),
      let low : Word := (st.hub.cnt + BitVec.ofNat 64 n).extractLsb' 0 32
      let now := st.hub.elapsed + n
      let moment := st.cur.passAt.getD (now + (dv - low).toNat)
      let goesOn := !(low - dv).getLsbD 31 || decide (moment ≤ now)
      st.cur.due - st.hub.elapsed ≤ n ∧
      (st.cur.passAt ≠ none → n < st.cur.due - st.hub.elapsed + 2 ^ 31) ∧
      exec (.passcnt cccc d) st =
        .next (if goesOn then u else u.modCur fun c => { c with passAt := some moment }) ∧
      Delivers (if goesOn then s.passClocks n else (s.passClocks n).modCur fun c => { c with pc := c.pc - 1 }) u {}) ∧
  (∀ (st : State) (cccc : BitVec 4) (d : RegAddr),
    let dv := st.cur.reg (st.cur.operands cccc (some d) none).d
    st.resetPending = false → st.cur.run = .running → (∀ k, k ≠ st.turn → (st.cogAt k).run = .idle) →
    st.cur.fetchHazard st.cur.pc = none → decode (st.cur.reg st.cur.pc) = .ok (.passcnt cccc d) →
    Executes st cccc (some d) none → Readable st (st.cur.operands cccc (some d) none).d → st.cur.passAt = none →
    ∃ (k : Nat) (t : State), k ≤ 2 ^ 31 + 1 ∧ steps k st = .next t ∧
      t.turn = st.turn ∧ t.cur.pc = st.cur.pc + 1 ∧ t.cur.passAt = none ∧
      ((t.hub.cnt.extractLsb' 0 32 : Word) - dv).getLsbD 31 = false ∧
      (∀ a, t.cur.reg a = st.cur.reg a) ∧ t.cur.cf = st.cur.cf ∧ t.cur.zf = st.cur.zf ∧
      SpecialsKept { st.cur with pc := st.cur.pc + 1 } t.cur ∧ t.hub.mem = st.hub.mem ∧
      (∀ j, j ≠ st.turn → t.cogAt j = st.cogAt j))

/-- WAITCNT (46_cnt_wait.md R260) completes, D += S if R. The wait begins with a read of the counter, when at least the clocks
due have passed (70_reset_and_hazards.md R345 b). The 32-bit wait ends within 2^32 clocks with the target passed, and exactly
at the target if it was ahead when the wait began; after the 64-bit wait C takes any value. The model's own: what passed means:
log 21; the end of the wait: log 22; C: log 15; that the letter R asks for D, and the immediate: log 2. -/
def Obligations.WaitcntEndsAtItsTarget : Prop :=
  ∀ (st : State) (wide r : Bool) (cccc : BitVec 4) (d : RegAddr) (src : Src),
    let o := st.cur.operands cccc (some d) (srcField src)
    let s := st.issued cccc (some d) (srcField src)
    let dv := s.cur.reg o.d
    let begins := st.clocksToDue + Config.clockDraw st.draws
    let cntlAfter := fun n : Nat => ((st.hub.cnt + BitVec.ofNat 64 n).extractLsb' 0 32 : Word)
    Executes st cccc (some d) (srcField src) → Readable s o.d → SrcReadable s src o.s → CellsSorted st.cur.ram →
    ∃ (ends : Nat) (g : Bool), st.cur.due - st.hub.elapsed ≤ begins ∧ begins ≤ ends ∧
      (wide = false → ends ≤ begins + 2 ^ 32 ∧ (cntlAfter ends - dv).getLsbD 31 = false ∧
        ((cntlAfter begins - dv).getLsbD 31 = true → cntlAfter ends = dv)) ∧
      Answers (exec (.waitcnt wide r cccc d src) st) (s.passClocks ends)
        { write := if r then some (o.d, dv + s.srcValue src o.s) else none, cf := if wide then some g else none }

/-- WAITPEQ and WAITPNE (46_cnt_wait.md R261 to R263) complete and write no register: either C = 0, and the sample of the pins
met the condition, or C = 1, and CNTL has passed the last-stored value: it is at that value if it was short of it when the
counter was read first. Z takes any value. The model's own: the pins and who comes first: log 23; the end of the wait: log 22;
the last-stored value: log 24; what passed means: log 21; Z: log 15; the immediate, and that D is not written: log 2. -/
def Obligations.PinWaitsEndOrTimeOut : Prop :=
  ∀ (st : State) (cccc : BitVec 4) (d : RegAddr) (src : Src),
    ∀ x ∈ ([(true, .waitpeq cccc d src), (false, .waitpne cccc d src)] : List (Bool × Instr)),
    let o := st.cur.operands cccc (some d) (srcField src)
    let s := st.issued cccc (some d) (srcField src)
    let begins := st.clocksToDue + Config.clockDraw (st.draws + 2)
    let cntlAfter := fun n : Nat => ((st.hub.cnt + BitVec.ofNat 64 n).extractLsb' 0 32 : Word)
    Executes st cccc (some d) (srcField src) → Readable s o.d → SrcReadable s src o.s →
    ∃ (ends : Nat) (timeout g : Bool), st.cur.due - st.hub.elapsed ≤ begins ∧ begins ≤ ends ∧
      (timeout = false → (Config.pinsIn st.draws &&& s.srcValue src o.s == s.cur.reg o.d) = x.1) ∧
      (timeout = true → ends ≤ begins + 2 ^ 32 ∧ (cntlAfter ends - st.cur.lastStored).getLsbD 31 = false ∧
        ((cntlAfter begins - st.cur.lastStored).getLsbD 31 = true → cntlAfter ends = st.cur.lastStored)) ∧
      Answers (exec x.2 st) (s.passClocks ends) { cf := some timeout, zf := some g }

/-! ## MOV and ADD -/

/-- MOV delivers S, ADD the sum modulo 2^32 of D and S (47_branches_misc.md R285, R286). The model's own: only ZCR = 001 is an
instruction: log 32; the immediate: log 2. -/
def Obligations.MovAndAddDeliver : Prop :=
  ∀ (st : State) (cccc : BitVec 4) (d : RegAddr) (src : Src),
    let o := st.cur.operands cccc (some d) (srcField src)
    let s := st.issued cccc (some d) (srcField src)
    Executes st cccc (some d) (srcField src) → SrcReadable s src o.s → CellsSorted st.cur.ram →
    Answers (exec (.mov cccc d src) st) s { write := some (o.d, s.srcValue src o.s) } ∧
    (Readable s o.d →
      Answers (exec (.add cccc d src) st) s { write := some (o.d, s.cur.reg o.d + s.srcValue src o.s) })
end

