-- ==== Sys2Proof/Laws/Memory.lean ====
section
/-! SUPPORT. Sparse cells and hub memory: what a read finds after a write, and that every operation keeps the canonical
form. -/

namespace Sys2Proof.Machine

/-! ## Sparse cells -/

section Cells

variable {w : Nat} {blank : BitVec w} {m : Cells w} {a b : Nat} {v : BitVec w}

theorem cellFind_eq_none (h : ∀ p ∈ m, p.1 ≠ a) : cellFind m a = none := by
  induction m with
  | nil => rfl
  | cons p rest ih =>
    obtain ⟨c, u⟩ := p
    have hc : a ≠ c := fun e => h (c, u) (by simp) e.symm
    simp only [cellFind, if_neg hc]
    exact ih fun p hp => h p (by simp [hp])

theorem mem_of_cellFind (h : cellFind m a = some v) : (a, v) ∈ m := by
  induction m with
  | nil => simp [cellFind] at h
  | cons p rest ih =>
    obtain ⟨c, u⟩ := p
    simp only [cellFind] at h
    split at h
    · simp_all
    · simp [ih h]

theorem mem_cellPut {p : Nat × BitVec w} (h : p ∈ cellPut blank m a v) : p ∈ m ∨ (p = (a, v) ∧ v ≠ blank) := by
  induction m with
  | nil =>
    simp only [cellPut] at h
    split at h <;> simp_all
  | cons q rest ih =>
    obtain ⟨c, u⟩ := q
    simp only [cellPut] at h
    split at h
    · split at h <;> simp_all
      tauto
    · split at h
      · split at h <;> simp_all
        tauto
      · rcases List.mem_cons.mp h with h | h
        · simp [h]
        · rcases ih h with h | h <;> simp [h]

theorem cellPut_sorted (h : CellsSorted m) : CellsSorted (cellPut blank m a v) := by
  induction m with
  | nil => simp only [cellPut]; split <;> simp
  | cons q rest ih =>
    obtain ⟨c, u⟩ := q
    have hr := List.pairwise_cons.mp h
    simp only [cellPut]
    split
    · next hlt =>
      split
      · exact h
      · refine List.pairwise_cons.mpr ⟨fun p hp => ?_, h⟩
        rcases List.mem_cons.mp hp with rfl | hp
        · exact hlt
        · exact Nat.lt_trans hlt (hr.1 p hp)
    · split
      · next heq =>
        split
        · exact hr.2
        · exact List.pairwise_cons.mpr ⟨fun p hp => heq ▸ hr.1 p hp, hr.2⟩
      · refine List.pairwise_cons.mpr ⟨fun p hp => ?_, ih hr.2⟩
        rcases mem_cellPut hp with hp | ⟨rfl, -⟩
        · exact hr.1 p hp
        · simp only; omega

/-- What a read finds after a write of sorted cells. -/
theorem cellFind_cellPut (h : CellsSorted m) :
    cellFind (cellPut blank m a v) b = if a = b then (if v = blank then none else some v) else cellFind m b := by
  induction m with
  | nil =>
    simp only [cellPut]
    split <;> simp_all [cellFind, eq_comm]
  | cons q rest ih =>
    obtain ⟨c, u⟩ := q
    have hr := List.pairwise_cons.mp h
    simp only [cellPut]
    split
    · next hlt =>
      split
      · split
        · next hab =>
          subst hab
          rw [cellFind_eq_none]
          intro p hp
          rcases List.mem_cons.mp hp with rfl | hp
          · simp only; omega
          · have := hr.1 p hp; simp only at this; omega
        · rfl
      · simp only [cellFind, eq_comm]
    · split
      · next heq =>
        subst heq
        split
        · split
          · next hab =>
            subst hab
            exact cellFind_eq_none fun p hp => by have := hr.1 p hp; simp only at this; omega
          · next hab => simp [cellFind, Ne.symm hab]
        · simp only [cellFind, eq_comm]; split <;> rfl
      · next hne =>
        simp only [cellFind]
        rw [ih hr.2]
        by_cases hbc : b = c
        · subst hbc; simp [Ne.symm (show b ≠ a by omega)]
        · simp [hbc]

theorem cellPut_wf {bound : Nat} {m : Cells w} (h : CellsWf bound m) (ha : a < bound) : CellsWf bound (cellPut 0 m a v) :=
  ⟨cellPut_sorted h.1, fun p hp => by
    rcases mem_cellPut hp with hp | ⟨rfl, hv⟩
    · exact h.2 p hp
    · exact ⟨ha, hv⟩⟩

end Cells

/-! ## Bytes of hub memory -/

section Hub

variable {m : HubMem} {a b : Nat} {v : Byte}

theorem unlistedByte_ram (h : romEnd ≤ a) : unlistedByte a = 0 := by simp [unlistedByte, Nat.not_lt.mpr h]

theorem hubByte_rom (h : Memory.wf m) (ha : a < romEnd) : hubByte m a = romByte a := by
  have : cellFind m a = none := cellFind_eq_none fun p hp e => by have := (h.2 p hp).1; omega
  simp [hubByte, this, unlistedByte, ha]

/-- Reading a byte after writing one (20_memory.md R64). -/
theorem hubByte_setHubByte (h : Memory.wf m) :
    hubByte (setHubByte m a v) b = if a = b ∧ romEnd ≤ a then v else hubByte m b := by
  unfold setHubByte
  split
  · next ha => simp [Nat.not_le.mpr ha]
  · next ha =>
    have ha' : romEnd ≤ a := Nat.not_lt.mp ha
    simp only [hubByte, cellFind_cellPut h.1, ha', and_true]
    by_cases hab : a = b
    · subst hab
      by_cases hv : v = unlistedByte a <;> simp [hv]
    · simp [hab]

theorem setHubByte_wf (h : Memory.wf m) (ha : a < hubBytes) : Memory.wf (setHubByte m a v) := by
  unfold setHubByte
  split
  · exact h
  · next hr =>
    refine ⟨cellPut_sorted h.1, fun p hp => ?_⟩
    rcases mem_cellPut hp with hp | ⟨rfl, hv⟩
    · exact h.2 p hp
    · exact ⟨Nat.not_lt.mp hr, ha, hv⟩

theorem writeBytes_wf (bs : List Byte) : ∀ {m : HubMem} {a : Nat}, Memory.wf m → a + bs.length ≤ hubBytes →
    Memory.wf (writeBytes m a bs) := by
  induction bs with
  | nil => intro m a h _; exact h
  | cons b bs ih =>
    intro m a h ha
    simp only [List.length_cons] at ha
    exact ih (setHubByte_wf h (by omega)) (by omega)

/-- Reading a byte after writing some (20_memory.md R64): a RAM byte among those written reads as written, any other as
before. -/
theorem hubByte_writeBytes (bs : List Byte) : ∀ {m : HubMem} {a : Nat}, Memory.wf m → a + bs.length ≤ hubBytes →
    hubByte (writeBytes m a bs) b =
      if romEnd ≤ b ∧ a ≤ b then (bs[b - a]?).getD (hubByte m b) else hubByte m b := by
  induction bs with
  | nil => intro m a _ _; simp [writeBytes]
  | cons x bs ih =>
    intro m a h ha
    simp only [List.length_cons] at ha
    have hs := ih (a := a + 1) (setHubByte_wf (v := x) h (show a < hubBytes by omega)) (by omega)
    simp only [writeBytes]
    rw [hs, hubByte_setHubByte h]
    rcases Nat.lt_trichotomy a b with hlt | heq | hgt
    · have h1 : b - a = (b - (a + 1)) + 1 := by omega
      have h2 : a ≠ b := by omega
      simp only [h1, List.getElem?_cons_succ, show (a + 1 ≤ b) = True by simp; omega, show (a ≤ b) = True by simp; omega,
        h2, false_and, if_false]
    · subst heq
      by_cases hr : romEnd ≤ a <;> simp [hr]
    · simp only [show ¬ (a + 1 ≤ b) by omega, show ¬ (a ≤ b) by omega, show a ≠ b by omega, and_false, false_and, if_false]

@[simp] theorem leBytes_length {k : Nat} (n : Nat) : ∀ v : BitVec k, (leBytes v n).length = n := by
  induction n with
  | zero => intro v; rfl
  | succ n ih => intro v; simp [leBytes, ih]

theorem alignDown_bound (x : HubAddr) (w : Width) : alignDown x w + w.bytes ≤ hubBytes := by
  have := x.isLt
  cases w <;> simp only [alignDown, Width.bytes, hubBytes] <;> omega

theorem alignDown_le (x : HubAddr) (w : Width) : alignDown x w ≤ x.toNat := Nat.sub_le _ _

/-- Every write keeps the canonical form. -/
theorem memWrite_wf {k : Nat} (h : Memory.wf m) (x : HubAddr) (w : Width) (v : BitVec k) : Memory.wf (memWrite m x w v) :=
  writeBytes_wf _ h (by simpa using alignDown_bound x w)

/-- What every byte reads as after `MemWrite` (20_memory.md R64). -/
theorem hubByte_memWrite {k : Nat} (h : Memory.wf m) (x : HubAddr) (w : Width) (v : BitVec k) :
    hubByte (memWrite m x w v) b =
      if romEnd ≤ b ∧ alignDown x w ≤ b then ((leBytes v w.bytes)[b - alignDown x w]?).getD (hubByte m b)
      else hubByte m b :=
  hubByte_writeBytes _ h (by simpa using alignDown_bound x w)

/-- The empty memory is in canonical form. -/
theorem wf_nil : Memory.wf [] := ⟨List.Pairwise.nil, by simp⟩

/-- The memory made of any cells is in canonical form. -/
theorem hubOfCells_wf (l : List Host.Cell) : Memory.wf (hubOfCells l) := by
  induction l with
  | nil => exact wf_nil
  | cons p rest ih => exact setHubByte_wf ih (Nat.mod_lt _ (by decide))

/-- The empty memory, right after reset, is in canonical form. -/
theorem reset_memory_wf : Memory.wf State.reset.hub.mem := wf_nil

end Hub

/-! ## The bytes of a value (20_memory.md R65) -/

theorem readBytes_getElem? (m : HubMem) (n : Nat) : ∀ a i, (readBytes m a n)[i]? =
    if i < n then some (hubByte m (a + i)) else none := by
  induction n with
  | zero => intro a i; simp [readBytes]
  | succ n ih =>
    intro a i
    cases i with
    | zero => simp [readBytes]
    | succ i => simp only [readBytes, List.getElem?_cons_succ, ih, Nat.add_lt_add_iff_right, Nat.add_assoc, Nat.add_comm 1]

theorem leBytes_getElem? {k : Nat} (n : Nat) : ∀ (v : BitVec k) i, (leBytes v n)[i]? =
    if i < n then some (v.extractLsb' (8 * i) 8) else none := by
  induction n with
  | zero => intro v i; simp [leBytes]
  | succ n ih =>
    intro v i
    cases i with
    | zero => simp only [leBytes]; simp; ext j hj; simp
    | succ i =>
      simp only [leBytes, List.getElem?_cons_succ, ih, Nat.add_lt_add_iff_right]
      congr 2
      ext j hj
      simp [Nat.mul_add, Nat.add_comm, Nat.add_left_comm]

/-- Every bit of the value of bytes. -/
theorem leValue_getLsbD (k : Nat) (bs : List Byte) : ∀ j,
    (leValue k bs).getLsbD j = (decide (j < k) && (bs[j / 8]?.getD 0).getLsbD (j % 8)) := by
  induction bs with
  | nil => intro j; simp [leValue]
  | cons b bs ih =>
    intro j
    simp only [leValue, BitVec.getLsbD_or, BitVec.getLsbD_shiftLeft, BitVec.getLsbD_setWidth, ih]
    by_cases h8 : j < 8
    · have : j / 8 = 0 := by omega
      simp [h8, this, Nat.mod_eq_of_lt h8]
    · obtain ⟨i, rfl⟩ : ∃ i, j = i + 8 := ⟨j - 8, by omega⟩
      have h1 : (i + 8) / 8 = i / 8 + 1 := by omega
      have h2 : (i + 8) % 8 = i % 8 := by omega
      simp only [h1, h2, Nat.add_sub_cancel, List.getElem?_cons_succ]
      by_cases hk : i + 8 < k <;> simp [hk]
      omega

/-- Every bit of `MemRead` (20_memory.md R63). -/
theorem memRead_getLsbD (k : Nat) (m : HubMem) (a : HubAddr) (w : Width) (j : Nat) :
    (memRead k m a w).getLsbD j =
      (decide (j < k ∧ j < 8 * w.bytes) && (hubByte m (alignDown a w + j / 8)).getLsbD (j % 8)) := by
  simp only [memRead, leValue_getLsbD, readBytes_getElem?]
  by_cases hj : j / 8 < w.bytes
  · have : j < 8 * w.bytes := by omega
    simp [hj, this]
  · have : ¬ j < 8 * w.bytes := by omega
    simp [hj, this]

/-- `MemRead` at any width is the unit, zero-extended or cut (20_memory.md R63, D7). -/
theorem memRead_eq_setWidth (k : Nat) (m : HubMem) (a : HubAddr) (w : Width) :
    memRead k m a w = (memRead (8 * w.bytes) m a w).setWidth k := by
  apply BitVec.eq_of_getLsbD_eq
  intro j hj
  simp only [memRead_getLsbD, BitVec.getLsbD_setWidth, hj, decide_true, true_and, and_self, Bool.true_and]

/-- The low address bits cleared (20_memory.md R63, R64). -/
theorem alignDown_eq_mask (a : HubAddr) (w : Width) : alignDown a w = (a &&& ~~~BitVec.ofNat 17 (w.bytes - 1)).toNat := by
  have h : ∀ k : Fin 5, a &&& ~~~BitVec.ofNat 17 (2 ^ k.val - 1) = (a >>> k.val) <<< k.val := by
    intro k
    apply BitVec.eq_of_getLsbD_eq
    intro i hi
    simp only [BitVec.getLsbD_and, BitVec.getLsbD_not, BitVec.getLsbD_ofNat, Nat.testBit_two_pow_sub_one,
      BitVec.getLsbD_shiftLeft, BitVec.getLsbD_ushiftRight, hi, decide_true, Bool.true_and]
    by_cases hk : i < k.val
    · simp [hk]
    · simp [hk, Nat.add_sub_cancel' (Nat.not_lt.mp hk)]
  have ha := a.isLt
  cases w
  · have := congrArg BitVec.toNat (h 0); simp [alignDown, Width.bytes] at *; omega
  · have := congrArg BitVec.toNat (h 1); simp [alignDown, Width.bytes, Nat.shiftRight_eq_div_pow, Nat.shiftLeft_eq] at *; omega
  · have := congrArg BitVec.toNat (h 2); simp [alignDown, Width.bytes, Nat.shiftRight_eq_div_pow, Nat.shiftLeft_eq] at *; omega
  · have := congrArg BitVec.toNat (h 4); simp [alignDown, Width.bytes, Nat.shiftRight_eq_div_pow, Nat.shiftLeft_eq] at *; omega

/-- What every byte reads as after `MemWrite`, as a field of the value (20_memory.md R64). -/
theorem hubByte_memWrite_field {k : Nat} {m : HubMem} (h : Memory.wf m) (x : HubAddr) (w : Width) (v : BitVec k) (b : Nat) :
    hubByte (memWrite m x w v) b =
      if romEnd ≤ b ∧ alignDown x w ≤ b ∧ b < alignDown x w + w.bytes then v.extractLsb' (8 * (b - alignDown x w)) 8
      else hubByte m b := by
  rw [hubByte_memWrite h]
  simp only [leBytes_getElem?]
  by_cases h1 : romEnd ≤ b <;> by_cases h2 : alignDown x w ≤ b <;> simp [h1, h2]
  by_cases h3 : b < alignDown x w + w.bytes
  · have : b - alignDown x w < w.bytes := by omega
    simp [h3, this]
  · have : ¬ b - alignDown x w < w.bytes := by omega
    simp [h3, this]

end Sys2Proof.Machine
end

