-- ==== Sys2Proof/Laws/State.lean ====
section
/-! SUPPORT. One lemma per field per update of a cog or of the state, so that no proof unfolds a record update. -/

namespace Sys2Proof.Machine

variable (c : Cog) (s : State)

/-! ## What `Cog.setUnderlying` keeps -/

@[simp] theorem Cog.setUnderlying_quad (a : RegAddr) (v : Word) : (c.setUnderlying a v).quad = c.quad := rfl
@[simp] theorem Cog.setUnderlying_qbase (a : RegAddr) (v : Word) : (c.setUnderlying a v).qbase = c.qbase := rfl
@[simp] theorem Cog.setUnderlying_cacheValid (a : RegAddr) (v : Word) : (c.setUnderlying a v).cacheValid = c.cacheValid := rfl
@[simp] theorem Cog.setUnderlying_cacheTag (a : RegAddr) (v : Word) : (c.setUnderlying a v).cacheTag = c.cacheTag := rfl
@[simp] theorem Cog.setUnderlying_pc (a : RegAddr) (v : Word) : (c.setUnderlying a v).pc = c.pc := rfl
@[simp] theorem Cog.setUnderlying_cf (a : RegAddr) (v : Word) : (c.setUnderlying a v).cf = c.cf := rfl
@[simp] theorem Cog.setUnderlying_zf (a : RegAddr) (v : Word) : (c.setUnderlying a v).zf = c.zf := rfl
@[simp] theorem Cog.setUnderlying_ptra (a : RegAddr) (v : Word) : (c.setUnderlying a v).ptra = c.ptra := rfl
@[simp] theorem Cog.setUnderlying_ptrb (a : RegAddr) (v : Word) : (c.setUnderlying a v).ptrb = c.ptrb := rfl
@[simp] theorem Cog.setUnderlying_inda (a : RegAddr) (v : Word) : (c.setUnderlying a v).inda = c.inda := rfl
@[simp] theorem Cog.setUnderlying_indb (a : RegAddr) (v : Word) : (c.setUnderlying a v).indb = c.indb := rfl
@[simp] theorem Cog.setUnderlying_stack (a : RegAddr) (v : Word) : (c.setUnderlying a v).stack = c.stack := rfl
@[simp] theorem Cog.setUnderlying_spa (a : RegAddr) (v : Word) : (c.setUnderlying a v).spa = c.spa := rfl
@[simp] theorem Cog.setUnderlying_spb (a : RegAddr) (v : Word) : (c.setUnderlying a v).spb = c.spb := rfl
@[simp] theorem Cog.setUnderlying_cogsel (a : RegAddr) (v : Word) : (c.setUnderlying a v).cogsel = c.cogsel := rfl
@[simp] theorem Cog.setUnderlying_run (a : RegAddr) (v : Word) : (c.setUnderlying a v).run = c.run := rfl
@[simp] theorem Cog.setUnderlying_lastStored (a : RegAddr) (v : Word) : (c.setUnderlying a v).lastStored = c.lastStored := rfl
@[simp] theorem Cog.setUnderlying_cntPhase (a : RegAddr) (v : Word) : (c.setUnderlying a v).cntPhase = c.cntPhase := rfl
@[simp] theorem Cog.setUnderlying_cnthLatch (a : RegAddr) (v : Word) : (c.setUnderlying a v).cnthLatch = c.cnthLatch := rfl
@[simp] theorem Cog.setUnderlying_cntBorrow (a : RegAddr) (v : Word) : (c.setUnderlying a v).cntBorrow = c.cntBorrow := rfl
@[simp] theorem Cog.setUnderlying_recent (a : RegAddr) (v : Word) : (c.setUnderlying a v).recent = c.recent := rfl
@[simp] theorem Cog.setUnderlying_fill (a : RegAddr) (v : Word) : (c.setUnderlying a v).fill = c.fill := rfl
@[simp] theorem Cog.setUnderlying_remaps (a : RegAddr) (v : Word) : (c.setUnderlying a v).remaps = c.remaps := rfl
@[simp] theorem Cog.setUnderlying_passAt (a : RegAddr) (v : Word) : (c.setUnderlying a v).passAt = c.passAt := rfl
@[simp] theorem Cog.setUnderlying_due (a : RegAddr) (v : Word) : (c.setUnderlying a v).due = c.due := rfl

/-! ## What `Cog.store` keeps -/

@[simp] theorem Cog.store_qbase (a : RegAddr) (v : Word) : (c.store a v).qbase = c.qbase := rfl
@[simp] theorem Cog.store_cacheValid (a : RegAddr) (v : Word) : (c.store a v).cacheValid = c.cacheValid := rfl
@[simp] theorem Cog.store_cacheTag (a : RegAddr) (v : Word) : (c.store a v).cacheTag = c.cacheTag := rfl
@[simp] theorem Cog.store_pc (a : RegAddr) (v : Word) : (c.store a v).pc = c.pc := rfl
@[simp] theorem Cog.store_cf (a : RegAddr) (v : Word) : (c.store a v).cf = c.cf := rfl
@[simp] theorem Cog.store_zf (a : RegAddr) (v : Word) : (c.store a v).zf = c.zf := rfl
@[simp] theorem Cog.store_ptra (a : RegAddr) (v : Word) : (c.store a v).ptra = c.ptra := rfl
@[simp] theorem Cog.store_ptrb (a : RegAddr) (v : Word) : (c.store a v).ptrb = c.ptrb := rfl
@[simp] theorem Cog.store_inda (a : RegAddr) (v : Word) : (c.store a v).inda = c.inda := rfl
@[simp] theorem Cog.store_indb (a : RegAddr) (v : Word) : (c.store a v).indb = c.indb := rfl
@[simp] theorem Cog.store_stack (a : RegAddr) (v : Word) : (c.store a v).stack = c.stack := rfl
@[simp] theorem Cog.store_spa (a : RegAddr) (v : Word) : (c.store a v).spa = c.spa := rfl
@[simp] theorem Cog.store_spb (a : RegAddr) (v : Word) : (c.store a v).spb = c.spb := rfl
@[simp] theorem Cog.store_cogsel (a : RegAddr) (v : Word) : (c.store a v).cogsel = c.cogsel := rfl
@[simp] theorem Cog.store_run (a : RegAddr) (v : Word) : (c.store a v).run = c.run := rfl
@[simp] theorem Cog.store_cntPhase (a : RegAddr) (v : Word) : (c.store a v).cntPhase = c.cntPhase := rfl
@[simp] theorem Cog.store_cnthLatch (a : RegAddr) (v : Word) : (c.store a v).cnthLatch = c.cnthLatch := rfl
@[simp] theorem Cog.store_cntBorrow (a : RegAddr) (v : Word) : (c.store a v).cntBorrow = c.cntBorrow := rfl
@[simp] theorem Cog.store_recent (a : RegAddr) (v : Word) : (c.store a v).recent = c.recent := rfl
@[simp] theorem Cog.store_fill (a : RegAddr) (v : Word) : (c.store a v).fill = c.fill := rfl
@[simp] theorem Cog.store_remaps (a : RegAddr) (v : Word) : (c.store a v).remaps = c.remaps := rfl
@[simp] theorem Cog.store_passAt (a : RegAddr) (v : Word) : (c.store a v).passAt = c.passAt := rfl
@[simp] theorem Cog.store_due (a : RegAddr) (v : Word) : (c.store a v).due = c.due := rfl

/-! ## What `Cog.writeD` keeps -/

@[simp] theorem Cog.writeD_qbase (w : Option (RegAddr × Word)) : (c.writeD w).qbase = c.qbase := by cases w <;> rfl
@[simp] theorem Cog.writeD_cacheValid (w : Option (RegAddr × Word)) : (c.writeD w).cacheValid = c.cacheValid := by cases w <;> rfl
@[simp] theorem Cog.writeD_cacheTag (w : Option (RegAddr × Word)) : (c.writeD w).cacheTag = c.cacheTag := by cases w <;> rfl
@[simp] theorem Cog.writeD_pc (w : Option (RegAddr × Word)) : (c.writeD w).pc = c.pc := by cases w <;> rfl
@[simp] theorem Cog.writeD_cf (w : Option (RegAddr × Word)) : (c.writeD w).cf = c.cf := by cases w <;> rfl
@[simp] theorem Cog.writeD_zf (w : Option (RegAddr × Word)) : (c.writeD w).zf = c.zf := by cases w <;> rfl
@[simp] theorem Cog.writeD_ptra (w : Option (RegAddr × Word)) : (c.writeD w).ptra = c.ptra := by cases w <;> rfl
@[simp] theorem Cog.writeD_ptrb (w : Option (RegAddr × Word)) : (c.writeD w).ptrb = c.ptrb := by cases w <;> rfl
@[simp] theorem Cog.writeD_inda (w : Option (RegAddr × Word)) : (c.writeD w).inda = c.inda := by cases w <;> rfl
@[simp] theorem Cog.writeD_indb (w : Option (RegAddr × Word)) : (c.writeD w).indb = c.indb := by cases w <;> rfl
@[simp] theorem Cog.writeD_stack (w : Option (RegAddr × Word)) : (c.writeD w).stack = c.stack := by cases w <;> rfl
@[simp] theorem Cog.writeD_spa (w : Option (RegAddr × Word)) : (c.writeD w).spa = c.spa := by cases w <;> rfl
@[simp] theorem Cog.writeD_spb (w : Option (RegAddr × Word)) : (c.writeD w).spb = c.spb := by cases w <;> rfl
@[simp] theorem Cog.writeD_cogsel (w : Option (RegAddr × Word)) : (c.writeD w).cogsel = c.cogsel := by cases w <;> rfl
@[simp] theorem Cog.writeD_run (w : Option (RegAddr × Word)) : (c.writeD w).run = c.run := by cases w <;> rfl
@[simp] theorem Cog.writeD_cntPhase (w : Option (RegAddr × Word)) : (c.writeD w).cntPhase = c.cntPhase := by cases w <;> rfl
@[simp] theorem Cog.writeD_cnthLatch (w : Option (RegAddr × Word)) : (c.writeD w).cnthLatch = c.cnthLatch := by cases w <;> rfl
@[simp] theorem Cog.writeD_cntBorrow (w : Option (RegAddr × Word)) : (c.writeD w).cntBorrow = c.cntBorrow := by cases w <;> rfl
@[simp] theorem Cog.writeD_recent (w : Option (RegAddr × Word)) : (c.writeD w).recent = c.recent := by cases w <;> rfl
@[simp] theorem Cog.writeD_fill (w : Option (RegAddr × Word)) : (c.writeD w).fill = c.fill := by cases w <;> rfl
@[simp] theorem Cog.writeD_remaps (w : Option (RegAddr × Word)) : (c.writeD w).remaps = c.remaps := by cases w <;> rfl
@[simp] theorem Cog.writeD_passAt (w : Option (RegAddr × Word)) : (c.writeD w).passAt = c.passAt := by cases w <;> rfl
@[simp] theorem Cog.writeD_due (w : Option (RegAddr × Word)) : (c.writeD w).due = c.due := by cases w <;> rfl

/-! ## What `Cog.setFlags` keeps -/

@[simp] theorem Cog.setFlags_ram (f g : Option Bool) : (c.setFlags f g).ram = c.ram := rfl
@[simp] theorem Cog.setFlags_pinRegs (f g : Option Bool) : (c.setFlags f g).pinRegs = c.pinRegs := rfl
@[simp] theorem Cog.setFlags_quad (f g : Option Bool) : (c.setFlags f g).quad = c.quad := rfl
@[simp] theorem Cog.setFlags_qbase (f g : Option Bool) : (c.setFlags f g).qbase = c.qbase := rfl
@[simp] theorem Cog.setFlags_cacheValid (f g : Option Bool) : (c.setFlags f g).cacheValid = c.cacheValid := rfl
@[simp] theorem Cog.setFlags_cacheTag (f g : Option Bool) : (c.setFlags f g).cacheTag = c.cacheTag := rfl
@[simp] theorem Cog.setFlags_pc (f g : Option Bool) : (c.setFlags f g).pc = c.pc := rfl
@[simp] theorem Cog.setFlags_ptra (f g : Option Bool) : (c.setFlags f g).ptra = c.ptra := rfl
@[simp] theorem Cog.setFlags_ptrb (f g : Option Bool) : (c.setFlags f g).ptrb = c.ptrb := rfl
@[simp] theorem Cog.setFlags_inda (f g : Option Bool) : (c.setFlags f g).inda = c.inda := rfl
@[simp] theorem Cog.setFlags_indb (f g : Option Bool) : (c.setFlags f g).indb = c.indb := rfl
@[simp] theorem Cog.setFlags_stack (f g : Option Bool) : (c.setFlags f g).stack = c.stack := rfl
@[simp] theorem Cog.setFlags_spa (f g : Option Bool) : (c.setFlags f g).spa = c.spa := rfl
@[simp] theorem Cog.setFlags_spb (f g : Option Bool) : (c.setFlags f g).spb = c.spb := rfl
@[simp] theorem Cog.setFlags_cogsel (f g : Option Bool) : (c.setFlags f g).cogsel = c.cogsel := rfl
@[simp] theorem Cog.setFlags_run (f g : Option Bool) : (c.setFlags f g).run = c.run := rfl
@[simp] theorem Cog.setFlags_lastStored (f g : Option Bool) : (c.setFlags f g).lastStored = c.lastStored := rfl
@[simp] theorem Cog.setFlags_cntPhase (f g : Option Bool) : (c.setFlags f g).cntPhase = c.cntPhase := rfl
@[simp] theorem Cog.setFlags_cnthLatch (f g : Option Bool) : (c.setFlags f g).cnthLatch = c.cnthLatch := rfl
@[simp] theorem Cog.setFlags_cntBorrow (f g : Option Bool) : (c.setFlags f g).cntBorrow = c.cntBorrow := rfl
@[simp] theorem Cog.setFlags_recent (f g : Option Bool) : (c.setFlags f g).recent = c.recent := rfl
@[simp] theorem Cog.setFlags_fill (f g : Option Bool) : (c.setFlags f g).fill = c.fill := rfl
@[simp] theorem Cog.setFlags_remaps (f g : Option Bool) : (c.setFlags f g).remaps = c.remaps := rfl
@[simp] theorem Cog.setFlags_passAt (f g : Option Bool) : (c.setFlags f g).passAt = c.passAt := rfl
@[simp] theorem Cog.setFlags_due (f g : Option Bool) : (c.setFlags f g).due = c.due := rfl

/-! ## What `Cog.retire` keeps -/

@[simp] theorem Cog.retire_ram (n : Nat) (w : Option RegAddr) : (c.retire n w).ram = c.ram := rfl
@[simp] theorem Cog.retire_pinRegs (n : Nat) (w : Option RegAddr) : (c.retire n w).pinRegs = c.pinRegs := rfl
@[simp] theorem Cog.retire_quad (n : Nat) (w : Option RegAddr) : (c.retire n w).quad = c.quad := rfl
@[simp] theorem Cog.retire_qbase (n : Nat) (w : Option RegAddr) : (c.retire n w).qbase = c.qbase := rfl
@[simp] theorem Cog.retire_cacheValid (n : Nat) (w : Option RegAddr) : (c.retire n w).cacheValid = c.cacheValid := rfl
@[simp] theorem Cog.retire_cacheTag (n : Nat) (w : Option RegAddr) : (c.retire n w).cacheTag = c.cacheTag := rfl
@[simp] theorem Cog.retire_pc (n : Nat) (w : Option RegAddr) : (c.retire n w).pc = c.pc := rfl
@[simp] theorem Cog.retire_cf (n : Nat) (w : Option RegAddr) : (c.retire n w).cf = c.cf := rfl
@[simp] theorem Cog.retire_zf (n : Nat) (w : Option RegAddr) : (c.retire n w).zf = c.zf := rfl
@[simp] theorem Cog.retire_ptra (n : Nat) (w : Option RegAddr) : (c.retire n w).ptra = c.ptra := rfl
@[simp] theorem Cog.retire_ptrb (n : Nat) (w : Option RegAddr) : (c.retire n w).ptrb = c.ptrb := rfl
@[simp] theorem Cog.retire_inda (n : Nat) (w : Option RegAddr) : (c.retire n w).inda = c.inda := rfl
@[simp] theorem Cog.retire_indb (n : Nat) (w : Option RegAddr) : (c.retire n w).indb = c.indb := rfl
@[simp] theorem Cog.retire_stack (n : Nat) (w : Option RegAddr) : (c.retire n w).stack = c.stack := rfl
@[simp] theorem Cog.retire_spa (n : Nat) (w : Option RegAddr) : (c.retire n w).spa = c.spa := rfl
@[simp] theorem Cog.retire_spb (n : Nat) (w : Option RegAddr) : (c.retire n w).spb = c.spb := rfl
@[simp] theorem Cog.retire_cogsel (n : Nat) (w : Option RegAddr) : (c.retire n w).cogsel = c.cogsel := rfl
@[simp] theorem Cog.retire_run (n : Nat) (w : Option RegAddr) : (c.retire n w).run = c.run := rfl
@[simp] theorem Cog.retire_lastStored (n : Nat) (w : Option RegAddr) : (c.retire n w).lastStored = c.lastStored := rfl
@[simp] theorem Cog.retire_cnthLatch (n : Nat) (w : Option RegAddr) : (c.retire n w).cnthLatch = c.cnthLatch := rfl
@[simp] theorem Cog.retire_cntBorrow (n : Nat) (w : Option RegAddr) : (c.retire n w).cntBorrow = c.cntBorrow := rfl

/-! ## What `Cog.complete` keeps -/

@[simp] theorem Cog.complete_qbase (e : Effect) : (c.complete e).qbase = c.qbase := by simp [Cog.complete]
@[simp] theorem Cog.complete_cacheValid (e : Effect) : (c.complete e).cacheValid = c.cacheValid := by simp [Cog.complete]
@[simp] theorem Cog.complete_cacheTag (e : Effect) : (c.complete e).cacheTag = c.cacheTag := by simp [Cog.complete]
@[simp] theorem Cog.complete_pc (e : Effect) : (c.complete e).pc = c.pc := by simp [Cog.complete]
@[simp] theorem Cog.complete_ptra (e : Effect) : (c.complete e).ptra = c.ptra := by simp [Cog.complete]
@[simp] theorem Cog.complete_ptrb (e : Effect) : (c.complete e).ptrb = c.ptrb := by simp [Cog.complete]
@[simp] theorem Cog.complete_inda (e : Effect) : (c.complete e).inda = c.inda := by simp [Cog.complete]
@[simp] theorem Cog.complete_indb (e : Effect) : (c.complete e).indb = c.indb := by simp [Cog.complete]
@[simp] theorem Cog.complete_stack (e : Effect) : (c.complete e).stack = c.stack := by simp [Cog.complete]
@[simp] theorem Cog.complete_spa (e : Effect) : (c.complete e).spa = c.spa := by simp [Cog.complete]
@[simp] theorem Cog.complete_spb (e : Effect) : (c.complete e).spb = c.spb := by simp [Cog.complete]
@[simp] theorem Cog.complete_cogsel (e : Effect) : (c.complete e).cogsel = c.cogsel := by simp [Cog.complete]
@[simp] theorem Cog.complete_run (e : Effect) : (c.complete e).run = c.run := by simp [Cog.complete]
@[simp] theorem Cog.complete_cnthLatch (e : Effect) : (c.complete e).cnthLatch = c.cnthLatch := by simp [Cog.complete]
@[simp] theorem Cog.complete_cntBorrow (e : Effect) : (c.complete e).cntBorrow = c.cntBorrow := by simp [Cog.complete]

/-! ## What `Cog.postModOperands` keeps -/

@[simp] theorem Cog.postModOperands_ram (k : BitVec 4) (d s : Option RegAddr) : (c.postModOperands k d s).ram = c.ram := rfl
@[simp] theorem Cog.postModOperands_pinRegs (k : BitVec 4) (d s : Option RegAddr) : (c.postModOperands k d s).pinRegs = c.pinRegs := rfl
@[simp] theorem Cog.postModOperands_quad (k : BitVec 4) (d s : Option RegAddr) : (c.postModOperands k d s).quad = c.quad := rfl
@[simp] theorem Cog.postModOperands_qbase (k : BitVec 4) (d s : Option RegAddr) : (c.postModOperands k d s).qbase = c.qbase := rfl
@[simp] theorem Cog.postModOperands_cacheValid (k : BitVec 4) (d s : Option RegAddr) : (c.postModOperands k d s).cacheValid = c.cacheValid := rfl
@[simp] theorem Cog.postModOperands_cacheTag (k : BitVec 4) (d s : Option RegAddr) : (c.postModOperands k d s).cacheTag = c.cacheTag := rfl
@[simp] theorem Cog.postModOperands_pc (k : BitVec 4) (d s : Option RegAddr) : (c.postModOperands k d s).pc = c.pc := rfl
@[simp] theorem Cog.postModOperands_cf (k : BitVec 4) (d s : Option RegAddr) : (c.postModOperands k d s).cf = c.cf := rfl
@[simp] theorem Cog.postModOperands_zf (k : BitVec 4) (d s : Option RegAddr) : (c.postModOperands k d s).zf = c.zf := rfl
@[simp] theorem Cog.postModOperands_ptra (k : BitVec 4) (d s : Option RegAddr) : (c.postModOperands k d s).ptra = c.ptra := rfl
@[simp] theorem Cog.postModOperands_ptrb (k : BitVec 4) (d s : Option RegAddr) : (c.postModOperands k d s).ptrb = c.ptrb := rfl
@[simp] theorem Cog.postModOperands_stack (k : BitVec 4) (d s : Option RegAddr) : (c.postModOperands k d s).stack = c.stack := rfl
@[simp] theorem Cog.postModOperands_spa (k : BitVec 4) (d s : Option RegAddr) : (c.postModOperands k d s).spa = c.spa := rfl
@[simp] theorem Cog.postModOperands_spb (k : BitVec 4) (d s : Option RegAddr) : (c.postModOperands k d s).spb = c.spb := rfl
@[simp] theorem Cog.postModOperands_cogsel (k : BitVec 4) (d s : Option RegAddr) : (c.postModOperands k d s).cogsel = c.cogsel := rfl
@[simp] theorem Cog.postModOperands_run (k : BitVec 4) (d s : Option RegAddr) : (c.postModOperands k d s).run = c.run := rfl
@[simp] theorem Cog.postModOperands_lastStored (k : BitVec 4) (d s : Option RegAddr) : (c.postModOperands k d s).lastStored = c.lastStored := rfl
@[simp] theorem Cog.postModOperands_cntPhase (k : BitVec 4) (d s : Option RegAddr) : (c.postModOperands k d s).cntPhase = c.cntPhase := rfl
@[simp] theorem Cog.postModOperands_cnthLatch (k : BitVec 4) (d s : Option RegAddr) : (c.postModOperands k d s).cnthLatch = c.cnthLatch := rfl
@[simp] theorem Cog.postModOperands_cntBorrow (k : BitVec 4) (d s : Option RegAddr) : (c.postModOperands k d s).cntBorrow = c.cntBorrow := rfl
@[simp] theorem Cog.postModOperands_recent (k : BitVec 4) (d s : Option RegAddr) : (c.postModOperands k d s).recent = c.recent := rfl
@[simp] theorem Cog.postModOperands_fill (k : BitVec 4) (d s : Option RegAddr) : (c.postModOperands k d s).fill = c.fill := rfl
@[simp] theorem Cog.postModOperands_remaps (k : BitVec 4) (d s : Option RegAddr) : (c.postModOperands k d s).remaps = c.remaps := rfl
@[simp] theorem Cog.postModOperands_passAt (k : BitVec 4) (d s : Option RegAddr) : (c.postModOperands k d s).passAt = c.passAt := rfl
@[simp] theorem Cog.postModOperands_due (k : BitVec 4) (d s : Option RegAddr) : (c.postModOperands k d s).due = c.due := rfl

/-! ## What `Cog.setPtr` keeps -/

@[simp] theorem Cog.setPtr_ram (p : PtrSel) (v : HubAddr) : (c.setPtr p v).ram = c.ram := rfl
@[simp] theorem Cog.setPtr_pinRegs (p : PtrSel) (v : HubAddr) : (c.setPtr p v).pinRegs = c.pinRegs := rfl
@[simp] theorem Cog.setPtr_quad (p : PtrSel) (v : HubAddr) : (c.setPtr p v).quad = c.quad := rfl
@[simp] theorem Cog.setPtr_qbase (p : PtrSel) (v : HubAddr) : (c.setPtr p v).qbase = c.qbase := rfl
@[simp] theorem Cog.setPtr_cacheValid (p : PtrSel) (v : HubAddr) : (c.setPtr p v).cacheValid = c.cacheValid := rfl
@[simp] theorem Cog.setPtr_cacheTag (p : PtrSel) (v : HubAddr) : (c.setPtr p v).cacheTag = c.cacheTag := rfl
@[simp] theorem Cog.setPtr_pc (p : PtrSel) (v : HubAddr) : (c.setPtr p v).pc = c.pc := rfl
@[simp] theorem Cog.setPtr_cf (p : PtrSel) (v : HubAddr) : (c.setPtr p v).cf = c.cf := rfl
@[simp] theorem Cog.setPtr_zf (p : PtrSel) (v : HubAddr) : (c.setPtr p v).zf = c.zf := rfl
@[simp] theorem Cog.setPtr_inda (p : PtrSel) (v : HubAddr) : (c.setPtr p v).inda = c.inda := rfl
@[simp] theorem Cog.setPtr_indb (p : PtrSel) (v : HubAddr) : (c.setPtr p v).indb = c.indb := rfl
@[simp] theorem Cog.setPtr_stack (p : PtrSel) (v : HubAddr) : (c.setPtr p v).stack = c.stack := rfl
@[simp] theorem Cog.setPtr_spa (p : PtrSel) (v : HubAddr) : (c.setPtr p v).spa = c.spa := rfl
@[simp] theorem Cog.setPtr_spb (p : PtrSel) (v : HubAddr) : (c.setPtr p v).spb = c.spb := rfl
@[simp] theorem Cog.setPtr_cogsel (p : PtrSel) (v : HubAddr) : (c.setPtr p v).cogsel = c.cogsel := rfl
@[simp] theorem Cog.setPtr_run (p : PtrSel) (v : HubAddr) : (c.setPtr p v).run = c.run := rfl
@[simp] theorem Cog.setPtr_lastStored (p : PtrSel) (v : HubAddr) : (c.setPtr p v).lastStored = c.lastStored := rfl
@[simp] theorem Cog.setPtr_cntPhase (p : PtrSel) (v : HubAddr) : (c.setPtr p v).cntPhase = c.cntPhase := rfl
@[simp] theorem Cog.setPtr_cnthLatch (p : PtrSel) (v : HubAddr) : (c.setPtr p v).cnthLatch = c.cnthLatch := rfl
@[simp] theorem Cog.setPtr_cntBorrow (p : PtrSel) (v : HubAddr) : (c.setPtr p v).cntBorrow = c.cntBorrow := rfl
@[simp] theorem Cog.setPtr_recent (p : PtrSel) (v : HubAddr) : (c.setPtr p v).recent = c.recent := rfl
@[simp] theorem Cog.setPtr_fill (p : PtrSel) (v : HubAddr) : (c.setPtr p v).fill = c.fill := rfl
@[simp] theorem Cog.setPtr_remaps (p : PtrSel) (v : HubAddr) : (c.setPtr p v).remaps = c.remaps := rfl
@[simp] theorem Cog.setPtr_passAt (p : PtrSel) (v : HubAddr) : (c.setPtr p v).passAt = c.passAt := rfl
@[simp] theorem Cog.setPtr_due (p : PtrSel) (v : HubAddr) : (c.setPtr p v).due = c.due := rfl

/-! ## What `Cog.ptrUpdate` keeps -/

@[simp] theorem Cog.ptrUpdate_ram (p : PtrExpr) (w : Width) : (c.ptrUpdate p w).ram = c.ram := rfl
@[simp] theorem Cog.ptrUpdate_pinRegs (p : PtrExpr) (w : Width) : (c.ptrUpdate p w).pinRegs = c.pinRegs := rfl
@[simp] theorem Cog.ptrUpdate_quad (p : PtrExpr) (w : Width) : (c.ptrUpdate p w).quad = c.quad := rfl
@[simp] theorem Cog.ptrUpdate_qbase (p : PtrExpr) (w : Width) : (c.ptrUpdate p w).qbase = c.qbase := rfl
@[simp] theorem Cog.ptrUpdate_cacheValid (p : PtrExpr) (w : Width) : (c.ptrUpdate p w).cacheValid = c.cacheValid := rfl
@[simp] theorem Cog.ptrUpdate_cacheTag (p : PtrExpr) (w : Width) : (c.ptrUpdate p w).cacheTag = c.cacheTag := rfl
@[simp] theorem Cog.ptrUpdate_pc (p : PtrExpr) (w : Width) : (c.ptrUpdate p w).pc = c.pc := rfl
@[simp] theorem Cog.ptrUpdate_cf (p : PtrExpr) (w : Width) : (c.ptrUpdate p w).cf = c.cf := rfl
@[simp] theorem Cog.ptrUpdate_zf (p : PtrExpr) (w : Width) : (c.ptrUpdate p w).zf = c.zf := rfl
@[simp] theorem Cog.ptrUpdate_inda (p : PtrExpr) (w : Width) : (c.ptrUpdate p w).inda = c.inda := rfl
@[simp] theorem Cog.ptrUpdate_indb (p : PtrExpr) (w : Width) : (c.ptrUpdate p w).indb = c.indb := rfl
@[simp] theorem Cog.ptrUpdate_stack (p : PtrExpr) (w : Width) : (c.ptrUpdate p w).stack = c.stack := rfl
@[simp] theorem Cog.ptrUpdate_spa (p : PtrExpr) (w : Width) : (c.ptrUpdate p w).spa = c.spa := rfl
@[simp] theorem Cog.ptrUpdate_spb (p : PtrExpr) (w : Width) : (c.ptrUpdate p w).spb = c.spb := rfl
@[simp] theorem Cog.ptrUpdate_cogsel (p : PtrExpr) (w : Width) : (c.ptrUpdate p w).cogsel = c.cogsel := rfl
@[simp] theorem Cog.ptrUpdate_run (p : PtrExpr) (w : Width) : (c.ptrUpdate p w).run = c.run := rfl
@[simp] theorem Cog.ptrUpdate_lastStored (p : PtrExpr) (w : Width) : (c.ptrUpdate p w).lastStored = c.lastStored := rfl
@[simp] theorem Cog.ptrUpdate_cntPhase (p : PtrExpr) (w : Width) : (c.ptrUpdate p w).cntPhase = c.cntPhase := rfl
@[simp] theorem Cog.ptrUpdate_cnthLatch (p : PtrExpr) (w : Width) : (c.ptrUpdate p w).cnthLatch = c.cnthLatch := rfl
@[simp] theorem Cog.ptrUpdate_cntBorrow (p : PtrExpr) (w : Width) : (c.ptrUpdate p w).cntBorrow = c.cntBorrow := rfl
@[simp] theorem Cog.ptrUpdate_recent (p : PtrExpr) (w : Width) : (c.ptrUpdate p w).recent = c.recent := rfl
@[simp] theorem Cog.ptrUpdate_fill (p : PtrExpr) (w : Width) : (c.ptrUpdate p w).fill = c.fill := rfl
@[simp] theorem Cog.ptrUpdate_remaps (p : PtrExpr) (w : Width) : (c.ptrUpdate p w).remaps = c.remaps := rfl
@[simp] theorem Cog.ptrUpdate_passAt (p : PtrExpr) (w : Width) : (c.ptrUpdate p w).passAt = c.passAt := rfl
@[simp] theorem Cog.ptrUpdate_due (p : PtrExpr) (w : Width) : (c.ptrUpdate p w).due = c.due := rfl

/-! ## What `Cog.quadFill` keeps -/

@[simp] theorem Cog.quadFill_ram (m : HubMem) (a : HubAddr) : (c.quadFill m a).ram = c.ram := rfl
@[simp] theorem Cog.quadFill_pinRegs (m : HubMem) (a : HubAddr) : (c.quadFill m a).pinRegs = c.pinRegs := rfl
@[simp] theorem Cog.quadFill_qbase (m : HubMem) (a : HubAddr) : (c.quadFill m a).qbase = c.qbase := rfl
@[simp] theorem Cog.quadFill_pc (m : HubMem) (a : HubAddr) : (c.quadFill m a).pc = c.pc := rfl
@[simp] theorem Cog.quadFill_cf (m : HubMem) (a : HubAddr) : (c.quadFill m a).cf = c.cf := rfl
@[simp] theorem Cog.quadFill_zf (m : HubMem) (a : HubAddr) : (c.quadFill m a).zf = c.zf := rfl
@[simp] theorem Cog.quadFill_ptra (m : HubMem) (a : HubAddr) : (c.quadFill m a).ptra = c.ptra := rfl
@[simp] theorem Cog.quadFill_ptrb (m : HubMem) (a : HubAddr) : (c.quadFill m a).ptrb = c.ptrb := rfl
@[simp] theorem Cog.quadFill_inda (m : HubMem) (a : HubAddr) : (c.quadFill m a).inda = c.inda := rfl
@[simp] theorem Cog.quadFill_indb (m : HubMem) (a : HubAddr) : (c.quadFill m a).indb = c.indb := rfl
@[simp] theorem Cog.quadFill_stack (m : HubMem) (a : HubAddr) : (c.quadFill m a).stack = c.stack := rfl
@[simp] theorem Cog.quadFill_spa (m : HubMem) (a : HubAddr) : (c.quadFill m a).spa = c.spa := rfl
@[simp] theorem Cog.quadFill_spb (m : HubMem) (a : HubAddr) : (c.quadFill m a).spb = c.spb := rfl
@[simp] theorem Cog.quadFill_cogsel (m : HubMem) (a : HubAddr) : (c.quadFill m a).cogsel = c.cogsel := rfl
@[simp] theorem Cog.quadFill_run (m : HubMem) (a : HubAddr) : (c.quadFill m a).run = c.run := rfl
@[simp] theorem Cog.quadFill_lastStored (m : HubMem) (a : HubAddr) : (c.quadFill m a).lastStored = c.lastStored := rfl
@[simp] theorem Cog.quadFill_cntPhase (m : HubMem) (a : HubAddr) : (c.quadFill m a).cntPhase = c.cntPhase := rfl
@[simp] theorem Cog.quadFill_cnthLatch (m : HubMem) (a : HubAddr) : (c.quadFill m a).cnthLatch = c.cnthLatch := rfl
@[simp] theorem Cog.quadFill_cntBorrow (m : HubMem) (a : HubAddr) : (c.quadFill m a).cntBorrow = c.cntBorrow := rfl
@[simp] theorem Cog.quadFill_recent (m : HubMem) (a : HubAddr) : (c.quadFill m a).recent = c.recent := rfl
@[simp] theorem Cog.quadFill_fill (m : HubMem) (a : HubAddr) : (c.quadFill m a).fill = c.fill := rfl
@[simp] theorem Cog.quadFill_remaps (m : HubMem) (a : HubAddr) : (c.quadFill m a).remaps = c.remaps := rfl
@[simp] theorem Cog.quadFill_passAt (m : HubMem) (a : HubAddr) : (c.quadFill m a).passAt = c.passAt := rfl
@[simp] theorem Cog.quadFill_due (m : HubMem) (a : HubAddr) : (c.quadFill m a).due = c.due := rfl

/-! ## What `Cog.rebase` keeps -/

@[simp] theorem Cog.rebase_ram (b : RegAddr) : (c.rebase b).ram = c.ram := rfl
@[simp] theorem Cog.rebase_pinRegs (b : RegAddr) : (c.rebase b).pinRegs = c.pinRegs := rfl
@[simp] theorem Cog.rebase_quad (b : RegAddr) : (c.rebase b).quad = c.quad := rfl
@[simp] theorem Cog.rebase_cacheValid (b : RegAddr) : (c.rebase b).cacheValid = c.cacheValid := rfl
@[simp] theorem Cog.rebase_cacheTag (b : RegAddr) : (c.rebase b).cacheTag = c.cacheTag := rfl
@[simp] theorem Cog.rebase_pc (b : RegAddr) : (c.rebase b).pc = c.pc := rfl
@[simp] theorem Cog.rebase_cf (b : RegAddr) : (c.rebase b).cf = c.cf := rfl
@[simp] theorem Cog.rebase_zf (b : RegAddr) : (c.rebase b).zf = c.zf := rfl
@[simp] theorem Cog.rebase_ptra (b : RegAddr) : (c.rebase b).ptra = c.ptra := rfl
@[simp] theorem Cog.rebase_ptrb (b : RegAddr) : (c.rebase b).ptrb = c.ptrb := rfl
@[simp] theorem Cog.rebase_inda (b : RegAddr) : (c.rebase b).inda = c.inda := rfl
@[simp] theorem Cog.rebase_indb (b : RegAddr) : (c.rebase b).indb = c.indb := rfl
@[simp] theorem Cog.rebase_stack (b : RegAddr) : (c.rebase b).stack = c.stack := rfl
@[simp] theorem Cog.rebase_spa (b : RegAddr) : (c.rebase b).spa = c.spa := rfl
@[simp] theorem Cog.rebase_spb (b : RegAddr) : (c.rebase b).spb = c.spb := rfl
@[simp] theorem Cog.rebase_cogsel (b : RegAddr) : (c.rebase b).cogsel = c.cogsel := rfl
@[simp] theorem Cog.rebase_run (b : RegAddr) : (c.rebase b).run = c.run := rfl
@[simp] theorem Cog.rebase_lastStored (b : RegAddr) : (c.rebase b).lastStored = c.lastStored := rfl
@[simp] theorem Cog.rebase_cntPhase (b : RegAddr) : (c.rebase b).cntPhase = c.cntPhase := rfl
@[simp] theorem Cog.rebase_cnthLatch (b : RegAddr) : (c.rebase b).cnthLatch = c.cnthLatch := rfl
@[simp] theorem Cog.rebase_cntBorrow (b : RegAddr) : (c.rebase b).cntBorrow = c.cntBorrow := rfl
@[simp] theorem Cog.rebase_recent (b : RegAddr) : (c.rebase b).recent = c.recent := rfl
@[simp] theorem Cog.rebase_fill (b : RegAddr) : (c.rebase b).fill = c.fill := rfl
@[simp] theorem Cog.rebase_passAt (b : RegAddr) : (c.rebase b).passAt = c.passAt := rfl
@[simp] theorem Cog.rebase_due (b : RegAddr) : (c.rebase b).due = c.due := rfl

/-! ## What the end of an instruction changes -/

@[simp] theorem Cog.setFlags_cf (f g : Option Bool) : (c.setFlags f g).cf = f.getD c.cf := rfl
@[simp] theorem Cog.setFlags_zf (f g : Option Bool) : (c.setFlags f g).zf = g.getD c.zf := rfl
@[simp] theorem Cog.retire_recent (n : Nat) (w : Option RegAddr) : (c.retire n w).recent = c.recent.after w := rfl
@[simp] theorem Cog.retire_fill (n : Nat) (w : Option RegAddr) : (c.retire n w).fill = c.fill.after n := rfl
@[simp] theorem Cog.retire_remaps (n : Nat) (w : Option RegAddr) : (c.retire n w).remaps = remapsAfter c.remaps := rfl
@[simp] theorem Cog.retire_cntPhase (n : Nat) (w : Option RegAddr) : (c.retire n w).cntPhase = .none := rfl
@[simp] theorem Cog.retire_passAt (n : Nat) (w : Option RegAddr) : (c.retire n w).passAt = none := rfl
@[simp] theorem Cog.retire_due (n : Nat) (w : Option RegAddr) : (c.retire n w).due = c.due + n := rfl
@[simp] theorem Cog.complete_cf (e : Effect) : (c.complete e).cf = e.cf.getD c.cf := by simp [Cog.complete]
@[simp] theorem Cog.complete_zf (e : Effect) : (c.complete e).zf = e.zf.getD c.zf := by simp [Cog.complete]
@[simp] theorem Cog.complete_recent (e : Effect) : (c.complete e).recent = c.recent.after (e.write.map Prod.fst) := by
  simp [Cog.complete]
@[simp] theorem Cog.complete_fill (e : Effect) : (c.complete e).fill = c.fill.after e.clocks := by simp [Cog.complete]
@[simp] theorem Cog.complete_remaps (e : Effect) : (c.complete e).remaps = remapsAfter c.remaps := by simp [Cog.complete]
@[simp] theorem Cog.complete_cntPhase (e : Effect) : (c.complete e).cntPhase = .none := by simp [Cog.complete]
@[simp] theorem Cog.complete_passAt (e : Effect) : (c.complete e).passAt = none := by simp [Cog.complete]
@[simp] theorem Cog.complete_due (e : Effect) : (c.complete e).due = c.due + e.clocks := by simp [Cog.complete]
@[simp] theorem Cog.complete_ram (e : Effect) : (c.complete e).ram = (c.writeD e.write).ram := by simp [Cog.complete]
@[simp] theorem Cog.complete_pinRegs (e : Effect) : (c.complete e).pinRegs = (c.writeD e.write).pinRegs := by
  simp [Cog.complete]
@[simp] theorem Cog.complete_quad (e : Effect) : (c.complete e).quad = (c.writeD e.write).quad := by simp [Cog.complete]
@[simp] theorem Cog.complete_lastStored (e : Effect) : (c.complete e).lastStored = (c.writeD e.write).lastStored := by
  simp [Cog.complete]
@[simp] theorem Cog.writeD_none : c.writeD none = c := rfl
@[simp] theorem Cog.writeD_some (a : RegAddr) (v : Word) : c.writeD (some (a, v)) = c.store a v := rfl
@[simp] theorem Cog.store_lastStored (a : RegAddr) (v : Word) : (c.store a v).lastStored = v := rfl
@[simp] theorem Cog.store_quad (a : RegAddr) (v : Word) : (c.store a v).quad = c.quadStored a v := rfl
@[simp] theorem Cog.quadFill_quad (m : HubMem) (a : HubAddr) : (c.quadFill m a).quad = quadOfValue (memRead 128 m a .quad) := rfl
@[simp] theorem Cog.quadFill_cacheValid (m : HubMem) (a : HubAddr) : (c.quadFill m a).cacheValid = true := rfl
@[simp] theorem Cog.quadFill_cacheTag (m : HubMem) (a : HubAddr) : (c.quadFill m a).cacheTag = a.extractLsb' 4 13 := rfl
@[simp] theorem Cog.rebase_qbase (b : RegAddr) : (c.rebase b).qbase = b := rfl
@[simp] theorem Cog.setPtr_ptr (p : PtrSel) (v : HubAddr) : (c.setPtr p v).ptr p = v := by cases p <;> rfl

/-! ## The state around its cogs -/

@[simp] theorem State.cogAt_modCog_self (t : CogId) (f : Cog → Cog) : (s.modCog t f).cogAt t = f (s.cogAt t) := by
  simp [State.modCog, State.cogAt]

@[simp] theorem State.cogAt_modCog_ne {t k : CogId} (h : k ≠ t) (f : Cog → Cog) : (s.modCog t f).cogAt k = s.cogAt k := by
  have : t.val ≠ k.val := fun e => h (Fin.ext e.symm)
  simp [State.modCog, State.cogAt, this]

theorem State.cogAt_modCog (t k : CogId) (f : Cog → Cog) :
    (s.modCog t f).cogAt k = if k = t then f (s.cogAt k) else s.cogAt k := by
  by_cases h : k = t
  · subst h; simp
  · simp [h]

@[simp] theorem State.modCog_hub (t : CogId) (f : Cog → Cog) : (s.modCog t f).hub = s.hub := rfl
@[simp] theorem State.modCog_turn (t : CogId) (f : Cog → Cog) : (s.modCog t f).turn = s.turn := rfl
@[simp] theorem State.modCog_resetPending (t : CogId) (f : Cog → Cog) : (s.modCog t f).resetPending = s.resetPending := rfl
@[simp] theorem State.modCog_draws (t : CogId) (f : Cog → Cog) : (s.modCog t f).draws = s.draws := rfl

@[simp] theorem State.cur_modCur (f : Cog → Cog) : (s.modCur f).cur = f s.cur := State.cogAt_modCog_self s s.turn f
@[simp] theorem State.cogAt_modCur_ne {k : CogId} (h : k ≠ s.turn) (f : Cog → Cog) : (s.modCur f).cogAt k = s.cogAt k :=
  State.cogAt_modCog_ne s h f
@[simp] theorem State.modCur_hub (f : Cog → Cog) : (s.modCur f).hub = s.hub := rfl
@[simp] theorem State.modCur_turn (f : Cog → Cog) : (s.modCur f).turn = s.turn := rfl
@[simp] theorem State.modCur_resetPending (f : Cog → Cog) : (s.modCur f).resetPending = s.resetPending := rfl
@[simp] theorem State.modCur_draws (f : Cog → Cog) : (s.modCur f).draws = s.draws := rfl

@[simp] theorem State.modHub_cogAt (f : Hub → Hub) (k : CogId) : (s.modHub f).cogAt k = s.cogAt k := rfl
@[simp] theorem State.modHub_cur (f : Hub → Hub) : (s.modHub f).cur = s.cur := rfl
@[simp] theorem State.modHub_hub (f : Hub → Hub) : (s.modHub f).hub = f s.hub := rfl
@[simp] theorem State.modHub_turn (f : Hub → Hub) : (s.modHub f).turn = s.turn := rfl
@[simp] theorem State.modHub_resetPending (f : Hub → Hub) : (s.modHub f).resetPending = s.resetPending := rfl
@[simp] theorem State.modHub_draws (f : Hub → Hub) : (s.modHub f).draws = s.draws := rfl

@[simp] theorem State.drawn_cogAt (n : Nat) (k : CogId) : (s.drawn n).cogAt k = s.cogAt k := rfl
@[simp] theorem State.drawn_cur (n : Nat) : (s.drawn n).cur = s.cur := rfl
@[simp] theorem State.drawn_hub (n : Nat) : (s.drawn n).hub = s.hub := rfl
@[simp] theorem State.drawn_turn (n : Nat) : (s.drawn n).turn = s.turn := rfl
@[simp] theorem State.drawn_resetPending (n : Nat) : (s.drawn n).resetPending = s.resetPending := rfl
@[simp] theorem State.drawn_draws (n : Nat) : (s.drawn n).draws = s.draws + n := rfl

theorem State.drawn_drawn (m n : Nat) : (s.drawn m).drawn n = s.drawn (m + n) := by simp [State.drawn, Nat.add_assoc]

@[simp] theorem State.complete_cur (e : Effect) : (s.complete e).cur = s.cur.complete e := State.cur_modCur s _
@[simp] theorem State.complete_cogAt_ne {k : CogId} (h : k ≠ s.turn) (e : Effect) : (s.complete e).cogAt k = s.cogAt k :=
  State.cogAt_modCur_ne s h _
@[simp] theorem State.complete_hub (e : Effect) : (s.complete e).hub = s.hub := rfl
@[simp] theorem State.complete_turn (e : Effect) : (s.complete e).turn = s.turn := rfl
@[simp] theorem State.complete_resetPending (e : Effect) : (s.complete e).resetPending = s.resetPending := rfl
@[simp] theorem State.complete_draws (e : Effect) : (s.complete e).draws = s.draws := rfl

@[simp] theorem State.passClocks_turn (n : Nat) : (s.passClocks n).turn = s.turn := rfl
@[simp] theorem State.passClocks_resetPending (n : Nat) : (s.passClocks n).resetPending = s.resetPending := rfl
@[simp] theorem State.passClocks_draws (n : Nat) : (s.passClocks n).draws = s.draws := rfl
@[simp] theorem State.passClocks_cur (n : Nat) : (s.passClocks n).cur = { s.cur with due := s.hub.elapsed + n } :=
  State.cur_modCur _ _
@[simp] theorem State.passClocks_cogAt_ne {k : CogId} (h : k ≠ s.turn) (n : Nat) : (s.passClocks n).cogAt k = s.cogAt k :=
  State.cogAt_modCur_ne (s.modHub _) h _
@[simp] theorem State.passClocks_hub (n : Nat) :
    (s.passClocks n).hub = { s.hub with cnt := s.hub.cnt + BitVec.ofNat 64 n, elapsed := s.hub.elapsed + n } := rfl

@[simp] theorem State.hubUpdate_hub (h : HubOperand) (w : Width) : (s.hubUpdate h w).hub = s.hub := by cases h <;> rfl
@[simp] theorem State.hubUpdate_turn (h : HubOperand) (w : Width) : (s.hubUpdate h w).turn = s.turn := by cases h <;> rfl
@[simp] theorem State.hubUpdate_resetPending (h : HubOperand) (w : Width) :
    (s.hubUpdate h w).resetPending = s.resetPending := by cases h <;> rfl
@[simp] theorem State.hubUpdate_draws (h : HubOperand) (w : Width) : (s.hubUpdate h w).draws = s.draws := by
  cases h <;> rfl
@[simp] theorem State.hubUpdate_cogAt_ne {k : CogId} (hk : k ≠ s.turn) (h : HubOperand) (w : Width) :
    (s.hubUpdate h w).cogAt k = s.cogAt k := by
  cases h
  · rfl
  · exact State.cogAt_modCur_ne s hk _

/-- Two states are the same if every part of them is. -/
theorem State.eq_of_parts {s t : State} (hc : ∀ k, s.cogAt k = t.cogAt k) (hh : s.hub = t.hub) (ht : s.turn = t.turn)
    (hr : s.resetPending = t.resetPending) (hd : s.draws = t.draws) : s = t := by
  obtain ⟨a, b, c, d, e⟩ := s
  obtain ⟨a', b', c', d', e'⟩ := t
  have : a = a' := Vector.ext fun i hi => hc ⟨i, hi⟩
  simp_all

/-! ## Outcomes -/

@[simp] theorem andThen_next {α β : Type} (a : α) (f : α → Result β) : andThen (.next a) f = f a := rfl
@[simp] theorem andThen_refused {α β : Type} (e : Refusal) (f : α → Result β) : andThen (.refused e) f = .refused e := rfl
@[simp] theorem andThen_fault {α β : Type} (e : Fault) (f : α → Result β) : andThen (.fault e) f = .fault e := rfl

theorem andThen_eq_next {α β : Type} {r : Result α} {f : α → Result β} {b : β} :
    andThen r f = .next b ↔ ∃ a, r = .next a ∧ f a = .next b := by
  cases r <;> simp

end Sys2Proof.Machine
end

