-- ==== Sys2Proof/Laws/Operations.lean ====
section
/-! SUPPORT. What each shared operation does, said once: a register write, the end of an instruction, the operands, a read of
the counter. -/

namespace Sys2Proof.Machine

/-! ## Registers under a write (10_state.md R24) -/

theorem Cog.underlying_setUnderlying {c : Cog} (h : CellsSorted c.ram) (a b : RegAddr) (v : Word) :
    (c.setUnderlying a v).underlying b = if b = a then v else c.underlying b := by
  have hb := b.isLt
  have ha := a.isLt
  have hn : b = a ↔ b.toNat = a.toNat := BitVec.toNat_inj.symm
  by_cases hlow : a.toNat < 0x1F8
  · by_cases hb8 : b.toNat < 0x1F8
    · simp only [Cog.underlying, Cog.setUnderlying, hlow, hb8, if_true, cellFind_cellPut h, hn, eq_comm (a := a.toNat)]
      by_cases e : b.toNat = a.toNat
      · by_cases hv : v = 0
        · simp [e, hv]
        · simp only [e, if_true, hv, if_false, Option.getD_some]
      · simp [e]
    · have hne : ¬ b.toNat = a.toNat := by omega
      simp [Cog.underlying, Cog.setUnderlying, hlow, hb8, hn, hne]
  · by_cases hb8 : b.toNat < 0x1F8
    · have hne : ¬ b.toNat = a.toNat := by omega
      simp [Cog.underlying, Cog.setUnderlying, hlow, hb8, hn, hne]
    · have hm : (Fin.ofNat 8 a.toNat).val = (Fin.ofNat 8 b.toNat).val ↔ b.toNat = a.toNat := by
        simp only [Fin.val_ofNat]; omega
      simp only [Cog.underlying, Cog.setUnderlying, hlow, hb8, if_false, hn, Fin.getElem_fin, Vector.getElem_set, hm]

theorem overlay_eq_some {base a : RegAddr} {k : Fin 4} (h : overlay base a = some k) :
    base ≠ 0x1FF ∧ base.toNat + k.val = a.toNat := by
  unfold overlay at h
  split at h
  · simp at h
  · next hb =>
    split at h
    · next hr =>
      simp only [Option.some.injEq] at h
      subst h
      exact ⟨hb, by simp only; omega⟩
    · simp at h

/-- Two register addresses over one QUAD register are the same. -/
theorem overlay_injective {base a b : RegAddr} {k : Fin 4} (ha : overlay base a = some k) (hb : overlay base b = some k) :
    a = b := by
  have h1 := (overlay_eq_some ha).2
  have h2 := (overlay_eq_some hb).2
  exact BitVec.eq_of_toNat_eq (by omega)

theorem Cog.quadStored_none {c : Cog} {a : RegAddr} {v : Word} (h : overlay c.qbase a = none) : c.quadStored a v = c.quad := by
  unfold Cog.quadStored; split <;> simp_all

theorem Cog.quadStored_some {c : Cog} {a : RegAddr} {v : Word} {k : Fin 4} (h : overlay c.qbase a = some k) :
    c.quadStored a v = c.quad.set k v := by
  unfold Cog.quadStored; split <;> simp_all

theorem Cog.underlying_store {c : Cog} (h : CellsSorted c.ram) (a b : RegAddr) (v : Word) :
    (c.store a v).underlying b = if b = a then v else c.underlying b :=
  Cog.underlying_setUnderlying h a b v

/-- What a register reads as after a write (10_state.md R24). -/
theorem Cog.reg_store {c : Cog} (h : CellsSorted c.ram) (a b : RegAddr) (v : Word) :
    (c.store a v).reg b = if b = a then v else c.reg b := by
  unfold Cog.reg
  rw [Cog.store_qbase, Cog.underlying_store h]
  cases hb : overlay c.qbase b with
  | none => rfl
  | some k =>
    rw [Cog.store_quad]
    cases ha : overlay c.qbase a with
    | none =>
      rw [Cog.quadStored_none ha]
      have : b ≠ a := fun e => by simp [← e, hb] at ha
      simp [this]
    | some j =>
      rw [Cog.quadStored_some ha]
      by_cases e : b = a
      · subst e
        rw [hb] at ha
        simp only [Option.some.injEq] at ha
        subst ha
        simp
      · have : j.val ≠ k.val := fun hjk => e (overlay_injective hb (by rw [ha, Fin.ext hjk]))
        simp [e, this]

/-- A QUAD register that no address maps to keeps its value under a write (10_state.md R24). -/
theorem Cog.store_hiddenQuad {c : Cog} {k : Fin 4} (h : ∀ a, overlay c.qbase a ≠ some k) (a : RegAddr) (v : Word) :
    (c.store a v).quad[k] = c.quad[k] := by
  rw [Cog.store_quad]
  cases ha : overlay c.qbase a with
  | none => rw [Cog.quadStored_none ha]
  | some j =>
    rw [Cog.quadStored_some ha]
    have : j.val ≠ k.val := fun e => h a (by rw [ha, Fin.ext e])
    simp [this]

/-! ## The end of an instruction -/

theorem Cog.reg_congr {c d : Cog} (hq : d.qbase = c.qbase) (hv : d.quad = c.quad) (hr : d.ram = c.ram)
    (hp : d.pinRegs = c.pinRegs) (a : RegAddr) : d.reg a = c.reg a := by
  simp only [Cog.reg, Cog.underlying, hq, hv, hr, hp]

theorem Cog.underlying_congr {c d : Cog} (hr : d.ram = c.ram) (hp : d.pinRegs = c.pinRegs) (a : RegAddr) :
    d.underlying a = c.underlying a := by
  simp only [Cog.underlying, hr, hp]

theorem Cog.complete_reg (c : Cog) (e : Effect) (a : RegAddr) : (c.complete e).reg a = (c.writeD e.write).reg a :=
  Cog.reg_congr (by simp) (by simp) (by simp) (by simp) a

theorem Cog.complete_underlying (c : Cog) (e : Effect) (a : RegAddr) :
    (c.complete e).underlying a = (c.writeD e.write).underlying a :=
  Cog.underlying_congr (by simp) (by simp) a

/-- The end of an instruction delivers its effect and nothing else. -/
theorem delivers_complete {b : State} {e : Effect} (h : e.write = none ∨ CellsSorted b.cur.ram) :
    Delivers b (b.complete e) e where
  reg a := by
    rw [State.complete_cur, Cog.complete_reg]
    cases hw : e.write with
    | none => rfl
    | some p => exact Cog.reg_store (by simpa [hw] using h) _ _ _
  underlying a := by
    rw [State.complete_cur, Cog.complete_underlying]
    cases hw : e.write with
    | none => rfl
    | some p => exact Cog.underlying_store (by simpa [hw] using h) _ _ _
  hiddenQuad k hk := by
    rw [State.complete_cur, Cog.complete_quad]
    cases hw : e.write with
    | none => rfl
    | some p => exact Cog.store_hiddenQuad hk _ _
  lastStored := by
    rw [State.complete_cur, Cog.complete_lastStored]
    cases e.write <;> rfl
  cf := by simp
  zf := by simp
  specials := by
    rw [State.complete_cur]
    unfold SpecialsKept Cog.complete
    cases e.write <;> rfl
  recent := by simp
  fill := by simp
  remaps := by simp
  cntPhase := by simp
  passAt := by simp
  due := by simp
  hub := by simp
  others k hk := by simp [hk]
  turn := by simp
  reset := by simp

/-- Using free values changes nothing that an instruction delivers. -/
theorem Delivers.of_drawn {b t : State} {e : Effect} {n : Nat} (h : Delivers (b.drawn n) t e) : Delivers b t e :=
  { h with }

/-- An instruction that uses free values delivers its effect. -/
theorem delivers_drawn_complete {b : State} {e : Effect} {n : Nat} (h : e.write = none ∨ CellsSorted b.cur.ram) :
    Delivers b ((b.drawn n).complete e) e :=
  (delivers_complete (b := b.drawn n) h).of_drawn

/-! ## Operands -/

section Issue

variable {st : State} {k : BitVec 4} {d sf : Option RegAddr} {body : Operands → State → Result State}

theorem issue_executes (h : Executes st k d sf) :
    issue k d sf st body = body (st.cur.operands k d sf) (st.issued k d sf) := by
  obtain ⟨h1, h2⟩ := h
  simp only [issue, h1, if_true, h2]
  rfl

theorem issue_skips (hd : fieldInd d = false) (hs : fieldInd sf = false) (hc : cond k st.cur.cf st.cur.zf = false) :
    issue k d sf st body = .next (st.complete {}) := by
  simp [issue, hd, hs, hc]

theorem issue_refuses {e : Refusal} (h : (fieldInd d || fieldInd sf || cond k st.cur.cf st.cur.zf) = true)
    (hr : st.cur.operandRefusal k d sf = some e) : issue k d sf st body = .refused e := by
  simp only [issue, h, if_true, hr]

/-- Everything an instruction can do: it is skipped, or its body answers. -/
theorem issue_eq_next {t : State} (h : issue k d sf st body = .next t) :
    t = st.complete {} ∨ body (st.cur.operands k d sf) (st.issued k d sf) = .next t := by
  unfold issue at h
  simp only at h
  split at h
  · split at h
    · simp at h
    · exact .inr h
  · simp only [Host.Outcome.next.injEq] at h
    exact .inl h.symm

end Issue

@[simp] theorem State.issued_hub (s : State) (k : BitVec 4) (d sf : Option RegAddr) : (s.issued k d sf).hub = s.hub := rfl
@[simp] theorem State.issued_turn (s : State) (k : BitVec 4) (d sf : Option RegAddr) : (s.issued k d sf).turn = s.turn := rfl
@[simp] theorem State.issued_resetPending (s : State) (k : BitVec 4) (d sf : Option RegAddr) :
    (s.issued k d sf).resetPending = s.resetPending := rfl
@[simp] theorem State.issued_draws (s : State) (k : BitVec 4) (d sf : Option RegAddr) : (s.issued k d sf).draws = s.draws := rfl
@[simp] theorem State.issued_cur (s : State) (k : BitVec 4) (d sf : Option RegAddr) :
    (s.issued k d sf).cur = s.cur.postModOperands k d sf := State.cur_modCur s _
@[simp] theorem State.issued_cogAt_ne (s : State) (k : BitVec 4) (d sf : Option RegAddr) {n : CogId} (h : n ≠ s.turn) :
    (s.issued k d sf).cogAt n = s.cogAt n := State.cogAt_modCur_ne s h _

theorem State.readReg_of_readable {s : State} {a : RegAddr} (h : Readable s a) : s.readReg a = .next (s.cur.reg a) := by
  simp [State.readReg, Cog.readReg, show s.cur.readHazard a = none from h]

theorem State.readReg_eq_next {s : State} {a : RegAddr} {v : Word} (h : s.readReg a = .next v) :
    Readable s a ∧ v = s.cur.reg a := by
  unfold State.readReg Cog.readReg at h
  split at h
  · simp at h
  · next hn => exact ⟨hn, by simpa using h.symm⟩

theorem State.readSrc_of_readable {s : State} {src : Src} {a : RegAddr} (h : SrcReadable s src a) :
    s.readSrc src a = .next (s.srcValue src a) := by
  cases src with
  | reg f => exact State.readReg_of_readable h
  | imm n => rfl

theorem State.hubEA_of_readable {s : State} {h : HubOperand} {w : Width} {a : RegAddr} (hr : HubReadable s h a) :
    s.hubEA h w a = .next (s.hubAddress h w a) := by
  cases h with
  | reg f => simp [State.hubEA, State.hubAddress, State.readReg_of_readable hr]
  | ptr p => rfl

/-! ## Pointer updates -/

theorem State.hubUpdate_cur_reg (s : State) (h : HubOperand) (w : Width) (a : RegAddr) :
    (s.hubUpdate h w).cur.reg a = s.cur.reg a := by
  cases h with
  | reg f => rfl
  | ptr p => rw [State.hubUpdate, State.cur_modCur]; exact Cog.reg_congr (by simp) (by simp) (by simp) (by simp) a

@[simp] theorem State.hubUpdate_cur_ram (s : State) (h : HubOperand) (w : Width) : (s.hubUpdate h w).cur.ram = s.cur.ram := by
  cases h <;> simp [State.hubUpdate]

/-! ## The read cache (40_hub_memory.md R131) -/

theorem Cog.cacheHit_iff (c : Cog) (ea : HubAddr) :
    c.cacheHit ea = true ↔ c.cacheValid = true ∧ c.cacheTag = ea.extractLsb' 4 13 := by
  simp [Cog.cacheHit]

theorem State.hubUpdate_cur_cacheHit (s : State) (h : HubOperand) (w : Width) (ea : HubAddr) :
    (s.hubUpdate h w).cur.cacheHit ea = s.cur.cacheHit ea := by
  cases h <;> simp [State.hubUpdate, Cog.cacheHit]

@[simp] theorem State.hubUpdate_cur_quad (s : State) (h : HubOperand) (w : Width) :
    (s.hubUpdate h w).cur.quad = s.cur.quad := by
  cases h <;> simp [State.hubUpdate]

/-- After a fill the QUADs hold the aligned quad. -/
theorem Cog.quadFill_quadValue (c : Cog) (m : HubMem) (ea : HubAddr) :
    (c.quadFill m ea).quadValue = memRead 128 m ea .quad := by
  have e : (c.quadFill m ea).quadValue = (memRead 128 m ea .quad).extractLsb' 96 32 ++ (memRead 128 m ea .quad).extractLsb' 64 32 ++
      (memRead 128 m ea .quad).extractLsb' 32 32 ++ (memRead 128 m ea .quad).extractLsb' 0 32 := rfl
  rw [e]
  generalize memRead 128 m ea .quad = q
  apply BitVec.eq_of_getLsbD_eq
  intro i hi
  repeat rw [BitVec.getLsbD_append]
  simp only [BitVec.getLsbD_extractLsb']
  split
  · simp [*]
  · split
    · rw [show 32 + (i - 32) = i by omega]; simp; omega
    · split
      · rw [show 64 + (i - 32 - 32) = i by omega]; simp; omega
      · rw [show 96 + (i - 32 - 32 - 32) = i by omega]; simp; omega

/-- After a fill the cached unit is the unit of hub memory. -/
theorem Cog.quadFill_cachedUnit (c : Cog) (m : HubMem) (ea : HubAddr) (w : Width) :
    (c.quadFill m ea).cachedUnit ea w = (memRead (8 * w.bytes) m ea w).setWidth 32 := by
  simp only [Cog.cachedUnit, Cog.quadFill_quadValue]
  apply BitVec.eq_of_getLsbD_eq
  intro j hj
  simp only [BitVec.getLsbD_setWidth, memRead_getLsbD, BitVec.getLsbD_extractLsb', hj, decide_true, Bool.true_and]
  by_cases h : j < 8 * w.bytes
  · have h2 : 8 * (alignDown ea w % 16) + j < 128 := by
      cases w <;> simp [alignDown, Width.bytes] at * <;> omega
    have h3 : 8 * (alignDown ea w % 16) + j < 8 * Width.bytes .quad := h2
    have h4 : alignDown ea .quad + (8 * (alignDown ea w % 16) + j) / 8 = alignDown ea w + j / 8 := by
      cases w <;> simp [alignDown, Width.bytes] at * <;> omega
    have h5 : (8 * (alignDown ea w % 16) + j) % 8 = j % 8 := by omega
    simp [h, h2, h3, h4, h5]
  · simp [h]

/-! ## Free picks (00_scope.md R7) -/

theorem pickFrom_mem {α : Type} {l : List α} {n : Nat} {a : α} (h : pickFrom l n = some a) : a ∈ l := by
  match l with
  | [] => simp [pickFrom] at h
  | [x] => simp [pickFrom] at h; simp [h]
  | x :: y :: rest =>
    simp only [pickFrom, Option.some.injEq] at h
    have hn : n % ((y :: rest).length + 1) < (x :: y :: rest).length := Nat.mod_lt _ (Nat.succ_pos _)
    rw [← h, List.getD_eq_getElem _ _ hn]
    exact List.getElem_mem _

theorem pickFrom_some {α : Type} {l : List α} (n : Nat) (h : l ≠ []) : ∃ a, pickFrom l n = some a := by
  match l with
  | [] => simp at h
  | [x] => exact ⟨x, rfl⟩
  | x :: y :: rest => exact ⟨_, rfl⟩

theorem mem_allCogs (t : CogId) : t ∈ allCogs := by revert t; decide
theorem mem_allLocks (t : LockId) : t ∈ allLocks := by revert t; decide

/-- A cog that runs alone is the only one that can step. -/
theorem State.activeCogs_alone {s : State} (h : s.cur.run ≠ .idle) (ho : ∀ k, k ≠ s.turn → (s.cogAt k).run = .idle) :
    s.activeCogs = [s.turn] := by
  have e : s.activeCogs = allCogs.filter fun t => decide (t = s.turn) := by
    unfold State.activeCogs
    congr 1
    funext t
    by_cases ht : t = s.turn
    · subst ht
      simp [show (s.cogAt s.turn).run ≠ .idle from h]
    · simp [ht, ho t ht]
  rw [e]
  generalize s.turn = x
  revert x
  decide

/-- A cog that runs alone keeps its turn. -/
theorem State.passTurn_alone {s : State} (h : s.cur.run ≠ .idle) (ho : ∀ k, k ≠ s.turn → (s.cogAt k).run = .idle) :
    s.passTurn = s.drawn 1 := by
  simp only [State.passTurn, State.activeCogs_alone h ho, pickFrom]

/-! ## The pipeline windows (70_reset_and_hazards.md R338 to R341) -/

/-- Instructions open no SETQUAD window again. -/
theorem remapsAfter_any {p : Remap → Bool} (hp : ∀ b n, p ⟨b, n - 1⟩ = true → p ⟨b, n⟩ = true) {l : List Remap}
    (h : l.any p = false) : (remapsAfter l).any p = false := by
  induction l with
  | nil => rfl
  | cons m l ih =>
    simp only [List.any_cons, Bool.or_eq_false_iff] at h
    unfold remapsAfter
    split
    · exact ih h.2
    · simp only [List.any_cons, Bool.or_eq_false_iff]
      exact ⟨by by_contra hc; simpa [h.1] using hp m.base m.left (by simpa using hc), ih h.2⟩

/-- A register that can be read can be read after a further instruction. -/
theorem Cog.readHazard_after {c c' : Cog} {a : RegAddr} {n : Nat} (h : c.readHazard a = none) (hf : c'.fill = c.fill.after n)
    (hr : c'.remaps = remapsAfter c.remaps) (hq : c'.qbase = c.qbase) : c'.readHazard a = none := by
  unfold Cog.readHazard at h ⊢
  rw [hf, hq, hr]
  split at h
  · simp at h
  · rename_i hno
    have ha : (c.remaps.any fun m => (overlay m.base a).isSome && decide (2 ≤ m.left)) = false := by
      by_contra hc
      rw [Bool.not_eq_false] at hc
      rw [if_pos hc] at h
      simp at h
    split
    · rename_i n' k h1 h2
      cases hfc : c.fill with
      | settled => rw [hfc] at h1; simp [Fill.after] at h1
      | readable => rw [hfc] at h1; simp [Fill.after] at h1
      | filling n => exact absurd h2 (hno n k hfc)
    · have hp : ∀ (b : RegAddr) (n : Nat), ((overlay b a).isSome && decide (2 ≤ n - 1)) = true →
          ((overlay b a).isSome && decide (2 ≤ n)) = true := by
        intro b n hbn
        simp only [Bool.and_eq_true, decide_eq_true_eq] at hbn ⊢
        exact ⟨hbn.1, by omega⟩
      rw [remapsAfter_any hp ha]
      rfl

/-- A long that can be fetched can be fetched after a further instruction that writes no register. -/
theorem Cog.fetchHazard_after {c c' : Cog} {a : RegAddr} {n : Nat} (h : c.fetchHazard a = none) (hf : c'.fill = c.fill.after n)
    (hr : c'.remaps = remapsAfter c.remaps) (hq : c'.qbase = c.qbase) (hw : c'.recent = c.recent.after none) :
    c'.fetchHazard a = none := by
  unfold Cog.fetchHazard at h ⊢
  rw [hf, hq, hr, hw]
  split at h
  · simp at h
  · split at h
    · simp at h
    · split at h
      · simp at h
      · split at h
        · simp at h
        · rename_i a1 a2 a3 a4
          have b2 : ¬ ((c.recent.after none).last1 = some a ∨ (c.recent.after none).last2 = some a ∨
              (c.recent.after none).last3 = some a) := by
            simp only [Recent.after]
            rintro (h | h | h)
            · simp at h
            · exact a2 (.inl h)
            · exact a2 (.inr (.inl h))
          have b3 : ¬ (c.fill.after n ≠ .settled ∧ (overlay c.qbase a).isSome = true) :=
            fun hh => a3 ⟨fun hs => hh.1 (by rw [hs]; rfl), hh.2⟩
          rw [if_neg a1, if_neg b2, if_neg b3, remapsAfter_any (fun b n => id) (by simpa using a4)]
          rfl

/-! ## The condition field (30_encoding.md R97) -/

/-- The table by flags: bit `2*C + Z` of the field. -/
theorem cond_eq_bit (k : BitVec 4) (cf zf : Bool) : cond k cf zf = k.getLsbD (2 * cf.toNat + zf.toNat) := by
  revert k; cases cf <;> cases zf <;> decide

/-! ## The counter (70_reset_and_hazards.md R345) -/

theorem State.passClocks_passClocks (s : State) (m n : Nat) : (s.passClocks m).passClocks n = s.passClocks (m + n) := by
  refine State.eq_of_parts (fun k => ?_) ?_ rfl rfl rfl
  · by_cases h : k = s.turn
    · subst h
      show ((s.passClocks m).passClocks n).cur = (s.passClocks (m + n)).cur
      simp [Nat.add_assoc]
    · rw [State.passClocks_cogAt_ne (s.passClocks m) h, State.passClocks_cogAt_ne s h, State.passClocks_cogAt_ne s h]
  · simp [BitVec.ofNat_add, BitVec.add_assoc, Nat.add_assoc]

/-- A read of the counter: at least the clocks due have passed. -/
theorem State.sampleCnt_eq (s : State) :
    ∃ n, s.clocksToDue ≤ n ∧ s.sampleCnt = (s.passClocks n).drawn 1 :=
  ⟨_, Nat.le_add_right _ _, rfl⟩

/-- The read of a pass of PASSCNT, and how little a further pass lets go by (46_cnt_wait.md R258; log 39). -/
theorem State.samplePasscnt_eq (s : State) :
    ∃ n, s.clocksToDue ≤ n ∧ (s.cur.passAt ≠ none → n < s.clocksToDue + 2 ^ 31) ∧
      s.samplePasscnt = (s.passClocks n).drawn 1 := by
  unfold State.samplePasscnt
  cases h : s.cur.passAt with
  | none => exact ⟨_, Nat.le_add_right _ _, by simp, rfl⟩
  | some m => exact ⟨_, Nat.le_add_right _ _, fun _ => Nat.add_lt_add_left (Nat.mod_lt _ (by decide)) _, rfl⟩

theorem cntl_add (c : BitVec 64) (n : Nat) : cntl (c + BitVec.ofNat 64 n) = cntl c + BitVec.ofNat 32 n := by
  apply BitVec.eq_of_toNat_eq
  simp only [cntl, BitVec.extractLsb'_toNat, BitVec.toNat_add, BitVec.toNat_ofNat, Nat.shiftRight_zero]
  omega

theorem cntl_toTarget (c : BitVec 64) (target : Word) : cntl (c + BitVec.ofNat 64 (target - cntl c).toNat) = target := by
  rw [cntl_add, BitVec.ofNat_toNat, BitVec.setWidth_eq, BitVec.add_comm, BitVec.sub_add_cancel]

theorem cntPassed_self (x : Word) : cntPassed (x - x) = true := by simp [cntPassed]

/-- From a passed target to the next time it is reached there are at most 2^32 clocks. -/
theorem clocks_past_target (x target : Word) (n : Nat) (hp : cntPassed (x - target) = true) (hn : n < 2 ^ 32)
    (hq : ¬ cntPassed (x + BitVec.ofNat 32 n - target) = true) : n + (target - (x + BitVec.ofNat 32 n)).toNat ≤ 2 ^ 32 := by
  have passed_iff : ∀ y : Word, cntPassed y = true ↔ y.toNat < 2 ^ 31 := by
    intro y
    rw [cntPassed, ← BitVec.msb_eq_getLsbD_last, BitVec.msb_eq_decide]
    simp
  rw [passed_iff] at hp hq
  have hx := x.isLt
  have ht := target.isLt
  simp only [BitVec.toNat_sub, BitVec.toNat_add, BitVec.toNat_ofNat, Nat.mod_eq_of_lt hn] at hp hq ⊢
  norm_num at hp hq hx ht hn ⊢
  omega

/-- The moment a wait for CNTL ends: within 2^32 clocks; the target has been passed then, and reached exactly if it was ahead
(46_cnt_wait.md R260). -/
theorem State.reachTarget_eq (s : State) (target : Word) :
    ∃ n k, s.reachTarget target = (s.passClocks n).drawn k ∧ n ≤ 2 ^ 32 ∧
      cntPassed (cntl (s.hub.cnt + BitVec.ofNat 64 n) - target) = true ∧
      (cntPassed (cntl s.hub.cnt - target) = false → cntl (s.hub.cnt + BitVec.ofNat 64 n) = target) := by
  unfold State.reachTarget
  split
  · next hp =>
    have hn := Nat.mod_lt (Config.clockDraw s.draws) (show 0 < 2 ^ 32 by decide)
    generalize Config.clockDraw s.draws % 2 ^ 32 = n at hn
    by_cases hq : cntPassed (cntl ((s.passClocks n).drawn 1).hub.cnt - target) = true
    · exact ⟨n, 1, if_pos hq, hn.le, hq, fun hf => by simp [hp] at hf⟩
    · refine ⟨n + ((s.passClocks n).drawn 1).clocksToTarget target, 1, (if_neg hq).trans ?_, ?_, ?_, fun hf => by simp [hp] at hf⟩
      · rw [← State.passClocks_passClocks]; rfl
      · simp only [State.clocksToTarget, State.drawn_hub, State.passClocks_hub, cntl_add] at hq ⊢
        exact clocks_past_target _ _ n hp hn hq
      · rw [BitVec.ofNat_add, ← BitVec.add_assoc]
        simp only [State.clocksToTarget, State.drawn_hub, State.passClocks_hub, cntl_toTarget, cntPassed_self]
  · refine ⟨s.clocksToTarget target, 0, rfl, (BitVec.isLt _).le, ?_, fun _ => ?_⟩ <;>
      simp only [State.clocksToTarget, cntl_toTarget, cntPassed_self]

end Sys2Proof.Machine
end

