-- ==== Sys2Proof/Laws/PerInstr.lean ====
section
/-! SUPPORT. One lemma per constructor: the fields of an instruction match its own row. -/

namespace Sys2Proof

@[simp] theorem Fields.split_join (f : Fields) : Fields.split f.join = f := by
  obtain ⟨op, z, c, r, i, cccc, d, s⟩ := f
  simp only [Fields.split, Fields.join, Fields.mk.injEq]
  refine ⟨?_, ?_, ?_, ?_, ?_, ?_, ?_, ?_⟩
  case refine_2 | refine_3 | refine_4 | refine_5 => simp only [BitVec.getLsbD_append]; simp
  all_goals
    ext j hj
    rw [BitVec.getElem_extractLsb']
    repeat rw [BitVec.getLsbD_append]
    first
      | rw [if_pos (by omega)]
      | rw [if_neg (by omega), if_pos (by omega)]
      | rw [if_neg (by omega), if_neg (by omega), if_pos (by omega)]
      | rw [if_neg (by omega), if_neg (by omega), if_neg (by omega), if_neg (by omega), if_neg (by omega), if_neg (by omega),
          if_neg (by omega)]
    rw [← BitVec.getLsbD_eq_getElem]
    congr 1
    omega

@[simp] theorem PtrExpr.ofBits_bits (p : PtrExpr) : PtrExpr.ofBits p.bits = p := by
  obtain ⟨sel, u, q, n⟩ := p
  revert n u q
  cases sel <;> decide

@[simp] theorem Src.ofField_iBit_field (src : Src) : Src.ofField src.iBit src.field = src := by cases src <;> rfl

end Sys2Proof

namespace Sys2Proof.Laws.RoundTrip

/-! ## The family `RoundTrip` -/

/-- The row that an instruction's fields match is its own, with its operands (30_encoding.md R106). -/
def Statement (i : Instr) : Prop := decodeFields i.fields = some i

theorem wrbyteS (cccc : BitVec 4) (d s : RegAddr) : Statement (.wrbyteS cccc d s) := rfl
theorem wrbyteP (cccc : BitVec 4) (d : RegAddr) (p : PtrExpr) : Statement (.wrbyteP cccc d p) := by
  simp [Statement, Instr.fields, decodeFields, decodeHub]
theorem rdbyteS (z : Bool) (cccc : BitVec 4) (d s : RegAddr) : Statement (.rdbyteS z cccc d s) := rfl
theorem rdbyteP (z : Bool) (cccc : BitVec 4) (d : RegAddr) (p : PtrExpr) : Statement (.rdbyteP z cccc d p) := by
  simp [Statement, Instr.fields, decodeFields, decodeHub]
theorem rdbytecS (z : Bool) (cccc : BitVec 4) (d s : RegAddr) : Statement (.rdbytecS z cccc d s) := rfl
theorem rdbytecP (z : Bool) (cccc : BitVec 4) (d : RegAddr) (p : PtrExpr) : Statement (.rdbytecP z cccc d p) := by
  simp [Statement, Instr.fields, decodeFields, decodeHub]
theorem wrwordS (cccc : BitVec 4) (d s : RegAddr) : Statement (.wrwordS cccc d s) := rfl
theorem wrwordP (cccc : BitVec 4) (d : RegAddr) (p : PtrExpr) : Statement (.wrwordP cccc d p) := by
  simp [Statement, Instr.fields, decodeFields, decodeHub]
theorem rdwordS (z : Bool) (cccc : BitVec 4) (d s : RegAddr) : Statement (.rdwordS z cccc d s) := rfl
theorem rdwordP (z : Bool) (cccc : BitVec 4) (d : RegAddr) (p : PtrExpr) : Statement (.rdwordP z cccc d p) := by
  simp [Statement, Instr.fields, decodeFields, decodeHub]
theorem rdwordcS (z : Bool) (cccc : BitVec 4) (d s : RegAddr) : Statement (.rdwordcS z cccc d s) := rfl
theorem rdwordcP (z : Bool) (cccc : BitVec 4) (d : RegAddr) (p : PtrExpr) : Statement (.rdwordcP z cccc d p) := by
  simp [Statement, Instr.fields, decodeFields, decodeHub]
theorem wrlongS (cccc : BitVec 4) (d s : RegAddr) : Statement (.wrlongS cccc d s) := rfl
theorem wrlongP (cccc : BitVec 4) (d : RegAddr) (p : PtrExpr) : Statement (.wrlongP cccc d p) := by
  simp [Statement, Instr.fields, decodeFields, decodeHub]
theorem rdlongS (z : Bool) (cccc : BitVec 4) (d s : RegAddr) : Statement (.rdlongS z cccc d s) := rfl
theorem rdlongP (z : Bool) (cccc : BitVec 4) (d : RegAddr) (p : PtrExpr) : Statement (.rdlongP z cccc d p) := by
  simp [Statement, Instr.fields, decodeFields, decodeHub]
theorem rdlongcS (z : Bool) (cccc : BitVec 4) (d s : RegAddr) : Statement (.rdlongcS z cccc d s) := rfl
theorem rdlongcP (z : Bool) (cccc : BitVec 4) (d : RegAddr) (p : PtrExpr) : Statement (.rdlongcP z cccc d p) := by
  simp [Statement, Instr.fields, decodeFields, decodeHub]
theorem wrquadD (cccc : BitVec 4) (d : RegAddr) : Statement (.wrquadD cccc d) := rfl
theorem wrquadP (cccc : BitVec 4) (p : PtrExpr) : Statement (.wrquadP cccc p) := by
  simp [Statement, Instr.fields, Fields.sub, decodeFields, decodeSub, decodeRegOrNumber]
theorem rdquadD (cccc : BitVec 4) (d : RegAddr) : Statement (.rdquadD cccc d) := rfl
theorem rdquadP (cccc : BitVec 4) (p : PtrExpr) : Statement (.rdquadP cccc p) := by
  simp [Statement, Instr.fields, Fields.sub, decodeFields, decodeSub, decodeRegOrNumberByC]
theorem rdquadcD (cccc : BitVec 4) (d : RegAddr) : Statement (.rdquadcD cccc d) := rfl
theorem rdquadcP (cccc : BitVec 4) (p : PtrExpr) : Statement (.rdquadcP cccc p) := by
  simp [Statement, Instr.fields, Fields.sub, decodeFields, decodeSub, decodeRegOrNumberByC]
theorem getptra (z c r : Bool) (cccc : BitVec 4) (d : RegAddr) : Statement (.getptra z c r cccc d) := rfl
theorem getptrb (z c r : Bool) (cccc : BitVec 4) (d : RegAddr) : Statement (.getptrb z c r cccc d) := rfl
theorem setptraD (cccc : BitVec 4) (d : RegAddr) : Statement (.setptraD cccc d) := rfl
theorem setptraI (cccc : BitVec 4) (n : BitVec 9) : Statement (.setptraI cccc n) := rfl
theorem setptrbD (cccc : BitVec 4) (d : RegAddr) : Statement (.setptrbD cccc d) := rfl
theorem setptrbI (cccc : BitVec 4) (n : BitVec 9) : Statement (.setptrbI cccc n) := rfl
theorem addptraD (cccc : BitVec 4) (d : RegAddr) : Statement (.addptraD cccc d) := rfl
theorem addptraI (cccc : BitVec 4) (n : BitVec 9) : Statement (.addptraI cccc n) := rfl
theorem addptrbD (cccc : BitVec 4) (d : RegAddr) : Statement (.addptrbD cccc d) := rfl
theorem addptrbI (cccc : BitVec 4) (n : BitVec 9) : Statement (.addptrbI cccc n) := rfl
theorem subptraD (cccc : BitVec 4) (d : RegAddr) : Statement (.subptraD cccc d) := rfl
theorem subptraI (cccc : BitVec 4) (n : BitVec 9) : Statement (.subptraI cccc n) := rfl
theorem subptrbD (cccc : BitVec 4) (d : RegAddr) : Statement (.subptrbD cccc d) := rfl
theorem subptrbI (cccc : BitVec 4) (n : BitVec 9) : Statement (.subptrbI cccc n) := rfl
theorem cachex (cccc : BitVec 4) : Statement (.cachex cccc) := rfl
theorem gettops (z : Bool) (cccc : BitVec 4) (d : RegAddr) : Statement (.gettops z cccc d) := rfl
theorem setquadD (cccc : BitVec 4) (d : RegAddr) : Statement (.setquadD cccc d) := rfl
theorem setquadI (cccc : BitVec 4) (n : BitVec 9) : Statement (.setquadI cccc n) := rfl
theorem setquazD (cccc : BitVec 4) (d : RegAddr) : Statement (.setquazD cccc d) := rfl
theorem setquazI (cccc : BitVec 4) (n : BitVec 9) : Statement (.setquazI cccc n) := rfl
theorem coginit (z c r : Bool) (cccc : BitVec 4) (d s : RegAddr) : Statement (.coginit z c r cccc d s) := rfl
theorem clkset (cccc : BitVec 4) (d : RegAddr) : Statement (.clkset cccc d) := rfl
theorem cogid (cccc : BitVec 4) (d : RegAddr) : Statement (.cogid cccc d) := rfl
theorem cogstop (cccc : BitVec 4) (d : RegAddr) : Statement (.cogstop cccc d) := rfl
theorem locknew (z c : Bool) (cccc : BitVec 4) (d : RegAddr) : Statement (.locknew z c cccc d) := rfl
theorem lockret (cccc : BitVec 4) (d : RegAddr) : Statement (.lockret cccc d) := rfl
theorem lockset (c : Bool) (cccc : BitVec 4) (d : RegAddr) : Statement (.lockset c cccc d) := rfl
theorem lockclr (c : Bool) (cccc : BitVec 4) (d : RegAddr) : Statement (.lockclr c cccc d) := rfl
theorem setindaSet (addr : BitVec 9) : Statement (.setindaSet addr) := rfl
theorem setindaAdj (delta : BitVec 9) : Statement (.setindaAdj delta) := rfl
theorem setindbSet (addr : BitVec 9) : Statement (.setindbSet addr) := rfl
theorem setindbAdj (delta : BitVec 9) : Statement (.setindbAdj delta) := rfl
theorem setindsSetSet (addrB addrA : BitVec 9) : Statement (.setindsSetSet addrB addrA) := rfl
theorem setindsSetAdj (addrB deltaA : BitVec 9) : Statement (.setindsSetAdj addrB deltaA) := rfl
theorem setindsAdjSet (deltaB addrA : BitVec 9) : Statement (.setindsAdjSet deltaB addrA) := rfl
theorem setindsAdjAdj (deltaB deltaA : BitVec 9) : Statement (.setindsAdjAdj deltaB deltaA) := rfl
theorem fixinda (terminal initial : BitVec 9) : Statement (.fixinda terminal initial) := rfl
theorem fixindb (terminal initial : BitVec 9) : Statement (.fixindb terminal initial) := rfl
theorem fixinds (terminal initial : BitVec 9) : Statement (.fixinds terminal initial) := rfl
theorem subcnt (z c : Bool) (cccc : BitVec 4) (d : RegAddr) : Statement (.subcnt z c cccc d) := rfl
theorem cmpcnt (z c : Bool) (cccc : BitVec 4) (d : RegAddr) : Statement (.cmpcnt z c cccc d) := rfl
theorem passcnt (cccc : BitVec 4) (d : RegAddr) : Statement (.passcnt cccc d) := rfl
theorem getcnt (cccc : BitVec 4) (d : RegAddr) : Statement (.getcnt cccc d) := rfl
theorem waitcnt (wide r : Bool) (cccc : BitVec 4) (d : RegAddr) (src : Src) : Statement (.waitcnt wide r cccc d src) := by
  simp [Statement, Instr.fields, decodeFields, decodeWait]
theorem waitpeq (cccc : BitVec 4) (d : RegAddr) (src : Src) : Statement (.waitpeq cccc d src) := by
  simp [Statement, Instr.fields, decodeFields, decodeWait]
theorem waitpne (cccc : BitVec 4) (d : RegAddr) (src : Src) : Statement (.waitpne cccc d src) := by
  simp [Statement, Instr.fields, decodeFields, decodeWait]
theorem mov (cccc : BitVec 4) (d : RegAddr) (src : Src) : Statement (.mov cccc d src) := by
  simp [Statement, Instr.fields, decodeFields, decodePlain]
theorem add (cccc : BitVec 4) (d : RegAddr) (src : Src) : Statement (.add cccc d src) := by
  simp [Statement, Instr.fields, decodeFields, decodePlain]

end Sys2Proof.Laws.RoundTrip
end

