-- ==== Sys2Proof/Tests/Slice0.lean ====
section
/-! SUPPORT. Tests on fixed values: words written out from the spec's encodings, one-step vectors of 95_test_vectors.md (named
there H, V, Q, L, G, I, T, M), and for every obligation with hypotheses a witness that they can be met together. -/

namespace Sys2Proof.Tests

open Sys2Proof Sys2Proof.Machine

/-! ## WellFormed smoke: each check refuses an ill-formed term -/

/-- `SETPTRA #$1F6` (30_encoding.md R92, U10; vector V12) and `WRQUAD` with a PTR field of $1F6 (vector H25). -/
theorem test_number_naming_inda_is_ill_formed :
    (Instr.setptraI 0b1111 0x1F6).wellFormed = false ∧ (Instr.wrquadP 0b1111 ⟨.ptrb, true, true, 0b110110⟩).wellFormed = false ∧
    (Instr.setquadI 0b1111 0x1F7).defect = some .fieldNamesInd := by decide

/-- `PASSCNT INDA++` (46_cnt_wait.md R258, U31); `PASSCNT INDA` has a meaning. -/
theorem test_moving_passcnt_is_ill_formed :
    (Instr.passcnt 0b0100 0x1F6).defect = some .passcntPostModifies ∧ (Instr.passcnt 0b0011 0x1F6).wellFormed = true := by decide

/-- The decoder refuses them by name. -/
theorem test_decode_refuses_ill_formed :
    decode 0x0CFFECB2 = .error (.noMeaning .fieldNamesInd) ∧ decode 0x0CFFECB0 = .error (.noMeaning .fieldNamesInd) ∧
    decode 0b000011_000_1_0100_111110110_000001101 = .error (.noMeaning .passcntPostModifies) := by decide

/-! ## Decoding: a word for every constructor, field by field from its row of the opcode table -/

theorem test_decode_hub_bytes :
    decode 0b000000_000_0_1100_000010000_000010001 = .ok (.wrbyteS 0b1100 0x010 0x011) ∧
    decode 0b000000_000_1_1111_000010000_011001111 = .ok (.wrbyteP 0b1111 0x010 ⟨.ptra, true, true, 0b001111⟩) ∧
    decode 0b000000_101_0_1111_000010000_000010001 = .ok (.rdbyteS true 0b1111 0x010 0x011) ∧
    decode 0b000000_001_1_1100_000010000_011001111 = .ok (.rdbyteP false 0b1100 0x010 ⟨.ptra, true, true, 0b001111⟩) ∧
    decode 0b000000_111_0_1111_000010000_000010001 = .ok (.rdbytecS true 0b1111 0x010 0x011) ∧
    decode 0b000000_011_1_1111_000010000_011001111 = .ok (.rdbytecP false 0b1111 0x010 ⟨.ptra, true, true, 0b001111⟩) := by decide

theorem test_decode_hub_words :
    decode 0b000001_000_0_1100_000010000_000010001 = .ok (.wrwordS 0b1100 0x010 0x011) ∧
    decode 0b000001_000_1_1111_000010000_011001111 = .ok (.wrwordP 0b1111 0x010 ⟨.ptra, true, true, 0b001111⟩) ∧
    decode 0b000001_101_0_1111_000010000_000010001 = .ok (.rdwordS true 0b1111 0x010 0x011) ∧
    decode 0b000001_001_1_1100_000010000_011001111 = .ok (.rdwordP false 0b1100 0x010 ⟨.ptra, true, true, 0b001111⟩) ∧
    decode 0b000001_111_0_1111_000010000_000010001 = .ok (.rdwordcS true 0b1111 0x010 0x011) ∧
    decode 0b000001_011_1_1111_000010000_011001111 = .ok (.rdwordcP false 0b1111 0x010 ⟨.ptra, true, true, 0b001111⟩) := by decide

theorem test_decode_hub_longs :
    decode 0b000010_000_0_1100_000010000_000010001 = .ok (.wrlongS 0b1100 0x010 0x011) ∧
    decode 0b000010_000_1_1111_000010000_011001111 = .ok (.wrlongP 0b1111 0x010 ⟨.ptra, true, true, 0b001111⟩) ∧
    decode 0b000010_101_0_1111_000010000_000010001 = .ok (.rdlongS true 0b1111 0x010 0x011) ∧
    decode 0b000010_001_1_1100_000010000_011001111 = .ok (.rdlongP false 0b1100 0x010 ⟨.ptra, true, true, 0b001111⟩) ∧
    decode 0b000010_111_0_1111_000010000_000010001 = .ok (.rdlongcS true 0b1111 0x010 0x011) ∧
    decode 0b000010_011_1_1111_000010000_011001111 = .ok (.rdlongcP false 0b1111 0x010 ⟨.ptra, true, true, 0b001111⟩) := by decide

theorem test_decode_quad_transfers :
    decode 0b000011_000_1_1100_000010000_010110000 = .ok (.wrquadD 0b1100 0x010) ∧
    decode 0b000011_001_1_1111_100000111_010110000 = .ok (.wrquadP 0b1111 ⟨.ptrb, false, false, 0b000111⟩) ∧
    decode 0b000011_000_1_1111_000010000_010110001 = .ok (.rdquadD 0b1111 0x010) ∧
    decode 0b000011_001_1_1100_100000111_010110001 = .ok (.rdquadP 0b1100 ⟨.ptrb, false, false, 0b000111⟩) ∧
    decode 0b000011_010_1_1111_000010000_010110001 = .ok (.rdquadcD 0b1111 0x010) ∧
    decode 0b000011_011_1_1111_100000111_010110001 = .ok (.rdquadcP 0b1111 ⟨.ptrb, false, false, 0b000111⟩) := by decide

theorem test_decode_pointers :
    decode 0b000011_101_1_1100_000010000_000010010 = .ok (.getptra true false true 0b1100 0x010) ∧
    decode 0b000011_011_1_1111_000010000_000010011 = .ok (.getptrb false true true 0b1111 0x010) ∧
    decode 0b000011_000_1_1111_000010000_010110010 = .ok (.setptraD 0b1111 0x010) ∧
    decode 0b000011_001_1_1100_000110010_010110010 = .ok (.setptraI 0b1100 0x032) ∧
    decode 0b000011_000_1_1111_000010000_010110011 = .ok (.setptrbD 0b1111 0x010) ∧
    decode 0b000011_001_1_1111_000110010_010110011 = .ok (.setptrbI 0b1111 0x032) ∧
    decode 0b000011_000_1_1100_000010000_010110100 = .ok (.addptraD 0b1100 0x010) ∧
    decode 0b000011_001_1_1111_000110010_010110100 = .ok (.addptraI 0b1111 0x032) ∧
    decode 0b000011_000_1_1111_000010000_010110101 = .ok (.addptrbD 0b1111 0x010) ∧
    decode 0b000011_001_1_1100_000110010_010110101 = .ok (.addptrbI 0b1100 0x032) ∧
    decode 0b000011_000_1_1111_000010000_010110110 = .ok (.subptraD 0b1111 0x010) ∧
    decode 0b000011_001_1_1111_000110010_010110110 = .ok (.subptraI 0b1111 0x032) ∧
    decode 0b000011_000_1_1100_000010000_010110111 = .ok (.subptrbD 0b1100 0x010) ∧
    decode 0b000011_001_1_1111_000110010_010110111 = .ok (.subptrbI 0b1111 0x032) := by decide

theorem test_decode_quad_control :
    decode 0b000011_000_1_1111_000000000_000001000 = .ok (.cachex 0b1111) ∧
    decode 0b000011_001_1_1100_000010000_000010001 = .ok (.gettops false 0b1100 0x010) ∧
    decode 0b000011_000_1_1111_000010000_011100010 = .ok (.setquadD 0b1111 0x010) ∧
    decode 0b000011_001_1_1111_000110010_011100010 = .ok (.setquadI 0b1111 0x032) ∧
    decode 0b000011_010_1_1100_000010000_011100010 = .ok (.setquazD 0b1100 0x010) ∧
    decode 0b000011_011_1_1111_000110010_011100010 = .ok (.setquazI 0b1111 0x032) := by decide

theorem test_decode_hub_control :
    decode 0b000011_101_0_1111_000010000_000010001 = .ok (.coginit true false true 0b1111 0x010 0x011) ∧
    decode 0b000011_000_1_1100_000010000_000000000 = .ok (.clkset 0b1100 0x010) ∧
    decode 0b000011_001_1_1111_000010000_000000001 = .ok (.cogid 0b1111 0x010) ∧
    decode 0b000011_000_1_1111_000010000_000000011 = .ok (.cogstop 0b1111 0x010) ∧
    decode 0b000011_101_1_1100_000010000_000000100 = .ok (.locknew true false 0b1100 0x010) ∧
    decode 0b000011_000_1_1111_000010000_000000101 = .ok (.lockret 0b1111 0x010) ∧
    decode 0b000011_000_1_1111_000010000_000000110 = .ok (.lockset false 0b1111 0x010) ∧
    decode 0b000011_010_1_1100_000010000_000000111 = .ok (.lockclr true 0b1100 0x010) := by decide

theorem test_decode_indirect_registers :
    decode 0b111000_000_0_0001_000000000_001100011 = .ok (.setindaSet 0x063) ∧
    decode 0b111000_000_0_0011_000000000_001100011 = .ok (.setindaAdj 0x063) ∧
    decode 0b111000_000_0_0100_000110010_000000000 = .ok (.setindbSet 0x032) ∧
    decode 0b111000_000_0_1100_000110010_000000000 = .ok (.setindbAdj 0x032) ∧
    decode 0b111000_000_0_0101_000110010_001100011 = .ok (.setindsSetSet 0x032 0x063) ∧
    decode 0b111000_000_0_0111_000110010_001100011 = .ok (.setindsSetAdj 0x032 0x063) ∧
    decode 0b111000_000_0_1101_000110010_001100011 = .ok (.setindsAdjSet 0x032 0x063) ∧
    decode 0b111000_000_0_1111_000110010_001100011 = .ok (.setindsAdjAdj 0x032 0x063) ∧
    decode 0b111001_000_0_0001_000001111_000001000 = .ok (.fixinda 0x00F 0x008) ∧
    decode 0b111001_000_0_0100_000001111_000001000 = .ok (.fixindb 0x00F 0x008) ∧
    decode 0b111001_000_0_0101_000001111_000001000 = .ok (.fixinds 0x00F 0x008) := by decide

theorem test_decode_counter_and_waits :
    decode 0b000011_010_1_1100_000010000_000001100 = .ok (.subcnt false true 0b1100 0x010) ∧
    decode 0b000011_101_1_1111_000010000_000001100 = .ok (.cmpcnt true false 0b1111 0x010) ∧
    decode 0b000011_000_1_1111_000010000_000001101 = .ok (.passcnt 0b1111 0x010) ∧
    decode 0b000011_001_1_1100_000010000_000001101 = .ok (.getcnt 0b1100 0x010) ∧
    decode 0b111111_001_1_1111_000010000_111110100 = .ok (.waitcnt false true 0b1111 0x010 (.imm 0x1F4)) ∧
    decode 0b111111_110_0_1111_000010000_000010001 = .ok (.waitpeq 0b1111 0x010 (.reg 0x011)) ∧
    decode 0b111111_111_1_1100_000010000_111110100 = .ok (.waitpne 0b1100 0x010 (.imm 0x1F4)) := by decide

theorem test_decode_mov_and_add :
    decode 0b101000_001_0_1111_000010000_000010001 = .ok (.mov 0b1111 0x010 (.reg 0x011)) ∧
    decode 0b100000_001_1_1111_000010000_111110100 = .ok (.add 0b1111 0x010 (.imm 0x1F4)) := by decide

/-- The encoder writes the words that the spec prints in hexadecimal (95_test_vectors.md sections 1.2, 1.6). -/
theorem test_encode_printed_words :
    encode (.rdquadP 0b1111 ⟨.ptrb, true, false, 1⟩) = 0x0CFF02B1 ∧ encode (.mov 0b0011 0x1F6 (.reg 0x1F6)) = 0xA08FEDF6 ∧
    encode (.fixinds 99 50) = 0xE414C632 ∧ encode (.waitcnt false true 0b1111 0x010 (.imm 500)) = 0xFCFC21F4 := by decide

/-- Longs that match no row (vectors Q2, L11, L14, I16, T18, M7, and the longs of the ROM at $00010). -/
theorem test_decode_refuses_unlisted :
    decode 0x0C7C0208 = .error .unlisted ∧ decode 0x0F7C2006 = .error .unlisted ∧ decode 0x0C7C2002 = .error .unlisted ∧
    decode 0xE0040205 = .error .unlisted ∧ decode 0xE0080005 = .error .unlisted ∧ decode 0xE43C0005 = .error .unlisted ∧
    decode 0xFE3C2011 = .error .unlisted ∧ decode 0xA1BC2011 = .error .unlisted ∧ decode 0x54BC2011 = .error .unlisted ∧
    decode 0x0DC1FE45 = .error .unlisted := by decide

/-- The host's layout: the bytes of a table word in hub order. -/
theorem test_decodeTableWord : decodeTableWord 32 0x0C7CCC03 = some (.cogstop 0b1111 0x066) ∧ decodeTableWord 16 0xCC03 =
    some (.wrbyteS 0 0x066 0x003) := by decide

/-- The ten named PTR spellings (40_hub_memory.md R122), at scale 4 from PTRA = PTRB = $01000: address and pointer after. -/
theorem test_ptr_spellings :
    ([0b000000000, 0b100000000, 0b011000001, 0b111000001, 0b011111111, 0b111111111, 0b010000001, 0b110000001, 0b010111111,
      0b110111111] : List (BitVec 9)).map (fun f =>
        let c : Cog := { Cog.reset with ptra := 0x01000, ptrb := 0x01000 }
        let p := PtrExpr.ofBits f
        (c.ptrEA p .long, (c.ptrUpdate p .long).ptr p.sel)) =
    [(0x01000, 0x01000), (0x01000, 0x01000), (0x01000, 0x01004), (0x01000, 0x01004), (0x01000, 0x00FFC), (0x01000, 0x00FFC),
      (0x01004, 0x01004), (0x01004, 0x01004), (0x00FFC, 0x00FFC), (0x00FFC, 0x00FFC)] := by decide

/-! ## One step each, from the vectors of 95_test_vectors.md -/

/-- Cog 0 running from $000 with the given changes, every other cog idle, no chip reset pending. -/
def running (f : Cog → Cog) : State :=
  { State.reset.modCur (fun c => { f c with run := .running }) with resetPending := false }

/-- The step runs the word from the state and answers a next state with the property. -/
def runs (s : State) (iw : Nat) (p : State → Bool) : Bool :=
  match step (s.withFetchWord 32 iw) with
  | .next t => p t
  | _ => false

/-- The step refuses the word from the state, by the given name. -/
def refuses (s : State) (iw : Nat) (e : Refusal) : Bool :=
  match step (s.withFetchWord 32 iw) with
  | .refused r => r == e
  | _ => false

/-- Cog `k` is loading from the address with the parameter. -/
def loads (t : State) (k : CogId) (addr par : HubAddr) : Bool :=
  match (t.cogAt k).run with
  | .loading l => l.addr == addr && l.par == par
  | _ => false

/-- The start of the hub vectors: $010 and $011 hold these longs. -/
def two (d s : Word) : State := running fun c => { c with ram := [(0x010, d), (0x011, s)] }

/-- H1, H3, H4, H5, H7. -/
theorem test_hub_writes :
    runs (two 0x12345678 0x00001003) 0x003C2011 (fun t => t.hub.mem == [(0x1003, 0x78)]) = true ∧
    runs (two 0x12345678 0x00001003) 0x043C2011 (fun t => t.hub.mem == [(0x1002, 0x78), (0x1003, 0x56)]) = true ∧
    runs (two 0x12345678 0xFFFE1003) 0x083C2011
      (fun t => t.hub.mem == [(0x1000, 0x78), (0x1001, 0x56), (0x1002, 0x34), (0x1003, 0x12)]) = true ∧
    runs (two 0x12345678 0x00000E7C) 0x083C2011 (fun t => t.hub.mem == []) = true ∧
    runs (two 0x12345678 0x0001FFFF) 0x083C2011
      (fun t => t.hub.mem == [(0x1FFFC, 0x78), (0x1FFFD, 0x56), (0x1FFFE, 0x34), (0x1FFFF, 0x12)]) = true := by decide

/-- H22, H24. -/
theorem test_write_through_pointer :
    runs (two 0x12345678 0) 0x007C20BF (fun t => t.hub.mem == [(0x1FFFF, 0x78)] && t.cur.ptra == 0x1FFFF) = true ∧
    runs (two 0x12345678 0) 0x08402000 (fun t => t.hub.mem == [] && t.cur.ptra == 0) = true := by decide

/-- H8, H9, H10, H11, H12. -/
theorem test_hub_reads :
    runs (two 7 5) 0x00BC2011 (fun t => t.cur.reg 0x010 == 0x2E) = true ∧
    runs (two 7 5) 0x06BC2011 (fun t => t.cur.reg 0x010 == 0x2E32 && !t.cur.zf) = true ∧
    runs (two 7 5) 0x08BC2011 (fun t => t.cur.reg 0x010 == 0x20302E32) = true ∧
    runs (two 7 8) 0x02BC2011 (fun t => t.cur.reg 0x010 == 0 && t.cur.zf) = true ∧
    runs (two 0x0C 0) 0x08BC2010 (fun t => t.cur.reg 0x010 == 0x0C7CCC03) = true := by decide

/-- H21. -/
theorem test_read_through_pointer :
    runs { running (fun c => { c with ptra := 0x1FFFC }) with
        hub := { Hub.reset with mem := [(0x1FFFC, 0xEF), (0x1FFFD, 0xBE), (0x1FFFE, 0xAD), (0x1FFFF, 0xDE)] } }
      0x08FC20C1 (fun t => t.cur.reg 0x010 == 0xDEADBEEF && t.cur.ptra == 0) = true := by decide

/-- The QUADs of the first quad of ROM (H13). -/
def romQuad : Vector Word 4 := #v[0x706F7250, 0x20302E32, 0x0C7C2000, 0x0C7CCC03]

/-- Cog 0 as vector H13 leaves it, with `v` in $011 and $012. -/
def cached (v : Word) : State :=
  running fun c => { c with ram := [(0x011, v), (0x012, v)], quad := romQuad, cacheValid := true, cacheTag := 0 }

/-- H13, H14, H15. -/
theorem test_cached_reads :
    runs (two 7 5) 0x01BC2011
      (fun t => t.cur.reg 0x010 == 0x2E && t.cur.quad == romQuad && t.cur.cacheValid && t.cur.cacheTag == 0) = true ∧
    runs (cached 0x0B) 0x05BC2011 (fun t => t.cur.reg 0x010 == 0x0C7C && t.cur.fill == .settled) = true ∧
    runs (cached 0x10) 0x09BC2011 (fun t => t.cur.reg 0x010 == 0x0DC1FE45 && t.cur.cacheTag == 1 &&
      t.cur.quad == #v[0x0DC1FE45, 0x0CFCB6E3, 0x0C7CC601, 0x0D7CC601]) = true := by decide

/-- H18, H19, H20. -/
theorem test_quad_transfers :
    runs (cached 0x0C) 0x0D7C24B1 (fun t => t.cur.quad == romQuad && t.cur.cacheTag == 0) = true ∧
    runs (cached 0x10) 0x0D7C24B1 (fun t => t.cur.cacheTag == 1 && t.cur.fill == .filling 0) = true ∧
    runs (running fun c => { c with ram := [(0x012, 0x0000100F)], quad := #v[1, 2, 3, 4] }) 0x0C7C24B0
      (fun t => t.hub.mem == [(0x1000, 1), (0x1004, 2), (0x1008, 3), (0x100C, 4)]) = true ∧
    runs (running fun c => { c with ram := [(0x012, 0x00000004)] }) 0x0C7C24B1
      (fun t => t.cur.quad == romQuad && t.cur.cacheValid && t.cur.reg 0x012 == 4) = true := by decide

/-- V1, V3, V6, V7, V9, V11. -/
theorem test_pointers :
    runs (running fun c => { c with ptra := 0x10004 }) 0x0DFC2012
      (fun t => t.cur.reg 0x010 == 0x00010004 && t.cur.cf) = true ∧
    runs (two 9 0) 0x0F7C2013 (fun t => t.cur.zf && !t.cur.cf && t.cur.reg 0x010 == 9) = true ∧
    runs (two 0xFFFE1234 0) 0x0C7C20B3 (fun t => t.cur.ptrb == 0x01234) = true ∧
    runs (running fun c => { c with ptra := 0x1FFFC }) 0x0CFC10B4 (fun t => t.cur.ptra == 0x00004) = true ∧
    runs (running fun c => { c with ptra := 0x00004 }) 0x0CFC10B6 (fun t => t.cur.ptra == 0x1FFFC) = true ∧
    runs (running fun c => { c with ram := [(0x010, 0xFFFFFFFC)], ptra := 0x00010 }) 0x0C7C20B4
      (fun t => t.cur.ptra == 0x0000C) = true := by decide

/-- Q1, Q3, Q4. -/
theorem test_quad_control :
    runs (cached 0) 0x0C7C0008 (fun t => !t.cur.cacheValid && t.cur.quad == romQuad) = true ∧
    runs (cached 0) 0x0CFC2011 (fun t => t.cur.reg 0x010 == 0x0C0C2070) = true ∧
    runs (running fun c => { c with quad := Vector.replicate 4 0x00FFFFFF }) 0x0EFC2011
      (fun t => t.cur.reg 0x010 == 0 && t.cur.zf) = true := by decide

/-- Q6, Q7, Q8, Q10. -/
theorem test_quad_base :
    runs (running fun c => { c with ram := [(0x021, 9)], quad := #v[0, 7, 0, 0], qbase := 0x020 }) 0x0CFFFEE2
      (fun t => t.cur.qbase == 0x1FF && t.cur.reg 0x021 == 9 && t.cur.quad == #v[0, 7, 0, 0]) = true ∧
    runs (running fun c => { c with ram := [(0x020, 5), (0x021, 6)], quad := #v[1, 2, 3, 4] }) 0x0DFC40E2
      (fun t => t.cur.qbase == 0x020 && t.cur.quad == Vector.replicate 4 0 && t.cur.underlying 0x021 == 6) = true ∧
    runs (two 0xFFFFFE40 0) 0x0C7C20E2 (fun t => t.cur.qbase == 0x040) = true ∧
    refuses (running id) 0x0CFFE6E2 .quadBase = true := by decide

/-- L1, L2, L3, L12, L13. -/
theorem test_cogs_and_clock :
    runs (running id) 0x0CFC2001 (fun t => t.cur.reg 0x010 == 0) = true ∧
    runs ((two 0x0A 0).modCog 2 fun c => { c with run := .running }) 0x0C7C2003
      (fun t => (t.cogAt 2).run == .idle && (t.cogAt 0).run == .running) = true ∧
    runs (two 0 0) 0x0C7C2003 (fun t => (t.cogAt 0).run == .idle) = true ∧
    runs (two 0xFB 0) 0x0C7C2000 (fun t => t.hub.clkreg == 0b0_1111_10_11) = true ∧
    runs (two 0x100 0) 0x0C7C2000 (fun t => t.resetPending && (t.cogAt 0).run == .idle) = true := by decide

/-- L7, L8, L9, L10, and L4 with one free lock. -/
theorem test_locks :
    runs { two 2 0 with hub := { Hub.reset with lockUsed := #v[true, true, true, false, true, true, true, true] } } 0x0DFC2004
      (fun t => t.cur.reg 0x010 == 3 && t.hub.lockUsed == Vector.replicate 8 true && !t.cur.cf) = true ∧
    runs { two 2 0 with hub := { Hub.reset with lockUsed := Vector.replicate 8 true } } 0x0C7C2005
      (fun t => t.hub.lockUsed == #v[true, true, false, true, true, true, true, true]) = true ∧
    runs (two 5 0) 0x0D7C2006 (fun t => !t.cur.cf && t.hub.locks == #v[false, false, false, false, false, true, false, false]) = true ∧
    runs { two 13 0 with hub := { Hub.reset with locks := Vector.replicate 8 true } } 0x0D7C2007
      (fun t => t.cur.cf && t.hub.locks == #v[true, true, true, true, true, false, true, true]) = true := by decide

/-- G1 and G2 up to the beginning of the load, and G3 with one idle cog. -/
theorem test_coginit :
    runs { (two 0 0).modCog 1 (fun c => { c with run := .running, ram := [(0x010, 0x00001003), (0x011, 0xFFFE2004)] }) with
        turn := 1 } 0x0C3C2011
      (fun t => loads t 0 0x01000 0x02004 && (t.cogAt 1).pc == 1) = true ∧
    runs (two 0x00001003 0) 0x0C3C2011 (fun t => loads t 0 0x01000 0) = true ∧
    runs { two 0 0 with cogs := (Vector.replicate 8 { Cog.reset with run := .running, cogsel := 0b1000 }).set 6 Cog.reset } 0x0DBC2011
      (fun t => (t.cogAt 0).reg 0x010 == 6 && !(t.cogAt 0).cf) = true := by decide

/-- INDA and INDB both as given, and the longs of some registers. -/
def indirect (p : IndReg) (ram : Cells 32) : State := running fun c => { c with inda := p, indb := p, ram := ram }

/-- I5, I6, I7, I9, I10. -/
theorem test_indirect_operands :
    runs (indirect ⟨15, 8, 15⟩ []) 0xA0F3EC01 (fun t => t.cur.reg 8 == 1 && t.cur.inda == ⟨8, 8, 15⟩) = true ∧
    runs (indirect ⟨0x020, 0, 0x1FF⟩ [(0x020, 5), (0x021, 7)]) 0xA08FEDF6
      (fun t => t.cur.reg 0x020 == 7 && t.cur.inda.ptr == 0x021) = true ∧
    runs (indirect ⟨0x020, 0, 0x1FF⟩ [(0x020, 5), (0x021, 7)]) 0x80B3EFF7
      (fun t => t.cur.reg 0x021 == 12 && t.cur.indb.ptr == 0x021) = true ∧
    runs (indirect ⟨0x030, 0, 0x1FF⟩ [(0x030, 1)]) 0x80C3EC0A (fun t => t.cur.reg 0x030 == 11 && t.cur.inda.ptr == 0x030) = true ∧
    runs (indirect ⟨0x030, 0, 0x1FF⟩ [(0x030, 4)]) 0xA09BEDF6
      (fun t => t.cur.reg 0x030 == 4 && t.cur.inda.ptr == 0x031) = true := by decide

/-- I4, I8, I11, I17 on cog 0. -/
theorem test_indirect_wrap_and_refusal :
    runs (indirect ⟨8, 8, 15⟩ []) 0xA0E3EC01 (fun t => t.cur.reg 8 == 1 && t.cur.inda.ptr == 15) = true ∧
    runs (running fun c => { c with inda := ⟨0x030, 0, 0x1FF⟩, indb := ⟨0x031, 0, 0x1FF⟩, ram := [(0x030, 0xAABBCCDD), (0x031, 0x1000)] })
      0x081BEDF7 (fun t => t.hub.mem == [(0x1000, 0xDD), (0x1001, 0xCC), (0x1002, 0xBB), (0x1003, 0xAA)] &&
        t.cur.inda.ptr == 0x031 && t.cur.indb.ptr == 0x030) = true ∧
    refuses (indirect ⟨0x1FF, 0, 0x1FF⟩ []) 0xA083EC01 .indirectTarget = true ∧
    runs (indirect ⟨0x040, 0, 0x1FF⟩ [(0x040, 9)]) 0x0CD3EC01 (fun t => t.cur.reg 0x040 == 0 && t.cur.inda.ptr == 0x041) = true := by
  decide

/-- The seven lines of 95_test_vectors.md section 1.6, and I2, I13, I15. -/
theorem test_set_indirect :
    runs (indirect ⟨9, 1, 2⟩ []) 0xE0040005 (fun t => t.cur.inda == ⟨5, 0, 511⟩ && t.cur.indb == ⟨9, 1, 2⟩) = true ∧
    runs (indirect ⟨5, 1, 2⟩ []) 0xE00C0003 (fun t => t.cur.inda == ⟨8, 0, 511⟩) = true ∧
    runs (indirect ⟨3, 1, 2⟩ []) 0xE033F800 (fun t => t.cur.indb == ⟨511, 0, 511⟩) = true ∧
    runs (indirect ⟨8, 1, 2⟩ []) 0xE01C0E08 (fun t => t.cur.indb == ⟨7, 0, 511⟩ && t.cur.inda == ⟨16, 0, 511⟩) = true ∧
    runs (indirect ⟨8, 1, 2⟩ []) 0xE4041E08 (fun t => t.cur.inda == ⟨8, 8, 15⟩) = true ∧
    runs (indirect ⟨8, 1, 2⟩ []) 0xE410201F (fun t => t.cur.indb == ⟨31, 16, 31⟩ && t.cur.inda == ⟨8, 1, 2⟩) = true ∧
    runs (indirect ⟨8, 1, 2⟩ []) 0xE414C632 (fun t => t.cur.indb == ⟨50, 50, 99⟩ && t.cur.inda == ⟨50, 50, 99⟩) = true ∧
    runs (indirect ⟨8, 1, 2⟩ []) 0xE404100F (fun t => t.cur.inda == ⟨15, 8, 15⟩) = true ∧
    runs (running fun c => { c with inda := ⟨0, 1, 2⟩, indb := ⟨0x1FF, 1, 2⟩ }) 0xE03C03FF
      (fun t => t.cur.indb == ⟨0, 0, 511⟩ && t.cur.inda == ⟨511, 0, 511⟩) = true ∧
    runs (running id) 0xE407EC00 (fun t => t.cur.inda == ⟨0, 0, 0x1F6⟩) = true := by decide

/-- The second halves of T1 and T5 (Z as T6), and T13's register. -/
theorem test_counter_high_halves :
    runs (running fun c => { c with cntPhase := .getcnt, cnthLatch := 1 }) 0x0CFC220D
      (fun t => t.cur.reg 0x011 == 1 && t.cur.cntPhase == .none) = true ∧
    runs (running fun c => { c with cntPhase := .subcnt, cnthLatch := 1, cntBorrow := true, ram := [(0x010, 7)] }) 0x0E7C220C
      (fun t => t.cur.reg 0x011 == 0 && t.cur.zf && t.cur.cntPhase == .none) = true ∧
    runs (running fun c => { c with cntPhase := .cmpcnt, cnthLatch := 1, cntBorrow := true, ram := [(0x010, 1)] }) 0x0FFC200C
      (fun t => !t.cur.cf && !t.cur.zf && t.cur.reg 0x010 == 1) = true ∧
    runs (two 0x1000 0) 0xFDFC21F4 (fun t => t.cur.reg 0x010 == 0x11F4) = true := by decide

/-- T1's first half, as far as it does not depend on the draw: the phase. -/
theorem test_counter_low_half :
    runs (two 0 0) 0x0CFC200D (fun t => t.cur.cntPhase == .getcnt && t.cur.pc == 1) = true := by decide

/-- M1, M2, M3, M4, M9. -/
theorem test_mov_and_add :
    runs (two 0 0xDEADBEEF) 0xA0BC2011 (fun t => t.cur.reg 0x010 == 0xDEADBEEF && t.cur.lastStored == 0xDEADBEEF) = true ∧
    runs (two 0 0) 0xA0FC21FF (fun t => t.cur.reg 0x010 == 0x1FF) = true ∧
    runs (two 0xFFFFFF00 0) 0x80FC21F4 (fun t => t.cur.reg 0x010 == 0xF4) = true ∧
    runs (two 0x80000001 0) 0x80BC2010 (fun t => t.cur.reg 0x010 == 2) = true ∧
    runs (running fun c => { c with ram := [(0x020, 8)], quad := #v[9, 0, 0, 0], qbase := 0x020 }) 0xA0FC4001
      (fun t => t.cur.quad == #v[1, 0, 0, 0] && t.cur.underlying 0x020 == 1) = true := by decide

/-- M5, M6, M7, M8; a long of R103 that never executes, and M7 with a condition that fails. -/
theorem test_conditions_and_refusals :
    runs (two 0 3) 0xA0B02011 (fun t => t.cur.reg 0x010 == 0) = true ∧
    runs (running fun c => { c with ram := [(0x011, 3)], cf := true }) 0xA0B02011 (fun t => t.cur.reg 0x010 == 3) = true ∧
    runs (two 0 3) 0 (fun t => t.cur.pc == 1 && t.hub.mem == []) = true ∧
    runs (two 0 3) 0x54802011 (fun t => t.cur.pc == 1 && t.hub.mem == []) = true ∧
    refuses (two 0 3) 0xA1882011 .unlistedEncoding = true ∧
    refuses (two 0 3) 0xA1BC2011 .unlistedEncoding = true ∧
    refuses (two 0 3) 0xA0BFF011 .pinRegister = true := by decide

/-! ## Witnesses: the hypotheses of every obligation that has any are met together -/

/-- The result is a next state with the property. -/
def nextWith (r : Result State) (p : State → Bool) : Bool :=
  match r with
  | .next t => p t
  | _ => false

theorem next_of_nextWith {r : Result State} {p : State → Bool} (h : nextWith r p = true) : ∃ t, r = .next t ∧ p t = true := by
  cases r with
  | next t => exact ⟨t, rfl, h⟩
  | fault e => simp [nextWith] at h
  | refused e => simp [nextWith] at h

/-- Cog 0 has run MOV $010,#7 up to its fetch. -/
def ready : State := (running id).withFetchWord 32 0xA0FC2007

theorem ready_inv : ready.Inv := by
  refine ⟨by decide, fun t => ?_, rfl⟩
  have h : ready.cogAt t = (if t = 0 then ready.cogAt 0 else Cog.reset) := by revert t; decide
  rw [h]
  split
  · exact ⟨by decide, by decide, by decide, by decide, by intro l hl; exact absurd (show Run.running = .loading l from hl) (by simp)⟩
  · exact ⟨by decide, by decide, by decide, by decide, by intro l hl; simp [Cog.reset] at hl⟩

theorem wit_ResetLeavesTheStatedValues : 0xE7F < romEnd := by decide

theorem wit_StepKeepsTheInvariant : ready.Inv ∧ ∃ t, step ready = .next t ∧ (!t.resetPending) = true :=
  ⟨ready_inv, next_of_nextWith (p := fun t => !t.resetPending) (by decide)⟩

theorem wit_OnlyStoresChangeHubMemory : ready.Inv ∧ 0xE7F < romEnd ∧ Instr.storesHub (.cogid 0b1111 0x010) = false ∧
    (∃ t, step ready = .next t ∧ (!t.resetPending) = true) ∧
    ∃ t, exec (.cogid 0b1111 0x010) ready = .next t ∧ (!t.resetPending) = true :=
  ⟨ready_inv, by decide, rfl, next_of_nextWith (p := fun t => !t.resetPending) (by decide),
    next_of_nextWith (p := fun t => !t.resetPending) (by decide)⟩

/-- A cog that stops another and, for the second clause, a MOV. -/
theorem wit_CogsAreIsolated : (1 : CogId) ≠ (two 1 0).turn ∧ Instr.controlsCogs (.mov 0b1111 0x010 (.imm 7)) = false ∧
    (∃ t, exec (.cogstop 0b1111 0x010) (two 1 0) = .next t ∧ (!t.resetPending) = true) ∧
    ∃ t, exec (.mov 0b1111 0x010 (.imm 7)) (two 1 0) = .next t ∧ (!t.resetPending) = true :=
  ⟨by decide, rfl, next_of_nextWith (p := fun t => !t.resetPending) (by decide),
    next_of_nextWith (p := fun t => !t.resetPending) (by decide)⟩

theorem wit_CounterNeverRunsBack : ∃ t, step (ready.withFetchWord 32 0x0CFC200D) = .next t ∧ (!t.resetPending) = true :=
  next_of_nextWith (p := fun t => !t.resetPending) (by decide)

/-- A MOV, and a chip reset. -/
theorem wit_UnreachableStateStaysPut : (∃ t, exec (.mov 0b1111 0x1F5 (.imm 7)) ready = .next t ∧ (!t.resetPending) = true) ∧
    ∃ t, exec (.clkset 0b1111 0x010) (two 0x100 0) = .next t ∧ t.resetPending = true :=
  ⟨next_of_nextWith (p := fun t => !t.resetPending) (by decide), next_of_nextWith (p := fun t => t.resetPending) (by decide)⟩

theorem wit_IndirectPointersStayWithinLimits :
    (∃ t, exec (.mov 0b0100 0x1F6 (.imm 1)) (indirect ⟨15, 8, 15⟩ []) = .next t ∧ (!t.resetPending) = true) ∧
    IndOrdered ((indirect ⟨15, 8, 15⟩ []).cogAt 0).inda ∧ IndOrdered ((indirect ⟨15, 8, 15⟩ []).cogAt 0).indb :=
  ⟨next_of_nextWith (p := fun t => !t.resetPending) (by decide), by unfold IndOrdered; decide, by unfold IndOrdered; decide⟩

theorem wit_DecodeOfEncode : (Instr.setptraI 0b1111 0x1F5).wellFormed = true ∧
    (Instr.passcnt 0b0011 0x1F6).wellFormed = true := by decide

theorem wit_EncodeOfDecode : decode 0x0CFFEAB2 = .ok (.setptraI 0b1111 0x1F5) := by decide

theorem wit_MeaninglessEncodingsAreRejected : (Instr.rdquadP 0b1111 ⟨.ptrb, true, true, 0x37⟩).defect = some .fieldNamesInd ∧
    (Instr.passcnt 0b0111 0x1F7).defect = some .passcntPostModifies := by decide

/-- CLKSET with Z = 1, vector L11, and neighbours of other rows match no row; CLKSET matches one. -/
theorem wit_UnlistedLongsAreRejected :
    (∀ iw ∈ ([0b000011_100_1_1111_000010000_000000000, 0x0F7C2006, 0b111000_000_0_0010_000000000_000000101,
        0b111111_100_0_1111_000010000_000010001] : List Word), ∀ row ∈ opcodeRows, iw &&& row.1 ≠ row.2) ∧
    (∃ row ∈ opcodeRows, 0x0C7C2000#32 &&& row.1 = row.2) ∧ opcodeRows.length = 72 := by
  refine ⟨fun iw hiw row hrow => ?_, ⟨(0xFFC001FF, 0x0C400000), by simp [opcodeRows], by decide⟩, rfl⟩
  have h : ([0b000011_100_1_1111_000010000_000000000, 0x0F7C2006, 0b111000_000_0_0010_000000000_000000101,
      0b111111_100_0_1111_000010000_000010001] : List Word).all (fun iw => opcodeRows.all fun row => iw &&& row.1 != row.2) = true := by
    rfl
  simpa using List.all_eq_true.mp (List.all_eq_true.mp h iw hiw) row hrow

theorem wit_StepRunsTheDecodedInstruction : ready.resetPending = false ∧ ready.cur.run = .running ∧
    ready.cur.fetchHazard ready.cur.pc = none ∧ decode (ready.cur.reg ready.cur.pc) = .ok (.mov 0b1111 0x010 (.imm 7)) ∧
    (ready.cogAt 0).run ≠ .idle := by decide

/-- `ready` with the long where the next step fetches meets the premises of the statement on undecoded longs. -/
abbrev undecodes (w : Nat) (e : DecodeError) : Prop :=
  let s := ready.withFetchWord 32 w
  s.resetPending = false ∧ s.cur.run = .running ∧ s.cur.fetchHazard s.cur.pc = none ∧ decode (s.cur.reg s.cur.pc) = .error e

/-- Unlisted longs with CCCC = 0000, with a condition that fails and one that passes. -/
theorem wit_StepOverOrRefuseUndecoded :
    undecodes 0x54802011 .unlisted ∧ undecodes 0x54C021F7 .unlisted ∧ undecodes 0x54882011 .unlisted ∧
    undecodes 0x54BC2011 .unlisted ∧
    Fields.split 0x54802011 = ⟨0b010101, false, false, true, false, 0b0000, 0x010, 0x011⟩ ∧
    Fields.split 0x54C021F7 = ⟨0b010101, false, false, true, true, 0b0000, 0x010, 0x1F7⟩ ∧
    namesInd 0x010 = false ∧ namesInd 0x011 = false ∧
    (Fields.split 0x54882011).cccc ≠ 0 ∧ (Fields.split 0x54BC2011).cccc ≠ 0 :=
  ⟨by decide, by decide, by decide, by decide, by decide, by decide, by decide, by decide, by decide, by decide⟩

/-- Unlisted longs with CCCC = 0000 that may name INDA or INDB, or have FIXINDx's opcode; SETPTRA #$1F6, PASSCNT INDA++. -/
theorem wit_StepOverOrRefuseUndecoded_refusals :
    undecodes 0x5483EC11 .unlisted ∧ undecodes 0x548021F7 .unlisted ∧ undecodes 0xE4002011 .unlisted ∧
    undecodes 0x0CFFECB2 (.noMeaning .fieldNamesInd) ∧
    undecodes 0b000011_000_1_0100_111110110_000001101 (.noMeaning .passcntPostModifies) ∧
    namesInd (Fields.split 0x5483EC11).d = true ∧ (Fields.split 0x548021F7).i = false ∧
    namesInd (Fields.split 0x548021F7).s = true ∧ (Fields.split 0xE4002011).op = 0b111001 :=
  ⟨by decide, by decide, by decide, by decide, by decide, by decide, by decide, by decide, by decide⟩

theorem wit_FetchesWithNoMeaningAreRefused :
    (let s := running fun c => { c with pc := 0x1F6 };
      s.resetPending = false ∧ s.cur.run = .running ∧ 0x1F6 ≤ s.cur.pc.toNat) ∧
    (let s := running fun c => { c with pc := 0x1F5, recent := ⟨none, none, some 0x1F5⟩ };
      s.resetPending = false ∧ s.cur.run = .running ∧ s.cur.pc.toNat < 0x1F6 ∧ s.cur.recent.last3 = some s.cur.pc) ∧
    (let s := running fun c => { c with pc := 0x1F5, qbase := 0x1F2, fill := .readable };
      s.resetPending = false ∧ s.cur.run = .running ∧ s.cur.pc.toNat < 0x1F6 ∧ s.cur.recent = ⟨none, none, none⟩ ∧
        s.cur.fill ≠ .settled ∧ overlay s.cur.qbase s.cur.pc ≠ none) ∧
    (let s := running fun c => { c with pc := 0x1F5, remaps := [⟨0x1F2, 1⟩] };
      s.resetPending = false ∧ s.cur.run = .running ∧ s.cur.pc.toNat < 0x1F6 ∧ s.cur.recent = ⟨none, none, none⟩ ∧
        s.cur.fill = .settled ∧ ∃ m ∈ s.cur.remaps, overlay m.base s.cur.pc ≠ none) ∧
    (let s := running fun c => { c with pc := 0x020, qbase := 0x010, fill := .filling 1, remaps := [⟨0x020, 3⟩, ⟨0x010, 3⟩] };
      s.resetPending = false ∧ s.cur.run = .running ∧ s.cur.pc.toNat < 0x1F6 ∧ s.cur.recent = ⟨none, none, none⟩ ∧
        overlay s.cur.qbase s.cur.pc = none ∧ ∃ m ∈ s.cur.remaps, overlay m.base s.cur.pc ≠ none) := by decide

theorem wit_EveryCogIdleStops :
    let s : State := { State.reset with resetPending := false }
    s.resetPending = false ∧ ∀ k, (s.cogAt k).run = .idle := by decide

/-- Every cog falls under one of the two clauses. -/
theorem wit_BootStartsItsCogs : State.reset.resetPending = true ∧
    ∀ k : CogId, (∀ e ∈ Config.boot, e.cog ≠ k) ∨ ∃ e ∈ Config.boot, e.cog = k := by
  refine ⟨rfl, fun k => ?_⟩
  by_cases h : ∃ e ∈ Config.boot, e.cog = k
  · exact .inr h
  · exact .inl fun e he hk => h ⟨e, he, hk⟩

theorem wit_LoaderCopiesTheImage :
    let s := running fun c => { c with ram := [(0x1F7, 3)] }
    let s' := s.modCur fun c => { c with run := .loading ⟨0x1FFF0, 5, List.range 0x1F8⟩ }
    s'.resetPending = false ∧ s'.cur.run = .loading ⟨0x1FFF0, 5, List.range 0x1F8⟩ ∧ CellsSorted s'.cur.ram :=
  ⟨rfl, rfl, by decide⟩

theorem wit_MemReadIsLittleEndian : 15 < Width.quad.bytes ∧ 0 < Width.byte.bytes := by decide

theorem wit_AddressingTableReads : (List.range 32).map (hubByte State.reset.hub.mem) =
    [0x50, 0x72, 0x6F, 0x70, 0x32, 0x2E, 0x30, 0x20, 0x00, 0x20, 0x7C, 0x0C, 0x03, 0xCC, 0x7C, 0x0C,
      0x45, 0xFE, 0xC1, 0x0D, 0xE3, 0xB6, 0xFC, 0x0C, 0x01, 0xC6, 0x7C, 0x0C, 0x01, 0xC6, 0x7C, 0x0D] := by decide

/-- A terminal below initial with the ends of the walk, and a selector that is not listed. -/
theorem wit_FixindSetsPointersAndLimits : (8 : BitVec 9).toNat < (15 : BitVec 9).toNat ∧
    (8 : BitVec 9).toNat < (9 : BitVec 9).toNat ∧ (9 : BitVec 9).toNat ≤ (15 : BitVec 9).toNat ∧
    (0b1111 : BitVec 4) ∉ ([0b0001, 0b0100, 0b0101] : List (BitVec 4)) := by decide

/-- A long in the last of ROM and one in the first of RAM. -/
theorem wit_MemWriteStoresInRamOnly : Memory.wf [(0xE80, 1)] ∧
    ((0x00E7F : HubAddr) &&& ~~~BitVec.ofNat 17 3).toNat + 4 ≤ 0xE80 ∧
    0xE80 ≤ ((0x00E83 : HubAddr) &&& ~~~BitVec.ofNat 17 3).toNat := by decide

/-- `two`'s $011 is the S operand, PTRA the pointer. -/
def hubForms : List HubOperand := [.reg 0x011, .ptr ⟨.ptra, true, true, 1⟩]

theorem wit_HubWritesStoreTheLowBytes : ∀ h ∈ hubForms,
    let st := two 0x12345678 0x00000E80
    let o := st.cur.operands 0b1111 (some 0x010) h.regField
    let s := st.issued 0b1111 (some 0x010) h.regField
    Executes st 0b1111 (some 0x010) h.regField ∧ Readable s o.d ∧ HubReadable s h o.s ∧ Memory.wf st.hub.mem := by
  intro h hh
  simp only [hubForms, List.mem_cons, List.not_mem_nil, or_false] at hh
  rcases hh with rfl | rfl <;> decide

theorem wit_HubReadsDeliverTheUnit : ∀ h ∈ hubForms,
    let st := two 0x12345678 0x00000E80
    let o := st.cur.operands 0b1111 (some 0x010) h.regField
    let s := st.issued 0b1111 (some 0x010) h.regField
    Executes st 0b1111 (some 0x010) h.regField ∧ HubReadable s h o.s ∧ CellsSorted st.cur.ram := by
  intro h hh
  simp only [hubForms, List.mem_cons, List.not_mem_nil, or_false] at hh
  rcases hh with rfl | rfl <;> decide

/-- Hits at the last byte of the cached quad. -/
theorem wit_CachedReadsHitTheQuads : ∀ h ∈ hubForms,
    let st := cached 0x0F
    let o := st.cur.operands 0b1111 (some 0x010) h.regField
    let s := st.issued 0b1111 (some 0x010) h.regField
    Executes st 0b1111 (some 0x010) h.regField ∧ HubReadable s h o.s ∧ CellsSorted st.cur.ram ∧
      st.cur.cacheValid = true ∧ st.cur.cacheTag = (s.hubAddress h .byte o.s).extractLsb' 4 13 := by
  intro h hh
  simp only [hubForms, List.mem_cons, List.not_mem_nil, or_false] at hh
  rcases hh with rfl | rfl <;> decide

/-- Misses with the cache invalid, and one byte past the cached quad. -/
theorem wit_CachedReadsMissAndFill : (∀ h ∈ hubForms,
    let st := two 0 5
    let o := st.cur.operands 0b1111 (some 0x010) h.regField
    let s := st.issued 0b1111 (some 0x010) h.regField
    Executes st 0b1111 (some 0x010) h.regField ∧ HubReadable s h o.s ∧ CellsSorted st.cur.ram ∧ st.cur.cacheValid = false) ∧
    (let st := cached 0x10;
      let o := st.cur.operands 0b1111 (some 0x010) (some 0x011)
      let s := st.issued 0b1111 (some 0x010) (some 0x011)
      Executes st 0b1111 (some 0x010) (some 0x011) ∧ Readable s o.s ∧ CellsSorted st.cur.ram ∧
        st.cur.cacheTag ≠ (s.hubAddress (.reg 0x011) .byte o.s).extractLsb' 4 13) := by
  refine ⟨?_, by decide⟩
  intro h hh
  simp only [hubForms, List.mem_cons, List.not_mem_nil, or_false] at hh
  rcases hh with rfl | rfl <;> decide

theorem wit_WrquadStoresTheQuads : ∀ h ∈ hubForms,
    let st := cached 0x00E80
    let o := st.cur.operands 0b1111 h.regField none
    let s := st.issued 0b1111 h.regField none
    Executes st 0b1111 h.regField none ∧ HubReadable s h o.d ∧ Memory.wf st.hub.mem := by
  intro h hh
  simp only [hubForms, List.mem_cons, List.not_mem_nil, or_false] at hh
  rcases hh with rfl | rfl <;> decide

theorem wit_QuadReadsFillTheQuads : (∀ h ∈ hubForms,
    let st := two 0 0x1FFFF
    let o := st.cur.operands 0b1111 h.regField none
    let s := st.issued 0b1111 h.regField none
    Executes st 0b1111 h.regField none ∧ HubReadable s h o.d ∧ st.cur.cacheValid = false) ∧
    (let st := cached 0x10;
      let o := st.cur.operands 0b1111 (some 0x011) none
      let s := st.issued 0b1111 (some 0x011) none
      Executes st 0b1111 (some 0x011) none ∧ Readable s o.d ∧
        st.cur.cacheTag ≠ (s.hubAddress (.reg 0x011) .quad o.d).extractLsb' 4 13) := by
  refine ⟨?_, by decide⟩
  intro h hh
  simp only [hubForms, List.mem_cons, List.not_mem_nil, or_false] at hh
  rcases hh with rfl | rfl <;> decide

theorem wit_RdquadcHitsChangeNothing : ∀ h ∈ hubForms,
    let st := cached 0x0F
    let o := st.cur.operands 0b1111 h.regField none
    let s := st.issued 0b1111 h.regField none
    Executes st 0b1111 h.regField none ∧ HubReadable s h o.d ∧ st.cur.cacheValid = true ∧
      st.cur.cacheTag = (s.hubAddress h .quad o.d).extractLsb' 4 13 := by
  intro h hh
  simp only [hubForms, List.mem_cons, List.not_mem_nil, or_false] at hh
  rcases hh with rfl | rfl <;> decide

/-- The first and the last mapped register at the highest base, and the registers just outside. -/
theorem wit_OverlayReadsAndWrites :
    let c : Cog := { Cog.reset with ram := [(0x1F2, 1), (0x1F5, 2)], qbase := 0x1F2 }
    CellsSorted c.ram ∧ c.qbase.toNat ≤ 0x1F2 ∧ (0x1F2 : RegAddr).toNat = c.qbase.toNat + (0 : Fin 4) ∧
    (0x1F5 : RegAddr).toNat = c.qbase.toNat + (3 : Fin 4) ∧ (0x1F1 : RegAddr).toNat < c.qbase.toNat ∧
    c.qbase.toNat + 4 ≤ (0x1F6 : RegAddr).toNat := by decide

/-- The premises of every clause: D and S name the pointer, only one of them does, or neither. -/
theorem wit_IndirectOperandsResolveAndMove : ∀ r ∈ ([0x1F6, 0x1F7] : List RegAddr),
    let a : Option RegAddr := some r
    let b : Option RegAddr := some 0x010
    a = some r ∧ b ≠ some r ∧ b = some 0x010 ∧ (0x010 : RegAddr) ≠ 0x1F6 ∧ (0x010 : RegAddr) ≠ 0x1F7 := by decide

theorem wit_FailedConditionChangesNothing :
    (Instr.wrlongP 0b0000 0x010 ⟨.ptra, true, true, 1⟩).issueFields = some (0b0000, some 0x010, none) ∧
    fieldInd (some 0x010) = false ∧ fieldInd none = false ∧ Machine.cond 0b0000 false false = false := by decide

/-- Pin registers at both ends of their range, and resolved addresses $1F6 and $1FF, in D and in S. -/
theorem wit_OperandsWithNoMeaningAreRefused :
    (Instr.mov 0b1111 0x1F8 (.reg 0x011)).issueFields = some (0b1111, some 0x1F8, some 0x011) ∧
    (Instr.mov 0b1111 0x011 (.reg 0x1FF)).issueFields = some (0b1111, some 0x011, some 0x1FF) ∧
    (Instr.mov 0b0011 0x1F6 (.reg 0x1F7)).issueFields = some (0b0011, some 0x1F6, some 0x1F7) ∧
    Machine.cond 0b1111 false false = true ∧ 0x1F8 ≤ (0x1F8 : RegAddr).toNat ∧ 0x1F8 ≤ (0x1FF : RegAddr).toNat ∧
    (let c := (indirect ⟨0x1F6, 0, 0x1FF⟩ []).cur; namesInd 0x1F6 = true ∧ 0x1F6 ≤ (c.target 0x1F6 (modeD 0b0011)).toNat) ∧
    (let c : Cog := { Cog.reset with inda := ⟨0x010, 0, 0x1FF⟩, indb := ⟨0x1FE, 0, 0x1FF⟩ };
      c.targetRefusal 0x1F6 (modeD 0b0011) = none ∧ namesInd 0x1F7 = true ∧
        0x1F6 ≤ (c.target 0x1F7 (modeS 0b0011)).toNat) ∧
    Cog.reset.targetRefusal 0x011 (modeD 0b1111) = none := by decide

/-- Both clauses via D, with the operand $010 in the overlay, and both via S, with the operand $011 in it and $010 not. -/
theorem wit_ReadsInsideAWindowAreRefused :
    (let st := running fun c => { c with qbase := 0x010, fill := .filling 2 }
      let o := st.cur.operands 0b1111 (some 0x010) (some 0x011)
      Executes st 0b1111 (some 0x010) (some 0x011) ∧ st.cur.fill = .filling 2 ∧ overlay st.cur.qbase o.d ≠ none) ∧
    (let st := running fun c => { c with remaps := [⟨0x00D, 2⟩] }
      let o := st.cur.operands 0b1111 (some 0x010) (some 0x011)
      Executes st 0b1111 (some 0x010) (some 0x011) ∧ st.cur.fill = .settled ∧
        ∃ m ∈ st.cur.remaps, 2 ≤ m.left ∧ overlay m.base o.d ≠ none) ∧
    (let st := running fun c => { c with qbase := 0x011, fill := .filling 2 }
      let o := st.cur.operands 0b1111 (some 0x010) (some 0x011)
      Executes st 0b1111 (some 0x010) (some 0x011) ∧ Readable st o.d ∧ st.cur.fill = .filling 2 ∧
        overlay st.cur.qbase o.s ≠ none) ∧
    (let st := running fun c => { c with remaps := [⟨0x011, 2⟩] }
      let o := st.cur.operands 0b1111 (some 0x010) (some 0x011)
      Executes st 0b1111 (some 0x010) (some 0x011) ∧ Readable st o.d ∧ st.cur.fill = .settled ∧
        ∃ m ∈ st.cur.remaps, 2 ≤ m.left ∧ overlay m.base o.s ≠ none) := by decide

/-- The premises shared by the instructions with a D operand and no S operand: a register and an indirect one. -/
theorem wit_GetptrDeliversThePointer :
    (let st := two 7 0; Executes st 0b1111 (some 0x010) none ∧ CellsSorted st.cur.ram) ∧
    (let st := indirect ⟨0x010, 0, 0x1FF⟩ [(0x010, 7)]; Executes st 0b0100 (some 0x1F6) none ∧ CellsSorted st.cur.ram) := by decide

theorem wit_PointerArithmetic : ∀ src ∈ ([.reg 0x010, .imm 0x1FF] : List Src),
    let st := two 0xFFFFFFFC 0
    let o := st.cur.operands 0b1111 (srcField src) none
    let s := st.issued 0b1111 (srcField src) none
    Executes st 0b1111 (srcField src) none ∧ SrcReadable s src o.d := by
  intro src hs
  simp only [List.mem_cons, List.not_mem_nil, or_false] at hs
  rcases hs with rfl | rfl <;> decide

theorem wit_CachexInvalidates : Machine.cond 0b1111 ready.cur.cf ready.cur.zf = true ∧ (1 : BitVec 9) ≠ 0 := by decide

theorem wit_GettopsDeliversTheTopBytes : Executes (cached 0) 0b1111 (some 0x010) none ∧ CellsSorted (cached 0).cur.ram := by decide

/-- Bases at both ends of both ranges, and $1FF. -/
theorem wit_SetquadMovesTheBase : ∀ n ∈ ([0x000, 0x1F2, 0x1F3, 0x1FE, 0x1FF] : List (BitVec 9)),
    let st := two 0 0
    let o := st.cur.operands 0b1111 (srcField (.imm n)) none
    let s := st.issued 0b1111 (srcField (.imm n)) none
    let b : RegAddr := (s.srcValue (.imm n) o.d).setWidth 9
    Executes st 0b1111 (srcField (.imm n)) none ∧ SrcReadable s (.imm n) o.d ∧
      ((b.toNat < 0x1F3 ∨ b = 0x1FF) ∨ 0x1F3 ≤ b.toNat ∧ b.toNat ≤ 0x1FE) := by
  intro n hn
  simp only [List.mem_cons, List.not_mem_nil, or_false] at hn
  rcases hn with rfl | rfl | rfl | rfl | rfl <;> decide

/-- Cog 1 executes: the target is cog 0, and with SETCOG's value 1 cog 1 itself. -/
theorem wit_CoginitStartsTheExplicitCog : ∀ x ∈ ([(0, 0), (1, 1)] : List (BitVec 4 × CogId)),
    let st : State := { (two 0 0).modCog 1 (fun c => { c with run := .running, cogsel := x.1, ram := [(0x010, 0x1003)] }) with turn := 1 }
    let o := st.cur.operands 0b1111 (some 0x010) (some 0x011)
    let s := st.issued 0b1111 (some 0x010) (some 0x011)
    Executes st 0b1111 (some 0x010) (some 0x011) ∧ Readable s o.d ∧ Readable s o.s ∧ CellsSorted st.cur.ram ∧
      st.cur.cogsel.getLsbD 3 = false ∧ (st.cur.cogsel.extractLsb' 0 3).toNat = x.2.val := by
  intro x hx
  simp only [List.mem_cons, List.not_mem_nil, or_false] at hx
  rcases hx with rfl | rfl <;> decide

/-- With idle cogs, and with none. -/
theorem wit_CoginitStartsAnIdleCog :
    let busy : Cog := { Cog.reset with run := .running, cogsel := 0b1000 }
    (∀ st ∈ ([{ two 0 0 with cogs := (Vector.replicate 8 busy).set 6 Cog.reset }, { two 0 0 with cogs := Vector.replicate 8 busy }] :
        List State),
      let o := st.cur.operands 0b1111 (some 0x010) (some 0x011)
      let s := st.issued 0b1111 (some 0x010) (some 0x011)
      Executes st 0b1111 (some 0x010) (some 0x011) ∧ Readable s o.d ∧ Readable s o.s ∧ CellsSorted st.cur.ram ∧
        st.cur.cogsel.getLsbD 3 = true ∧ st.cur.run = .running) ∧
    (∃ k, (({ two 0 0 with cogs := (Vector.replicate 8 busy).set 6 Cog.reset } : State).cogAt k).run = .idle) ∧
    ∀ k, (({ two 0 0 with cogs := Vector.replicate 8 busy } : State).cogAt k).run ≠ .idle := by decide

/-- Both CLKSET statements, by bit 8 of the operand. -/
theorem wit_ClksetWritesTheClockRegister : ∀ v ∈ ([0x0FB, 0x100] : List Word),
    let st := two v 0
    let o := st.cur.operands 0b1111 (some 0x010) none
    let s := st.issued 0b1111 (some 0x010) none
    Executes st 0b1111 (some 0x010) none ∧ Readable s o.d ∧ (s.cur.reg o.d).getLsbD 8 = decide (v = 0x100) := by
  intro x hx
  simp only [List.mem_cons, List.not_mem_nil, or_false] at hx
  rcases hx with rfl | rfl <;> decide

theorem wit_ClksetResetsTheChip :
    let st := two 0x1FF 0
    let o := st.cur.operands 0b1111 (some 0x010) none
    let s := st.issued 0b1111 (some 0x010) none
    Executes st 0b1111 (some 0x010) none ∧ Readable s o.d ∧ (s.cur.reg o.d).getLsbD 8 = true := by decide

theorem wit_CogidDeliversTheNumber : Executes (two 7 0) 0b1111 (some 0x010) none ∧ CellsSorted (two 7 0).cur.ram := by decide

/-- COGSTOP at the least and the greatest number. -/
theorem wit_CogstopStopsTheCog : ∀ x ∈ ([(8, 0), (0xFFFFFFFF, 7)] : List (Word × CogId)),
    let st := two x.1 0
    let o := st.cur.operands 0b1111 (some 0x010) none
    let s := st.issued 0b1111 (some 0x010) none
    Executes st 0b1111 (some 0x010) none ∧ Readable s o.d ∧ x.2.val = (s.cur.reg o.d).toNat % 8 := by
  intro x hx
  simp only [List.mem_cons, List.not_mem_nil, or_false] at hx
  rcases hx with rfl | rfl <;> decide

theorem wit_LocksReportAndAreFreed :
    let st := two 13 0
    let o := st.cur.operands 0b1111 (some 0x010) none
    let s := st.issued 0b1111 (some 0x010) none
    Executes st 0b1111 (some 0x010) none ∧ Readable s o.d ∧ (5 : LockId).val = (s.cur.reg o.d).toNat % 8 := by decide

/-- With a free lock, and with none. -/
theorem wit_LocknewChecksOutAFreeLock :
    let full : State := { two 0 0 with hub := { Hub.reset with lockUsed := Vector.replicate 8 true } }
    Executes (two 0 0) 0b1111 (some 0x010) none ∧ CellsSorted (two 0 0).cur.ram ∧
    (∃ k : LockId, (two 0 0).hub.lockUsed[k] = false) ∧
    Executes full 0b1111 (some 0x010) none ∧ CellsSorted full.cur.ram ∧ ∀ k : LockId, full.hub.lockUsed[k] = true := by decide

/-- Each counter instruction in both phases. -/
theorem wit_GetcntDeliversTheHalves : ∀ x ∈ ([.none, .getcnt] : List CntPhase),
    let st := running fun c => { c with ram := [(0x010, 5)], cntPhase := x }
    Executes st 0b1111 (some 0x010) none ∧ CellsSorted st.cur.ram ∧ (st.cur.cntPhase = .getcnt ↔ x = .getcnt) := by decide

theorem wit_SubcntSubtracts : ∀ x ∈ ([.cmpcnt, .subcnt] : List CntPhase),
    let st := running fun c => { c with ram := [(0x010, 5)], cntPhase := x }
    let o := st.cur.operands 0b1111 (some 0x010) none
    let s := st.issued 0b1111 (some 0x010) none
    Executes st 0b1111 (some 0x010) none ∧ Readable s o.d ∧ CellsSorted st.cur.ram ∧
      (st.cur.cntPhase = .subcnt ↔ x = .subcnt) := by decide

theorem wit_CmpcntCompares : ∀ x ∈ ([.subcnt, .cmpcnt] : List CntPhase),
    let st := running fun c => { c with ram := [(0x010, 5)], cntPhase := x }
    let o := st.cur.operands 0b1111 (some 0x010) none
    let s := st.issued 0b1111 (some 0x010) none
    Executes st 0b1111 (some 0x010) none ∧ Readable s o.d ∧ (st.cur.cntPhase = .cmpcnt ↔ x = .cmpcnt) := by decide

/-- A first pass and a further one. -/
theorem wit_PasscntLoopsUntilPassed : ∀ m ∈ ([none, some 7] : List (Option Nat)),
    let st := running fun c => { c with ram := [(0x010, 5)], passAt := m }
    let o := st.cur.operands 0b1111 (some 0x010) none
    let s := st.issued 0b1111 (some 0x010) none
    Executes st 0b1111 (some 0x010) none ∧ Readable s o.d ∧ st.cur.passAt = m := by decide

/-- A cog alone at a PASSCNT, D a register and an indirect one. -/
theorem wit_PasscntLoopsUntilPassed_alone : ∀ x ∈ ([(0b1111, 0x010), (0b0011, 0x1F6)] : List (BitVec 4 × RegAddr)),
    let st := (indirect ⟨0x010, 0, 0x1FF⟩ [(0x010, 5)]).withFetchWord 32 (encode (.passcnt x.1 x.2)).toNat
    st.resetPending = false ∧ st.cur.run = .running ∧ (∀ k, k ≠ st.turn → (st.cogAt k).run = .idle) ∧
    st.cur.fetchHazard st.cur.pc = none ∧ decode (st.cur.reg st.cur.pc) = .ok (.passcnt x.1 x.2) ∧
    Executes st x.1 (some x.2) none ∧ Readable st (st.cur.operands x.1 (some x.2) none).d ∧ st.cur.passAt = none := by
  intro x hx
  simp only [List.mem_cons, List.not_mem_nil, or_false] at hx
  rcases hx with rfl | rfl <;> exact ⟨rfl, rfl, by decide, by decide, by decide, by decide, by decide, rfl⟩

/-- The waits, MOV and ADD, with a register and an immediate. -/
theorem wit_WaitcntEndsAtItsTarget : ∀ src ∈ ([.reg 0x011, .imm 500] : List Src),
    let st := two 0x1000 1
    let o := st.cur.operands 0b1111 (some 0x010) (srcField src)
    let s := st.issued 0b1111 (some 0x010) (srcField src)
    Executes st 0b1111 (some 0x010) (srcField src) ∧ Readable s o.d ∧ SrcReadable s src o.s ∧ CellsSorted st.cur.ram := by
  intro src hs
  simp only [List.mem_cons, List.not_mem_nil, or_false] at hs
  rcases hs with rfl | rfl <;> decide

theorem wit_PinWaitsEndOrTimeOut : ∀ src ∈ ([.reg 0x011, .imm 0x0FF] : List Src),
    let st := two 4 0x0C
    let o := st.cur.operands 0b1111 (some 0x010) (srcField src)
    let s := st.issued 0b1111 (some 0x010) (srcField src)
    Executes st 0b1111 (some 0x010) (srcField src) ∧ Readable s o.d ∧ SrcReadable s src o.s := by
  intro src hs
  simp only [List.mem_cons, List.not_mem_nil, or_false] at hs
  rcases hs with rfl | rfl <;> decide

theorem wit_MovAndAddDeliver : ∀ src ∈ ([.reg 0x1F7, .imm 0x1FF] : List Src),
    let st := indirect ⟨0x020, 0, 0x1FF⟩ [(0x020, 5)]
    let o := st.cur.operands 0b1100 (some 0x1F6) (srcField src)
    let s := st.issued 0b1100 (some 0x1F6) (srcField src)
    Executes st 0b1100 (some 0x1F6) (srcField src) ∧ Readable s o.d ∧ SrcReadable s src o.s ∧ CellsSorted st.cur.ram := by
  intro src hs
  simp only [List.mem_cons, List.not_mem_nil, or_false] at hs
  rcases hs with rfl | rfl <;> decide

end Sys2Proof.Tests
end

section
/-! PROOFS. What one instruction can do, said once: every arm of `exec` keeps what `State.Kept` lists, but for a PASSCNT that
goes back to itself and a CLKSET that resets the chip. -/

namespace Sys2Proof.Machine

/-! ## What an update of a cog keeps -/

/-- What no instruction breaks in a cog it goes on with: registers, QUAD base and load stay proper, an indirect pointer stays
within its limits, and what no encoding reaches stays as it was (10_state.md R21, R29 to R32). -/
structure Cog.Kept (c c' : Cog) : Prop where
  ram     : CellsWf loadLongs c.ram → CellsWf loadLongs c'.ram := by exact id
  qbase   : (c.qbase = 0x1FF ∨ c.qbase.toNat ≤ 0x1F2) → (c'.qbase = 0x1FF ∨ c'.qbase.toNat ≤ 0x1F2) := by exact id
  load    : (∀ l, c.run = .loading l → LoadWf l) → ∀ l, c'.run = .loading l → LoadWf l := by exact id
  inda    : IndOrdered c.inda → IndOrdered c'.inda := by exact id
  indb    : IndOrdered c.indb → IndOrdered c'.indb := by exact id
  pc      : c'.pc = c.pc := by rfl
  stack   : c'.stack = c.stack := by rfl
  spa     : c'.spa = c.spa := by rfl
  spb     : c'.spb = c.spb := by rfl
  cogsel  : c'.cogsel = c.cogsel := by rfl
  pinRegs : c'.pinRegs = c.pinRegs := by rfl

theorem Cog.Kept.trans {a b c : Cog} (h : a.Kept b) (g : b.Kept c) : a.Kept c where
  ram := g.ram ∘ h.ram
  qbase := g.qbase ∘ h.qbase
  load := g.load ∘ h.load
  inda := g.inda ∘ h.inda
  indb := g.indb ∘ h.indb
  pc := g.pc.trans h.pc
  stack := g.stack.trans h.stack
  spa := g.spa.trans h.spa
  spb := g.spb.trans h.spb
  cogsel := g.cogsel.trans h.cogsel
  pinRegs := g.pinRegs.trans h.pinRegs

/-- A write below the pin registers. -/
theorem Cog.kept_store (c : Cog) {a : RegAddr} (ha : a.toNat < loadLongs) (v : Word) : c.Kept (c.store a v) where
  ram h := by simpa [Cog.store, Cog.setUnderlying, show a.toNat < 0x1F8 from ha] using cellPut_wf h ha
  pinRegs := by simp [Cog.store, Cog.setUnderlying, show a.toNat < 0x1F8 from ha]

/-- The effect writes no pin register. -/
def Effect.Writable (e : Effect) : Prop := ∀ p, e.write = some p → p.1.toNat < loadLongs

theorem Effect.writable_none {cf zf : Option Bool} {n : Nat} : Effect.Writable ⟨none, cf, zf, n⟩ := nofun

theorem Effect.writable_some {a : RegAddr} (ha : a.toNat < loadLongs) {v : Word} {cf zf : Option Bool} {n : Nat} :
    Effect.Writable ⟨some (a, v), cf, zf, n⟩ := by
  rintro p ⟨⟩
  exact ha

theorem Effect.writable_ite {a : RegAddr} (ha : a.toNat < loadLongs) {r : Bool} {v : Word} {cf zf : Option Bool} {n : Nat} :
    Effect.Writable ⟨if r then some (a, v) else none, cf, zf, n⟩ := by
  cases r
  · exact Effect.writable_none
  · exact Effect.writable_some ha

theorem Cog.kept_complete (c : Cog) {e : Effect} (he : e.Writable) : c.Kept (c.complete e) := by
  have hw : c.Kept (c.writeD e.write) := by
    cases h : e.write with
    | none => exact {}
    | some p => exact c.kept_store (he p h) p.2
  exact hw.trans {}

/-- Stepping up within the limits (44_indirect.md R212). -/
theorem incInd_ordered {p : IndReg} (h : IndOrdered p) : IndOrdered { p with ptr := incInd p } := by
  obtain ⟨hb, ht⟩ := h
  unfold incInd
  split
  · exact ⟨le_rfl, hb.trans ht⟩
  · next hne =>
    have : p.ptr.toNat ≠ p.top.toNat := fun e => hne (BitVec.eq_of_toNat_eq e)
    constructor <;> simp only <;> bv_omega

/-- Stepping down within the limits (44_indirect.md R212). -/
theorem decInd_ordered {p : IndReg} (h : IndOrdered p) : IndOrdered { p with ptr := decInd p } := by
  obtain ⟨hb, ht⟩ := h
  unfold decInd
  split
  · exact ⟨hb.trans ht, le_rfl⟩
  · next hne =>
    have : p.ptr.toNat ≠ p.bot.toNat := fun e => hne (BitVec.eq_of_toNat_eq e)
    constructor <;> simp only <;> bv_omega

theorem postMod_ordered {p : IndReg} (h : IndOrdered p) (m : BitVec 2) : IndOrdered (postMod p m) := by
  unfold postMod
  split
  · exact h
  · split
    · exact decInd_ordered h
    · exact incInd_ordered h

theorem Cog.kept_postModOperands (c : Cog) (k : BitVec 4) (d sf : Option RegAddr) : c.Kept (c.postModOperands k d sf) where
  inda h := postMod_ordered h _
  indb h := postMod_ordered h _

/-! ## What an update of the state keeps -/

/-- What holds from state to state while no cog steps its program counter and the chip is not reset: every cog is `Kept`, hub
memory stays in canonical form, and as it was unless the instruction stores, and the clock register's reset bit stays 0. -/
structure State.Kept (stores : Bool) (s t : State) : Prop where
  cogs   : ∀ k, (s.cogAt k).Kept (t.cogAt k)
  mem    : Memory.wf s.hub.mem → Memory.wf t.hub.mem
  stored : stores = false → t.hub.mem = s.hub.mem
  clkreg : s.hub.clkreg.getLsbD 8 = false → t.hub.clkreg.getLsbD 8 = false
  turn   : t.turn = s.turn

theorem loadWf_fresh {addr par : HubAddr} (ha : addr &&& 3 = 0) : LoadWf ⟨addr, par, List.range loadLongs⟩ :=
  ⟨fun i hi => by simpa using hi, ha⟩

namespace State.Kept

variable {b : Bool} {s t u : State}

theorem refl : s.Kept b s := ⟨fun _ => {}, id, fun _ => rfl, id, rfl⟩

theorem trans (h : s.Kept b t) (g : t.Kept b u) : s.Kept b u where
  cogs k := (h.cogs k).trans (g.cogs k)
  mem := g.mem ∘ h.mem
  stored hb := (g.stored hb).trans (h.stored hb)
  clkreg := g.clkreg ∘ h.clkreg
  turn := g.turn.trans h.turn

theorem modCog (h : s.Kept b t) {k : CogId} {f : Cog → Cog} (hf : (t.cogAt k).Kept (f (t.cogAt k))) :
    s.Kept b (t.modCog k f) :=
  h.trans
    { cogs := fun j => by
        by_cases e : j = k
        · subst e; simpa using hf
        · simpa [e] using {}
      mem := id
      stored := fun _ => rfl
      clkreg := id
      turn := rfl }

theorem modCur (h : s.Kept b t) {f : Cog → Cog} (hf : t.cur.Kept (f t.cur)) : s.Kept b (t.modCur f) := h.modCog hf

theorem drawn (h : s.Kept b t) {n : Nat} : s.Kept b (t.drawn n) := h.trans ⟨fun _ => {}, id, fun _ => rfl, id, rfl⟩

theorem complete (h : s.Kept b t) {e : Effect} (he : e.Writable) : s.Kept b (t.complete e) := h.modCur (t.cur.kept_complete he)

/-- The hub outside its memory. -/
theorem modHub (h : s.Kept b t) {f : Hub → Hub} (hm : (f t.hub).mem = t.hub.mem)
    (hc : t.hub.clkreg.getLsbD 8 = false → (f t.hub).clkreg.getLsbD 8 = false) : s.Kept b (t.modHub f) :=
  h.trans ⟨fun _ => {}, fun hw => hm ▸ hw, fun _ => hm, hc, rfl⟩

theorem setLocks (h : s.Kept b t) {f : Hub → Vector Bool 8} : s.Kept b (t.modHub fun u => { u with locks := f u }) :=
  h.modHub rfl id

theorem setLockUsed (h : s.Kept b t) {f : Hub → Vector Bool 8} : s.Kept b (t.modHub fun u => { u with lockUsed := f u }) :=
  h.modHub rfl id

theorem setClkreg (h : s.Kept b t) {v : BitVec 9} (hv : v.getLsbD 8 = false) :
    s.Kept b (t.modHub fun u => { u with clkreg := v }) :=
  h.modHub rfl fun _ => hv

/-- A store of the instruction, to any address. -/
theorem memWrite (h : s.Kept true t) {n : Nat} {x : HubAddr} {w : Width} {v : BitVec n} :
    s.Kept true (t.modHub fun b => { b with mem := memWrite b.mem x w v }) :=
  h.trans ⟨fun _ => {}, fun hw => memWrite_wf hw x w v, nofun, id, rfl⟩

theorem issued (h : s.Kept b t) {k : BitVec 4} {d sf : Option RegAddr} : s.Kept b (t.issued k d sf) :=
  h.modCur (t.cur.kept_postModOperands k d sf)

theorem hubUpdate (h : s.Kept b t) {x : HubOperand} {w : Width} : s.Kept b (t.hubUpdate x w) := by
  cases x with
  | reg f => exact h
  | ptr p => exact h.modCur {}

theorem openFill (h : s.Kept b t) : s.Kept b t.openFill := h.modCur {}

theorem endPhase (h : s.Kept b t) {high : Bool} {x : CntPhase} : s.Kept b (t.endPhase high x) := h.modCur {}

theorem passClocks (h : s.Kept b t) {n : Nat} : s.Kept b (t.passClocks n) := by
  refine State.Kept.modCur (State.Kept.modHub h ?_ ?_) ?_
  · rfl
  · exact id
  · exact {}

theorem sampleCnt (h : s.Kept b t) : s.Kept b t.sampleCnt := h.passClocks.drawn

theorem samplePasscnt (h : s.Kept b t) : s.Kept b t.samplePasscnt := by
  obtain ⟨n, -, -, e⟩ := t.samplePasscnt_eq
  exact e ▸ h.passClocks.drawn

theorem reachTarget (h : s.Kept b t) {target : Word} : s.Kept b (t.reachTarget target) := by
  obtain ⟨n, k, e, -⟩ := t.reachTarget_eq target
  exact e ▸ h.passClocks.drawn

theorem cntDifference (h : s.Kept b t) {high : Bool} {v : Word} : s.Kept b (t.cntDifference high v).1 := by
  cases high with
  | false =>
    simp only [State.cntDifference, Bool.false_eq_true, if_false, State.subLow]
    refine State.Kept.modCur h.sampleCnt ?_
    exact {}
  | true => exact h

theorem startCog (h : s.Kept b t) {k : CogId} {addr par : HubAddr} {start : Nat} (ha : addr &&& 3 = 0) :
    s.Kept b (t.startCog k addr par start) :=
  h.modCog { load := fun _ l hl => Run.loading.inj hl ▸ loadWf_fresh ha }

end State.Kept

theorem programAddr_aligned (v : HubAddr) : programAddr v &&& 3 = 0 := by
  rw [programAddr, BitVec.and_assoc]
  exact BitVec.and_zero

/-! ## What an instruction keeps -/

/-- The program counter back at the instruction that executes (46_cnt_wait.md R258). -/
def Cog.stepBack (c : Cog) : Cog := { c with pc := c.pc - 1 }

/-- What an instruction can have done: it keeps what `State.Kept` lists; it does, and executes again; or it resets the chip. -/
inductive Executed (stores : Bool) (s : State) : State → Prop where
  | onward {t : State} (kept : s.Kept stores t) : Executed stores s t
  | again {u t : State} (before : s.Kept stores u) (after : (u.modCur Cog.stepBack).Kept stores t) : Executed stores s t
  | reset {u : State} (before : s.Kept stores u) : Executed stores s u.chipReset

theorem Executed.of_kept {b : Bool} {s t u : State} (h : s.Kept b t) (g : Executed b t u) : Executed b s u := by
  cases g with
  | onward kept => exact .onward (h.trans kept)
  | again before after => exact .again (h.trans before) after
  | reset before => exact .reset (h.trans before)

theorem Cog.target_lt {c : Cog} {f : RegAddr} {m : BitVec 2} (h : c.targetRefusal f m = none) :
    (c.target f m).toNat < loadLongs := by
  unfold Cog.targetRefusal at h
  split at h
  · have : ¬ 0x1F6 ≤ (c.target f m).toNat := fun hn => by simp [hn] at h
    unfold loadLongs; omega
  · next hf =>
    have : ¬ 0x1F8 ≤ f.toNat := fun hn => by simp [hn] at h
    rw [Cog.target, if_neg hf]
    unfold loadLongs; omega

/-- The D operand of an instruction that executes is no pin register (10_state.md R21). -/
theorem Executes.operandD_lt {s : State} {k : BitVec 4} {d sf : Option RegAddr} (h : Executes s k d sf) :
    (s.cur.operands k d sf).d.toNat < loadLongs := by
  obtain ⟨-, hr⟩ := h
  cases d with
  | none => simp [Cog.operands, loadLongs]
  | some f => exact Cog.target_lt (Option.or_eq_none_iff.mp hr).1

/-- An instruction that answers a next state is skipped, or it executes with operands that have a meaning. -/
theorem executes_of_issue {st t : State} {k : BitVec 4} {d sf : Option RegAddr} {body : Operands → State → Result State}
    (h : issue k d sf st body = .next t) :
    t = st.complete {} ∨ Executes st k d sf ∧ body (st.cur.operands k d sf) (st.issued k d sf) = .next t := by
  by_cases hx : (fieldInd d || fieldInd sf || cond k st.cur.cf st.cur.zf) = true
  · cases hr : st.cur.operandRefusal k d sf with
    | none => exact .inr ⟨⟨hx, hr⟩, (issue_executes ⟨hx, hr⟩).symm.trans h⟩
    | some e => rw [issue_refuses hx hr] at h; simp at h
  · simp only [Bool.or_eq_true, not_or, Bool.not_eq_true] at hx
    rw [issue_skips hx.1.1 hx.1.2 hx.2] at h
    exact .inl (by simpa using h.symm)

/-- What an instruction's body keeps, the instruction keeps. -/
theorem issue_executed {st t : State} {b : Bool} {k : BitVec 4} {d sf : Option RegAddr}
    {body : Operands → State → Result State} (h : issue k d sf st body = .next t)
    (hbody : ∀ o s, o.d.toNat < loadLongs → body o s = .next t → Executed b s t) : Executed b st t := by
  rcases executes_of_issue h with rfl | ⟨hx, hb⟩
  · exact .onward (State.Kept.refl.complete Effect.writable_none)
  · exact (hbody _ _ hx.operandD_lt hb).of_kept State.Kept.refl.issued

end Sys2Proof.Machine
end

section
/-! PROOFS. Each shared operation of the instructions is an `Executed`, and so is every arm of `exec`. -/

namespace Sys2Proof.Machine

open State.Kept (refl)

section Operations

variable {k : BitVec 4} {d : RegAddr} {st t : State}

/-- An instruction whose next state keeps what `State.Kept` lists. -/
theorem Executed.of_next {b : Bool} {s u : State} (e : (.next u : Result State) = .next t) (h : s.Kept b u) : Executed b s t := by
  obtain rfl := Host.Outcome.next.inj e
  exact .onward h

/-! ## Hub memory (40_hub_memory.md) -/

theorem hubWrite_executed {w : Width} {x : HubOperand} (h : hubWrite w k d x st = .next t) : Executed true st t :=
  issue_executed h fun _ _ _ h => by
    obtain ⟨v, -, h⟩ := andThen_eq_next.mp h
    obtain ⟨ea, -, h⟩ := andThen_eq_next.mp h
    exact .of_next h (refl.hubUpdate.memWrite.complete Effect.writable_none)

theorem quadWrite_executed {x : HubOperand} (h : quadWrite k x st = .next t) : Executed true st t :=
  issue_executed h fun _ _ _ h => by
    obtain ⟨ea, -, h⟩ := andThen_eq_next.mp h
    exact .of_next h (refl.hubUpdate.memWrite.complete Effect.writable_none)

theorem hubRead_executed {w : Width} {z : Bool} {x : HubOperand} (h : hubRead w z k d x st = .next t) : Executed false st t :=
  issue_executed h fun _ _ hd h => by
    obtain ⟨ea, -, h⟩ := andThen_eq_next.mp h
    exact .of_next h (refl.hubUpdate.complete (Effect.writable_some hd))

theorem hubReadCached_executed {w : Width} {z : Bool} {x : HubOperand} (h : hubReadCached w z k d x st = .next t) :
    Executed false st t :=
  issue_executed h fun _ _ hd h => by
    obtain ⟨ea, -, h⟩ := andThen_eq_next.mp h
    simp only at h
    split at h
    · exact .of_next h (refl.hubUpdate.complete (Effect.writable_some hd))
    · exact .of_next h ((refl.hubUpdate.modCur {}).complete (Effect.writable_some hd)).openFill

theorem quadRead_executed {x : HubOperand} (h : quadRead k x st = .next t) : Executed false st t :=
  issue_executed h fun _ _ _ h => by
    obtain ⟨ea, -, h⟩ := andThen_eq_next.mp h
    exact .of_next h ((refl.hubUpdate.modCur {}).complete Effect.writable_none).openFill

theorem quadReadCached_executed {x : HubOperand} (h : quadReadCached k x st = .next t) : Executed false st t :=
  issue_executed h fun _ _ _ h => by
    obtain ⟨ea, -, h⟩ := andThen_eq_next.mp h
    simp only at h
    split at h
    · exact .of_next h (refl.hubUpdate.complete Effect.writable_none)
    · exact .of_next h ((refl.hubUpdate.modCur {}).complete Effect.writable_none).openFill

/-! ## Pointers and QUAD control (41_ptr.md, 42_quad.md) -/

theorem ptrGet_executed {sel : PtrSel} {z c r : Bool} (h : ptrGet sel z c r k d st = .next t) : Executed false st t :=
  issue_executed h fun _ _ hd h => .of_next h (refl.complete (Effect.writable_ite hd))

theorem ptrModify_executed {sel : PtrSel} {f : HubAddr → HubAddr → HubAddr} {src : Src}
    (h : ptrModify sel f k src st = .next t) : Executed false st t :=
  issue_executed h fun _ _ _ h => by
    obtain ⟨v, -, h⟩ := andThen_eq_next.mp h
    exact .of_next h ((refl.modCur {}).complete Effect.writable_none)

theorem execCachex_executed (h : execCachex k st = .next t) : Executed false st t :=
  issue_executed h fun _ _ _ h => .of_next h ((refl.modCur {}).complete Effect.writable_none)

theorem execGettops_executed {z : Bool} (h : execGettops z k d st = .next t) : Executed false st t :=
  issue_executed h fun _ _ hd h => .of_next h (refl.complete (Effect.writable_some hd))

/-- A base that is not refused hides the QUADs or leaves $1F6..$1FF free (42_quad.md R167). -/
theorem Cog.kept_rebase (c : Cog) {b : RegAddr} (hb : badBase b = false) : c.Kept (c.rebase b) where
  qbase _ := by
    have := b.isLt
    by_cases e : b = 0x1FF
    · exact .inl e
    · have : b.toNat ≠ 0x1FF := fun h => e (BitVec.eq_of_toNat_eq h)
      simp only [badBase, decide_eq_false_iff_not] at hb
      exact .inr (by simp only [Cog.rebase_qbase]; omega)

theorem quadBase_executed {f : Cog → Cog} {src : Src} (hf : ∀ c : Cog, c.Kept (f c)) (h : quadBase f k src st = .next t) :
    Executed false st t :=
  issue_executed h fun _ _ _ h => by
    obtain ⟨v, -, h⟩ := andThen_eq_next.mp h
    simp only at h
    split at h
    · cases h
    · next hb =>
      have rebased (c : Cog) := c.kept_rebase (Bool.not_eq_true _ ▸ hb)
      exact .of_next h (((refl.modCur (hf _)).complete Effect.writable_none).modCur (rebased _))

/-! ## Hub control (43_hub_control.md) -/

theorem State.coginitEffect_writable {s : State} {z c r : Bool} {target : Option CogId} (hd : d.toNat < loadLongs) :
    (s.coginitEffect z c r d target).Writable := Effect.writable_ite hd

theorem execCoginit_executed {z c r : Bool} {sf : RegAddr} (h : execCoginit z c r k d sf st = .next t) : Executed false st t :=
  issue_executed h fun _ _ hd h => by
    obtain ⟨dv, -, h⟩ := andThen_eq_next.mp h
    obtain ⟨sv, -, h⟩ := andThen_eq_next.mp h
    simp only at h
    split at h
    · split at h
      · exact .of_next h (refl.startCog (programAddr_aligned _)).drawn
      · exact .of_next h ((refl.startCog (programAddr_aligned _)).drawn.complete (State.coginitEffect_writable hd))
    · exact .of_next h (refl.drawn.complete (State.coginitEffect_writable hd))

/-- CLKSET writes the clock register with bit 8 clear, or resets the chip (43_hub_control.md R187). -/
theorem execClkset_executed (h : execClkset k d st = .next t) : Executed false st t :=
  issue_executed h fun _ _ _ h => by
    obtain ⟨v, -, h⟩ := andThen_eq_next.mp h
    simp only at h
    split at h
    · obtain rfl := Host.Outcome.next.inj h
      exact .reset refl
    · next hv => exact .of_next h ((refl.setClkreg (Bool.not_eq_true _ ▸ hv)).complete Effect.writable_none)

theorem execCogid_executed (h : execCogid k d st = .next t) : Executed false st t :=
  issue_executed h fun _ _ hd h => .of_next h (refl.complete (Effect.writable_some hd))

theorem execCogstop_executed (h : execCogstop k d st = .next t) : Executed false st t :=
  issue_executed h fun _ _ _ h => by
    obtain ⟨v, -, h⟩ := andThen_eq_next.mp h
    exact .of_next h ((refl.complete Effect.writable_none).modCog { load := fun _ _ hl => Run.noConfusion hl })

theorem execLocknew_executed {z c : Bool} (h : execLocknew z c k d st = .next t) : Executed false st t :=
  issue_executed h fun _ _ hd h => by
    simp only at h
    split at h
    · exact .of_next h (refl.setLockUsed.drawn.complete (Effect.writable_some hd))
    · exact .of_next h (refl.drawn.complete (Effect.writable_some hd))

theorem execLockret_executed (h : execLockret k d st = .next t) : Executed false st t :=
  issue_executed h fun _ _ _ h => by
    obtain ⟨v, -, h⟩ := andThen_eq_next.mp h
    exact .of_next h (refl.setLockUsed.complete Effect.writable_none)

theorem lockWrite_executed {state c : Bool} (h : lockWrite state c k d st = .next t) : Executed false st t :=
  issue_executed h fun _ _ _ h => by
    obtain ⟨v, -, h⟩ := andThen_eq_next.mp h
    exact .of_next h (refl.setLocks.complete Effect.writable_none)

/-! ## Indirect registers (44_indirect.md) -/

theorem setInd_ordered (a : RegAddr) (p : IndReg) : IndOrdered (setInd a p) := ⟨Nat.zero_le _, Nat.le_of_lt_succ a.isLt⟩

theorem adjInd_ordered (delta : BitVec 9) (p : IndReg) : IndOrdered (adjInd delta p) :=
  ⟨Nat.zero_le _, Nat.le_of_lt_succ (p.ptr + delta).isLt⟩

/-- FIXINDx orders its two limits itself (44_indirect.md R217). -/
theorem fixInd_ordered (terminal initial : RegAddr) (p : IndReg) : IndOrdered (fixInd terminal initial p) := by
  unfold fixInd IndOrdered
  split
  · next h => exact ⟨le_rfl, BitVec.ule_iff_toNat_le.mp h⟩
  · next h => exact ⟨(Nat.le_total _ _).resolve_left (h ∘ BitVec.ule_iff_toNat_le.mpr), le_rfl⟩

theorem indModify_executed {fa fb : IndReg → IndReg} (ha : ∀ p, IndOrdered p → IndOrdered (fa p))
    (hb : ∀ p, IndOrdered p → IndOrdered (fb p)) (h : indModify fa fb st = .next t) : Executed false st t :=
  .of_next h ((refl.modCur { inda := ha _, indb := hb _ }).complete Effect.writable_none)

/-! ## The counter and the waits (46_cnt_wait.md) -/

theorem execSubcnt_executed {z c : Bool} (h : execSubcnt z c k d st = .next t) : Executed false st t :=
  issue_executed h fun _ _ hd h => by
    obtain ⟨v, -, h⟩ := andThen_eq_next.mp h
    exact .of_next h (refl.cntDifference.drawn.complete (Effect.writable_some hd)).endPhase

theorem execCmpcnt_executed {z c : Bool} (h : execCmpcnt z c k d st = .next t) : Executed false st t :=
  issue_executed h fun _ _ _ h => by
    obtain ⟨v, -, h⟩ := andThen_eq_next.mp h
    exact .of_next h (refl.cntDifference.complete Effect.writable_none).endPhase

/-- A pass of PASSCNT goes on, or the cog executes it again (46_cnt_wait.md R258). -/
theorem execPasscnt_executed (h : execPasscnt k d st = .next t) : Executed false st t :=
  issue_executed h fun _ _ _ h => by
    obtain ⟨v, -, h⟩ := andThen_eq_next.mp h
    simp only [Host.Outcome.next.injEq] at h
    split at h
    · exact h ▸ .onward (refl.samplePasscnt.complete Effect.writable_none)
    · exact h ▸ .again refl.samplePasscnt ((refl.complete Effect.writable_none).modCur {})

theorem execGetcnt_executed (h : execGetcnt k d st = .next t) : Executed false st t :=
  issue_executed h fun _ _ hd h => by
    simp only at h
    split at h
    · exact .of_next h (refl.complete (Effect.writable_some hd)).endPhase
    · exact .of_next h ((refl.sampleCnt.modCur {}).complete (Effect.writable_some hd)).endPhase

theorem execWaitcnt_executed {wide r : Bool} {src : Src} (h : execWaitcnt wide r k d src st = .next t) :
    Executed false st t :=
  issue_executed h fun _ s hd h => by
    obtain ⟨dv, -, h⟩ := andThen_eq_next.mp h
    obtain ⟨sv, -, h⟩ := andThen_eq_next.mp h
    have waited : s.Kept false (if wide then s.sampleCnt else s.sampleCnt.reachTarget dv) := by
      split
      · exact refl.sampleCnt
      · exact refl.sampleCnt.reachTarget
    exact .of_next h (waited.drawn.complete (Effect.writable_ite hd))

theorem waitPins_executed {met : Word → Word → Word → Bool} {src : Src} (h : waitPins met k d src st = .next t) :
    Executed false st t :=
  issue_executed h fun _ s _ h => by
    obtain ⟨dv, -, h⟩ := andThen_eq_next.mp h
    obtain ⟨sv, -, h⟩ := andThen_eq_next.mp h
    have waited (ended : Bool) : s.Kept false
        (if ended then (s.drawn 2).sampleCnt else (s.drawn 2).sampleCnt.reachTarget s.cur.lastStored) := by
      split
      · exact refl.drawn.sampleCnt
      · exact refl.drawn.sampleCnt.reachTarget
    exact .of_next h ((waited _).drawn.complete Effect.writable_none)

/-! ## MOV and ADD (47_branches_misc.md) -/

theorem execMov_executed {src : Src} (h : execMov k d src st = .next t) : Executed false st t :=
  issue_executed h fun _ _ hd h => by
    obtain ⟨sv, -, h⟩ := andThen_eq_next.mp h
    exact .of_next h (refl.complete (Effect.writable_some hd))

theorem execAdd_executed {src : Src} (h : execAdd k d src st = .next t) : Executed false st t :=
  issue_executed h fun _ _ hd h => by
    obtain ⟨dv, -, h⟩ := andThen_eq_next.mp h
    obtain ⟨sv, -, h⟩ := andThen_eq_next.mp h
    exact .of_next h (refl.complete (Effect.writable_some hd))

end Operations

/-! ## Every instruction -/

/-- What any instruction can have done, by the operation that its arm shares. -/
theorem exec_executed {i : Instr} {s t : State} (h : exec i s = .next t) : Executed i.storesHub s t := by
  cases i with
  | wrbyteS | wrbyteP | wrwordS | wrwordP | wrlongS | wrlongP => exact hubWrite_executed h
  | wrquadD | wrquadP => exact quadWrite_executed h
  | rdbyteS | rdbyteP | rdwordS | rdwordP | rdlongS | rdlongP => exact hubRead_executed h
  | rdbytecS | rdbytecP | rdwordcS | rdwordcP | rdlongcS | rdlongcP => exact hubReadCached_executed h
  | rdquadD | rdquadP => exact quadRead_executed h
  | rdquadcD | rdquadcP => exact quadReadCached_executed h
  | getptra | getptrb => exact ptrGet_executed h
  | setptraD | setptraI | setptrbD | setptrbI => exact ptrModify_executed (f := fun _ v => v) h
  | addptraD | addptraI | addptrbD | addptrbI => exact ptrModify_executed (f := (· + ·)) h
  | subptraD | subptraI | subptrbD | subptrbI => exact ptrModify_executed (f := (· - ·)) h
  | cachex => exact execCachex_executed h
  | gettops => exact execGettops_executed h
  | setquadD | setquadI => exact quadBase_executed (f := id) (fun _ => {}) h
  | setquazD | setquazI => exact quadBase_executed (f := Cog.clearQuad) (fun _ => {}) h
  | coginit => exact execCoginit_executed h
  | clkset => exact execClkset_executed h
  | cogid => exact execCogid_executed h
  | cogstop => exact execCogstop_executed h
  | locknew => exact execLocknew_executed h
  | lockret => exact execLockret_executed h
  | lockset | lockclr => exact lockWrite_executed h
  | setindaSet => exact indModify_executed (fun p _ => setInd_ordered _ p) (fun _ => id) h
  | setindaAdj => exact indModify_executed (fun p _ => adjInd_ordered _ p) (fun _ => id) h
  | setindbSet => exact indModify_executed (fun _ => id) (fun p _ => setInd_ordered _ p) h
  | setindbAdj => exact indModify_executed (fun _ => id) (fun p _ => adjInd_ordered _ p) h
  | setindsSetSet => exact indModify_executed (fun p _ => setInd_ordered _ p) (fun p _ => setInd_ordered _ p) h
  | setindsSetAdj => exact indModify_executed (fun p _ => adjInd_ordered _ p) (fun p _ => setInd_ordered _ p) h
  | setindsAdjSet => exact indModify_executed (fun p _ => setInd_ordered _ p) (fun p _ => adjInd_ordered _ p) h
  | setindsAdjAdj => exact indModify_executed (fun p _ => adjInd_ordered _ p) (fun p _ => adjInd_ordered _ p) h
  | fixinda => exact indModify_executed (fun p _ => fixInd_ordered _ _ p) (fun _ => id) h
  | fixindb => exact indModify_executed (fun _ => id) (fun p _ => fixInd_ordered _ _ p) h
  | fixinds => exact indModify_executed (fun p _ => fixInd_ordered _ _ p) (fun p _ => fixInd_ordered _ _ p) h
  | subcnt => exact execSubcnt_executed h
  | cmpcnt => exact execCmpcnt_executed h
  | passcnt => exact execPasscnt_executed h
  | getcnt => exact execGetcnt_executed h
  | waitcnt => exact execWaitcnt_executed h
  | waitpeq | waitpne => exact waitPins_executed h
  | mov => exact execMov_executed h
  | add => exact execAdd_executed h

end Sys2Proof.Machine
end

section
/-! PROOFS. The invariant from step to step, and what hub memory, the unreachable registers and the indirect pointers keep. -/

namespace Sys2Proof.Machine

/-! ## The invariant under an instruction -/

theorem Cog.Kept.wf {c c' : Cog} (h : c.Kept c') (w : c.Wf) : c'.Wf where
  ram := h.ram w.ram
  stack := h.stack ▸ w.stack
  pc := h.pc ▸ w.pc
  qbase := h.qbase w.qbase
  load := h.load w.load

theorem State.Kept.inv {b : Bool} {s t : State} (h : s.Kept b t) (hs : s.Inv) : t.Inv where
  mem := h.mem hs.mem
  cogs k := (h.cogs k).wf (hs.cogs k)
  clkreg := h.clkreg hs.clkreg

theorem State.Inv.modCur {s : State} {f : Cog → Cog} (h : s.Inv) (hf : (f s.cur).Wf) : (s.modCur f).Inv where
  mem := h.mem
  cogs k := by
    by_cases e : k = s.turn
    · subst e
      rwa [show (s.modCur f).cogAt s.turn = f s.cur from s.cur_modCur f]
    · exact (s.cogAt_modCur_ne e f).symm ▸ h.cogs k
  clkreg := h.clkreg

theorem State.Inv.drawn {s : State} {n : Nat} (h : s.Inv) : (s.drawn n).Inv := ⟨h.mem, h.cogs, h.clkreg⟩

theorem Cog.Wf.stepBack {c : Cog} (h : c.Wf) (hpc : 1 ≤ c.pc.toNat) : c.stepBack.Wf :=
  { h with pc := by have := h.pc; simp only [Cog.stepBack]; bv_omega }

theorem State.chipReset_cogAt (s : State) (k : CogId) : s.chipReset.cogAt k = (s.cogAt k).afterReset := by
  fin_cases k <;> rfl

theorem cellsWf_nil {w bound : Nat} : CellsWf bound ([] : Cells w) := ⟨List.Pairwise.nil, nofun⟩

theorem Cog.wf_reset : Cog.reset.Wf where
  ram := cellsWf_nil
  stack := cellsWf_nil
  pc := Nat.zero_le _
  qbase := .inl rfl
  load := nofun

/-- A chip reset keeps the invariant: stack RAM is as it was, the rest as at reset (45_stack.md R240). -/
theorem State.Inv.chipReset {s : State} (h : s.Inv) : s.chipReset.Inv where
  mem := hubOfCells_wf _
  cogs k := by
    rw [State.chipReset_cogAt]
    exact { Cog.wf_reset with stack := (h.cogs k).stack }
  clkreg := show (0 : BitVec 9).getLsbD 8 = false from rfl

/-- An instruction keeps the invariant; one that executes again needs a program counter that has been advanced. -/
theorem Executed.inv {b : Bool} {s t : State} (h : Executed b s t) (hs : s.Inv) (hpc : 1 ≤ s.cur.pc.toNat) : t.Inv := by
  cases h with
  | onward kept => exact kept.inv hs
  | @again u _ before after =>
    have hu : u.cur.pc = s.cur.pc := by rw [State.cur, before.turn]; exact (before.cogs _).pc
    have hi := before.inv hs
    exact after.inv (hi.modCur ((hi.cogs _).stepBack (hu ▸ hpc)))
  | reset before => exact (before.inv hs).chipReset

/-! ## The invariant under a step -/

theorem State.passTurn_cogAt (s : State) (k : CogId) : s.passTurn.cogAt k = s.cogAt k := by
  unfold State.passTurn; split <;> rfl

theorem State.passTurn_hub (s : State) : s.passTurn.hub = s.hub := by
  unfold State.passTurn; split <;> rfl

theorem State.Inv.passTurn {s : State} (h : s.Inv) : s.passTurn.Inv where
  mem := s.passTurn_hub ▸ h.mem
  cogs k := s.passTurn_cogAt k ▸ h.cogs k
  clkreg := s.passTurn_hub ▸ h.clkreg

theorem State.startAll_kept (l : List BootEntry) : ∀ s : State, s.Kept false (s.startAll l) := by
  induction l with
  | nil => exact fun _ => .refl
  | cons e rest ih => exact fun s => (State.Kept.refl.startCog (programAddr_aligned _)).trans (ih _)

theorem State.Inv.boot {s : State} (h : s.Inv) : s.boot.Inv :=
  (State.startAll_kept Config.boot _).inv ⟨h.mem, h.cogs, h.clkreg⟩

theorem Cog.Wf.copyLong {c : Cog} {l : Load} {i : Nat} (h : c.Wf) (hl : LoadWf l) (hi : i ∈ l.left) (m : HubMem) :
    (c.copyLong m l i).Wf :=
  { h with
    ram := cellPut_wf h.ram (hl.1 i hi)
    load := fun _ e => Run.loading.inj e ▸ ⟨fun j hj => hl.1 j (List.mem_of_mem_erase hj), hl.2⟩ }

theorem Cog.Wf.finishLoad {c : Cog} (h : c.Wf) (l : Load) (u : StartUp) : (c.finishLoad l u).Wf where
  ram := h.ram
  stack := h.stack
  pc := Nat.zero_le _
  qbase := .inl rfl
  load := nofun

theorem State.Inv.loaderStep {s : State} {l : Load} (h : s.Inv) (hl : s.cur.run = .loading l) : (s.loaderStep l).Inv := by
  have hc : s.cur.Wf := h.cogs s.turn
  unfold State.loaderStep
  split
  · next i hi => exact (h.modCur (hc.copyLong (hc.load l hl) (pickFrom_mem hi) _)).drawn
  · exact (h.modCur (hc.finishLoad l _)).drawn

/-- A fetch that is not refused is from below $1F6 (10_state.md R26). -/
theorem Cog.pc_lt_of_fetch {c : Cog} {iw : Word} (h : c.fetch = .next iw) : c.pc.toNat < 0x1F6 := by
  by_contra hn
  simp [Cog.fetch, Cog.fetchHazard, Nat.not_lt.mp hn] at h

/-- The program counter after a fetch: at most $1F6, and past the instruction (10_state.md R26). -/
theorem State.Inv.advancePc {s : State} (h : s.Inv) (hpc : s.cur.pc.toNat < 0x1F6) :
    s.advancePc.Inv ∧ 1 ≤ s.advancePc.cur.pc.toNat := by
  have hn : (s.cur.pc + 1).toNat = s.cur.pc.toNat + 1 := by bv_omega
  refine ⟨h.modCur { h.cogs s.turn with pc := ?_ }, ?_⟩
  · show (s.cur.pc + 1).toNat ≤ 0x1F6
    omega
  · simp only [State.advancePc, State.cur_modCur]
    omega

theorem State.undecoded_eq_next {s t : State} {iw : Word} {e : DecodeError} (h : s.undecoded iw e = .next t) :
    t = s.complete {} := by
  unfold State.undecoded at h
  split at h
  · cases h
  · cases h
  · split at h
    · exact (Host.Outcome.next.inj h).symm
    · cases h
  · cases h

theorem State.Inv.runLong {s t : State} {iw : Word} (hs : s.Inv) (hf : s.cur.fetch = .next iw) (h : s.runLong iw = .next t) :
    t.Inv := by
  obtain ⟨hi, hpc⟩ := hs.advancePc (Cog.pc_lt_of_fetch hf)
  unfold State.runLong at h
  split at h
  · exact (exec_executed h).inv hi hpc
  · rw [State.undecoded_eq_next h]
    exact (State.Kept.refl.complete (b := false) Effect.writable_none).inv hi

theorem State.Inv.cogStep {s t : State} (hs : s.Inv) (h : s.cogStep = .next t) : t.Inv := by
  unfold State.cogStep at h
  split at h
  · split at h
    · cases h
    · exact Host.Outcome.next.inj h ▸ hs
  · next l hl => exact Host.Outcome.next.inj h ▸ hs.loaderStep hl
  · obtain ⟨iw, hf, hr⟩ := andThen_eq_next.mp h
    exact hs.runLong hf hr

theorem State.Inv.step {s t : State} (hs : s.Inv) (h : step s = .next t) : t.Inv := by
  unfold Machine.step at h
  split at h
  · exact Host.Outcome.next.inj h ▸ hs.boot.passTurn
  · obtain ⟨u, hu, ht⟩ := andThen_eq_next.mp h
    have hi := hs.cogStep hu
    obtain rfl := Host.Outcome.next.inj ht
    split
    · exact hi
    · exact hi.passTurn

/-- Settles O3: an instruction is an `Executed`, which keeps the invariant, and so do the boot process and the loader. -/
theorem stepKeepsTheInvariant : Obligations.StepKeepsTheInvariant := fun _ _ hs h => hs.step h

/-- Settles O2. -/
theorem resetMeetsTheInvariant : Obligations.ResetMeetsTheInvariant where
  mem := reset_memory_wf
  cogs k := by
    have : State.reset.cogAt k = Cog.reset := by simp [State.reset, State.cogAt]
    exact this ▸ Cog.wf_reset
  clkreg := rfl

/-- Settles O1. -/
theorem resetLeavesTheStatedValues : Obligations.ResetLeavesTheStatedValues :=
  ⟨rfl, fun _ ha => hubByte_rom reset_memory_wf ha, rfl, fun k => by simp [State.reset, State.cogAt, Cog.reset], rfl⟩

/-! ## Frames of an instruction -/

theorem Executed.mem {s t : State} (h : Executed false s t) (hr : t.resetPending = false) : t.hub.mem = s.hub.mem := by
  cases h with
  | onward kept => exact kept.stored rfl
  | again before after => exact (after.stored rfl).trans (before.stored rfl)
  | reset before => cases hr

/-- Settles O4: ROM by the canonical form, which every step keeps; RAM by what an instruction that is no store keeps. -/
theorem onlyStoresChangeHubMemory : Obligations.OnlyStoresChangeHubMemory :=
  ⟨fun _ _ _ hs h ha => ⟨hubByte_rom (hs.step h).mem ha, hubByte_rom hs.mem ha⟩,
    fun _ _ _ hi h hr => (hi ▸ exec_executed h).mem hr⟩

/-- What a cog keeps over an instruction: it is `Kept`, but for a program counter stepped back, or the chip has been reset. -/
theorem Executed.cogAt {b : Bool} {s t : State} (h : Executed b s t) (k : CogId) :
    (∃ p, ({ s.cogAt k with pc := p } : Cog).Kept (t.cogAt k)) ∨
      t.resetPending = true ∧ t.cogAt k = { Cog.reset with stack := (s.cogAt k).stack } := by
  cases h with
  | onward kept => exact .inl ⟨_, kept.cogs k⟩
  | @again u _ before after =>
    refine .inl ⟨((u.modCur Cog.stepBack).cogAt k).pc, Cog.Kept.trans ?_ (after.cogs k)⟩
    have hb := before.cogs k
    by_cases e : k = u.turn
    · subst e
      rw [show (u.modCur Cog.stepBack).cogAt u.turn = (u.cogAt u.turn).stepBack from u.cur_modCur _]
      exact { hb with pc := rfl }
    · rw [u.cogAt_modCur_ne e]
      exact { hb with pc := rfl }
  | reset before => exact .inr ⟨rfl, by rw [State.chipReset_cogAt, Cog.afterReset, (before.cogs k).stack]⟩

/-- Settles O7. -/
theorem unreachableStateStaysPut : Obligations.UnreachableStateStaysPut := fun _ _ _ k h => by
  rcases (exec_executed h).cogAt k with ⟨p, kept⟩ | ⟨hr, e⟩
  · exact ⟨kept.stack, fun _ => ⟨kept.spa, kept.spb, kept.cogsel, kept.pinRegs⟩⟩
  · exact ⟨by rw [e], fun hf => by simp [hr] at hf⟩

/-- Settles O8: after a chip reset both pointers are 0 within the limits 0 and 0. -/
theorem indirectPointersStayWithinLimits : Obligations.IndirectPointersStayWithinLimits := fun _ _ _ k h => by
  rcases (exec_executed h).cogAt k with ⟨p, kept⟩ | ⟨-, e⟩
  · exact ⟨kept.inda, kept.indb⟩
  · rw [e]
    exact ⟨fun _ => ⟨le_rfl, le_rfl⟩, fun _ => ⟨le_rfl, le_rfl⟩⟩

end Sys2Proof.Machine
end

section
/-! PROOFS. The overlay, operands with no meaning, the step of a running cog and the fetches that it refuses. -/

namespace Sys2Proof.Machine

/-! ## The QUAD overlay (10_state.md R24) -/

/-- A base that does not hide the QUADs maps the four registers from it up. -/
theorem overlay_mapped {base a : RegAddr} {k : Fin 4} (hb : base.toNat ≤ 0x1F2) (ha : a.toNat = base.toNat + k) :
    overlay base a = some k := by
  have hne : base ≠ 0x1FF := fun e => by simp [e] at hb
  have hr : base.toNat ≤ a.toNat ∧ a.toNat < base.toNat + 4 := by omega
  rw [overlay, if_neg hne, dif_pos hr]
  exact congrArg some (Fin.ext (by simp only; omega))

theorem overlay_unmapped {base a : RegAddr} (h : base = 0x1FF ∨ a.toNat < base.toNat ∨ base.toNat + 4 ≤ a.toNat) :
    overlay base a = none := by
  unfold overlay
  split
  · rfl
  · next hne => exact dif_neg (by rcases h.resolve_left hne with h | h <;> omega)

/-- Settles O32. -/
theorem overlayReadsAndWrites : Obligations.OverlayReadsAndWrites := fun c a b v hs => by
  refine ⟨fun k hb ha => ?_, fun h => ?_, Cog.underlying_store hs a b v, Cog.reg_store hs a b v, rfl⟩
  · have ho := overlay_mapped hb ha
    refine ⟨by rw [Cog.reg, ho], ?_⟩
    rw [Cog.store_quad, Cog.quadStored_some ho]
    simp
  · have ho := overlay_unmapped h
    exact ⟨by rw [Cog.reg, ho], by rw [Cog.store_quad, Cog.quadStored_none ho]⟩

/-! ## Operands with no meaning (10_state.md R21, 44_indirect.md R212) -/

/-- Every instruction but SETINDx and FIXINDx issues with its condition field and its register fields (30_encoding.md R96). -/
theorem exec_eq_issue {i : Instr} {k : BitVec 4} {d sf : Option RegAddr} (h : i.issueFields = some (k, d, sf)) (st : State) :
    ∃ body, exec i st = issue k d sf st body := by
  cases i with
  | wrbyteS | wrbyteP | wrwordS | wrwordP | wrlongS | wrlongP => cases h; exact ⟨_, hubWrite.eq_def ..⟩
  | wrquadD | wrquadP => cases h; exact ⟨_, quadWrite.eq_def ..⟩
  | rdbyteS | rdbyteP | rdwordS | rdwordP | rdlongS | rdlongP => cases h; exact ⟨_, hubRead.eq_def ..⟩
  | rdbytecS | rdbytecP | rdwordcS | rdwordcP | rdlongcS | rdlongcP => cases h; exact ⟨_, hubReadCached.eq_def ..⟩
  | rdquadD | rdquadP => cases h; exact ⟨_, quadRead.eq_def ..⟩
  | rdquadcD | rdquadcP => cases h; exact ⟨_, quadReadCached.eq_def ..⟩
  | getptra | getptrb => cases h; exact ⟨_, ptrGet.eq_def ..⟩
  | setptraD | setptraI | setptrbD | setptrbI => cases h; exact ⟨_, ptrModify.eq_def _ (fun _ v => v) ..⟩
  | addptraD | addptraI | addptrbD | addptrbI => cases h; exact ⟨_, ptrModify.eq_def _ (· + ·) ..⟩
  | subptraD | subptraI | subptrbD | subptrbI => cases h; exact ⟨_, ptrModify.eq_def _ (· - ·) ..⟩
  | cachex => cases h; exact ⟨_, execCachex.eq_def ..⟩
  | gettops => cases h; exact ⟨_, execGettops.eq_def ..⟩
  | setquadD | setquadI | setquazD | setquazI => cases h; exact ⟨_, quadBase.eq_def ..⟩
  | coginit => cases h; exact ⟨_, execCoginit.eq_def ..⟩
  | clkset => cases h; exact ⟨_, execClkset.eq_def ..⟩
  | cogid => cases h; exact ⟨_, execCogid.eq_def ..⟩
  | cogstop => cases h; exact ⟨_, execCogstop.eq_def ..⟩
  | locknew => cases h; exact ⟨_, execLocknew.eq_def ..⟩
  | lockret => cases h; exact ⟨_, execLockret.eq_def ..⟩
  | lockset | lockclr => cases h; exact ⟨_, lockWrite.eq_def ..⟩
  | subcnt => cases h; exact ⟨_, execSubcnt.eq_def ..⟩
  | cmpcnt => cases h; exact ⟨_, execCmpcnt.eq_def ..⟩
  | passcnt => cases h; exact ⟨_, execPasscnt.eq_def ..⟩
  | getcnt => cases h; exact ⟨_, execGetcnt.eq_def ..⟩
  | waitcnt => cases h; exact ⟨_, execWaitcnt.eq_def ..⟩
  | waitpeq | waitpne => cases h; exact ⟨_, waitPins.eq_def ..⟩
  | mov => cases h; exact ⟨_, execMov.eq_def ..⟩
  | add => cases h; exact ⟨_, execAdd.eq_def ..⟩
  | setindaSet | setindaAdj | setindbSet | setindbAdj | setindsSetSet | setindsSetAdj | setindsAdjSet | setindsAdjAdj | fixinda
  | fixindb | fixinds => cases h

theorem Cog.targetRefusal_pinRegister {c : Cog} {f : RegAddr} {m : BitVec 2} (h : 0x1F8 ≤ f.toNat) :
    c.targetRefusal f m = some .pinRegister := by
  have hn : namesInd f = false := by
    simp only [namesInd, Bool.or_eq_false_iff, beq_eq_false_iff_ne]
    exact ⟨fun e => by simp [e] at h, fun e => by simp [e] at h⟩
  simp [Cog.targetRefusal, hn, h]

theorem Cog.targetRefusal_indirectTarget {c : Cog} {f : RegAddr} {m : BitVec 2} (hn : namesInd f = true)
    (h : 0x1F6 ≤ (c.target f m).toNat) : c.targetRefusal f m = some .indirectTarget := by
  simp [Cog.targetRefusal, hn, h]

/-- The refusal of D comes first. -/
theorem Cog.operandRefusal_d {c : Cog} {k : BitVec 4} {f : RegAddr} {sf : Option RegAddr} {e : Refusal}
    (h : c.targetRefusal f (modeD k) = some e) : c.operandRefusal k (some f) sf = some e := by
  simp [Cog.operandRefusal, h]

/-- The refusal of S, where D has a meaning. -/
theorem Cog.operandRefusal_s {c : Cog} {k : BitVec 4} {d : Option RegAddr} {g : RegAddr} {e : Refusal}
    (hd : ∀ f, d = some f → c.targetRefusal f (modeD k) = none) (h : c.targetRefusal g (modeS k) = some e) :
    c.operandRefusal k d (some g) = some e := by
  have : (d.bind fun f => c.targetRefusal f (modeD k)) = none := Option.bind_eq_none_iff.mpr hd
  simp [Cog.operandRefusal, this, h]

/-- Settles O36. -/
theorem operandsWithNoMeaningAreRefused : Obligations.OperandsWithNoMeaningAreRefused := fun i st k d sf hi hx => by
  obtain ⟨body, he⟩ := exec_eq_issue hi st
  have refused {e : Refusal} (h : st.cur.operandRefusal k d sf = some e) : exec i st = .refused e :=
    he.trans (issue_refuses hx h)
  refine ⟨?_, ?_, fun hd => ⟨?_, ?_⟩⟩
  · rintro f rfl hp
    exact refused (Cog.operandRefusal_d (Cog.targetRefusal_pinRegister hp))
  · rintro f rfl hn ht
    exact refused (Cog.operandRefusal_d (Cog.targetRefusal_indirectTarget hn ht))
  · rintro g rfl hp
    exact refused (Cog.operandRefusal_s hd (Cog.targetRefusal_pinRegister hp))
  · rintro g rfl hn ht
    exact refused (Cog.operandRefusal_s hd (Cog.targetRefusal_indirectTarget hn ht))

/-! ## The step of a running cog (10_state.md R26) -/

/-- A running cog fetches a long and runs it, and then the turn passes, unless the chip has been reset. -/
theorem step_running {s : State} (hp : s.resetPending = false) (hr : s.cur.run = .running) :
    step s = andThen (andThen s.cur.fetch s.runLong) fun t => .next (if t.resetPending then t else t.passTurn) := by
  simp only [step, hp, Bool.false_eq_true, if_false, State.cogStep, hr]

theorem Cog.fetch_of_hazard_none {c : Cog} (h : c.fetchHazard c.pc = none) : c.fetch = .next (c.reg c.pc) := by
  simp only [Cog.fetch, h]

theorem State.runLong_of_decode {s : State} {iw : Word} {i : Instr} (h : decode iw = .ok i) :
    s.runLong iw = exec i s.advancePc := by
  simp only [State.runLong, h]

theorem State.passTurn_eq (t : State) : t.passTurn = { t with turn := t.passTurn.turn, draws := t.passTurn.draws } := by
  unfold State.passTurn; split <;> rfl

/-- The turn passes to a cog that is not idle, if there is one (60_exceptions.md R320). -/
theorem State.passTurn_active {t : State} {k : CogId} (h : (t.cogAt k).run ≠ .idle) :
    (t.cogAt t.passTurn.turn).run ≠ .idle := by
  have hk : k ∈ t.activeCogs := List.mem_filter.mpr ⟨mem_allCogs k, by simpa using h⟩
  obtain ⟨j, hj⟩ := pickFrom_some (Config.schedule t.draws) (List.ne_nil_of_mem hk)
  have ht : t.passTurn.turn = j := by simp only [State.passTurn, hj, State.drawn_turn]
  rw [ht]
  simpa using (List.mem_filter.mp (pickFrom_mem hj)).2

/-- Settles O14. -/
theorem stepRunsTheDecodedInstruction : Obligations.StepRunsTheDecodedInstruction := fun s i hp hr hf hd => by
  refine ⟨?_, fun t => ⟨t.passTurn_eq, fun ⟨k, hk⟩ => State.passTurn_active hk⟩⟩
  rw [step_running hp hr, Cog.fetch_of_hazard_none hf, andThen_next, State.runLong_of_decode hd]
  rfl

/-! ## Fetches that are refused -/

/-- A hazard against the fetch is the step's refusal. -/
theorem step_refused_of_fetchHazard {s : State} {e : Refusal} (hp : s.resetPending = false) (hr : s.cur.run = .running)
    (h : s.cur.fetchHazard s.cur.pc = some e) : step s = .refused e := by
  simp only [step_running hp hr, Cog.fetch, h, andThen_refused]

/-- Settles O16: the four checks of a fetch, in their order. -/
theorem fetchesWithNoMeaningAreRefused : Obligations.FetchesWithNoMeaningAreRefused := fun s hp hr => by
  refine ⟨fun h1 => ?_, fun h1 h2 => ?_, fun h1 h2 h3 h4 => ?_, fun h1 h2 h3 h4 => ?_⟩ <;>
    refine step_refused_of_fetchHazard hp hr ?_ <;>
    unfold Cog.fetchHazard
  · rw [if_pos h1]
  · rw [if_neg (Nat.not_le.mpr h1), if_pos h2]
  · rw [if_neg (Nat.not_le.mpr h1), if_neg h2, if_pos ⟨h3, Option.isSome_iff_ne_none.mpr h4⟩]
  · have hfill : ¬ (s.cur.fill ≠ .settled ∧ (overlay s.cur.qbase s.cur.pc).isSome = true) := fun ⟨hf, ho⟩ =>
      h3.elim hf (Option.isSome_iff_ne_none.mp ho)
    have hany : (s.cur.remaps.any fun m => (overlay m.base s.cur.pc).isSome) = true := by
      obtain ⟨m, hm, ho⟩ := h4
      exact List.any_eq_true.mpr ⟨m, hm, Option.isSome_iff_ne_none.mpr ho⟩
    rw [if_neg (Nat.not_le.mpr h1), if_neg h2, if_neg hfill, if_pos hany]

end Sys2Proof.Machine
end

section
/-! PROOFS. What an instruction leaves of the cogs that do not execute it. -/

namespace Sys2Proof.Machine

/-! ## Other cogs (20_memory.md R60) -/

/-- What an instruction leaves of a cog that is not its own: all of it, but for whether it runs and when if the instruction
controls cogs (43_hub_control.md R181, R189). -/
structure Cog.Spared (controls : Bool) (c c' : Cog) : Prop where
  frame     : c' = { c with run := c'.run, due := c'.due } := by rfl
  unchanged : controls = false → c' = c := by exact fun _ => rfl

theorem Cog.Spared.trans {b : Bool} {c c' c'' : Cog} (h : c.Spared b c') (g : c'.Spared b c'') : c.Spared b c'' where
  frame := calc
    c'' = { c' with run := c''.run, due := c''.due } := g.frame
    _ = { c with run := c''.run, due := c''.due } := by rw [h.frame]
  unchanged hb := (g.unchanged hb).trans (h.unchanged hb)

/-- From `s` to `t` every cog but the executing one is spared. -/
structure State.SparesOthers (controls : Bool) (s t : State) : Prop where
  others : ∀ k, k ≠ s.turn → (s.cogAt k).Spared controls (t.cogAt k)
  turn   : t.turn = s.turn

namespace State.SparesOthers

variable {b : Bool} {s t u : State}

theorem refl : s.SparesOthers b s := ⟨fun _ _ => {}, rfl⟩

theorem trans (h : s.SparesOthers b t) (g : t.SparesOthers b u) : s.SparesOthers b u where
  others k hk := (h.others k hk).trans (g.others k (h.turn ▸ hk))
  turn := g.turn.trans h.turn

theorem modCur (h : s.SparesOthers b t) {f : Cog → Cog} : s.SparesOthers b (t.modCur f) :=
  h.trans ⟨fun _ hk => by rw [State.cogAt_modCur_ne t hk]; exact {}, rfl⟩

/-- Any cog changed, but no more than a cog that is not the executing one may be. -/
theorem modCog (h : s.SparesOthers b t) {j : CogId} {f : Cog → Cog} (hf : (t.cogAt j).Spared b (f (t.cogAt j))) :
    s.SparesOthers b (t.modCog j f) :=
  h.trans
    { others := fun k _ => by
        by_cases e : k = j
        · subst e; simpa using hf
        · simpa [e] using {}
      turn := rfl }

theorem modHub (h : s.SparesOthers b t) {f : Hub → Hub} : s.SparesOthers b (t.modHub f) := h.trans ⟨fun _ _ => {}, rfl⟩

theorem drawn (h : s.SparesOthers b t) {n : Nat} : s.SparesOthers b (t.drawn n) := h.trans ⟨fun _ _ => {}, rfl⟩

theorem issued (h : s.SparesOthers b t) {k : BitVec 4} {d sf : Option RegAddr} : s.SparesOthers b (t.issued k d sf) := h.modCur

theorem complete (h : s.SparesOthers b t) {e : Effect} : s.SparesOthers b (t.complete e) := h.modCur

theorem openFill (h : s.SparesOthers b t) : s.SparesOthers b t.openFill := h.modCur

theorem endPhase (h : s.SparesOthers b t) {high : Bool} {x : CntPhase} : s.SparesOthers b (t.endPhase high x) := h.modCur

theorem hubUpdate (h : s.SparesOthers b t) {x : HubOperand} {w : Width} : s.SparesOthers b (t.hubUpdate x w) := by
  cases x with
  | reg f => exact h
  | ptr p => exact h.modCur

theorem passClocks (h : s.SparesOthers b t) {n : Nat} : s.SparesOthers b (t.passClocks n) := h.modHub.modCur

theorem sampleCnt (h : s.SparesOthers b t) : s.SparesOthers b t.sampleCnt := h.passClocks.drawn

theorem samplePasscnt (h : s.SparesOthers b t) : s.SparesOthers b t.samplePasscnt := by
  obtain ⟨n, -, -, e⟩ := t.samplePasscnt_eq
  exact e ▸ h.passClocks.drawn

theorem reachTarget (h : s.SparesOthers b t) {target : Word} : s.SparesOthers b (t.reachTarget target) := by
  obtain ⟨n, k, e, -⟩ := t.reachTarget_eq target
  exact e ▸ h.passClocks.drawn

theorem cntDifference (h : s.SparesOthers b t) {high : Bool} {v : Word} : s.SparesOthers b (t.cntDifference high v).1 := by
  cases high with
  | false =>
    simp only [State.cntDifference, Bool.false_eq_true, if_false, State.subLow]
    exact h.sampleCnt.modCur
  | true => exact h

/-- A cog that is started keeps all but whether it runs and when, until its load acts (43_hub_control.md R184). -/
theorem startCog (h : s.SparesOthers true t) {k : CogId} {addr par : HubAddr} {start : Nat} :
    s.SparesOthers true (t.startCog k addr par start) := h.modCog { unchanged := nofun }

/-- A cog that is stopped (43_hub_control.md R189). -/
theorem stopCog (h : s.SparesOthers true t) {k : CogId} :
    s.SparesOthers true (t.modCog k fun c => { c with run := .idle }) := h.modCog { unchanged := nofun }

theorem of_next (e : (.next u : Result State) = .next t) (h : s.SparesOthers b u) : s.SparesOthers b t :=
  Host.Outcome.next.inj e ▸ h

end State.SparesOthers

open State.SparesOthers (refl of_next)

section Operations

variable {b : Bool} {k : BitVec 4} {d : RegAddr} {st t : State}

/-- What an instruction's body spares, the instruction spares. -/
theorem issue_sparesOthers {d sf : Option RegAddr} {body : Operands → State → Result State}
    (h : issue k d sf st body = .next t) (hbody : ∀ o s, body o s = .next t → s.SparesOthers b t) : st.SparesOthers b t := by
  rcases issue_eq_next h with rfl | hb
  · exact refl.complete
  · exact refl.issued.trans (hbody _ _ hb)

theorem hubWrite_sparesOthers {w : Width} {x : HubOperand} (h : hubWrite w k d x st = .next t) : st.SparesOthers b t :=
  issue_sparesOthers h fun _ _ h => by
    obtain ⟨v, -, h⟩ := andThen_eq_next.mp h
    obtain ⟨ea, -, h⟩ := andThen_eq_next.mp h
    exact of_next h refl.hubUpdate.modHub.complete

theorem quadWrite_sparesOthers {x : HubOperand} (h : quadWrite k x st = .next t) : st.SparesOthers b t :=
  issue_sparesOthers h fun _ _ h => by
    obtain ⟨ea, -, h⟩ := andThen_eq_next.mp h
    exact of_next h refl.hubUpdate.modHub.complete

theorem hubRead_sparesOthers {w : Width} {z : Bool} {x : HubOperand} (h : hubRead w z k d x st = .next t) :
    st.SparesOthers b t :=
  issue_sparesOthers h fun _ _ h => by
    obtain ⟨ea, -, h⟩ := andThen_eq_next.mp h
    exact of_next h refl.hubUpdate.complete

theorem hubReadCached_sparesOthers {w : Width} {z : Bool} {x : HubOperand} (h : hubReadCached w z k d x st = .next t) :
    st.SparesOthers b t :=
  issue_sparesOthers h fun _ _ h => by
    obtain ⟨ea, -, h⟩ := andThen_eq_next.mp h
    simp only at h
    split at h
    · exact of_next h refl.hubUpdate.complete
    · exact of_next h refl.hubUpdate.modCur.complete.openFill

theorem quadRead_sparesOthers {x : HubOperand} (h : quadRead k x st = .next t) : st.SparesOthers b t :=
  issue_sparesOthers h fun _ _ h => by
    obtain ⟨ea, -, h⟩ := andThen_eq_next.mp h
    exact of_next h refl.hubUpdate.modCur.complete.openFill

theorem quadReadCached_sparesOthers {x : HubOperand} (h : quadReadCached k x st = .next t) : st.SparesOthers b t :=
  issue_sparesOthers h fun _ _ h => by
    obtain ⟨ea, -, h⟩ := andThen_eq_next.mp h
    simp only at h
    split at h
    · exact of_next h refl.hubUpdate.complete
    · exact of_next h refl.hubUpdate.modCur.complete.openFill

theorem ptrGet_sparesOthers {sel : PtrSel} {z c r : Bool} (h : ptrGet sel z c r k d st = .next t) : st.SparesOthers b t :=
  issue_sparesOthers h fun _ _ h => of_next h refl.complete

theorem ptrModify_sparesOthers {sel : PtrSel} {f : HubAddr → HubAddr → HubAddr} {src : Src}
    (h : ptrModify sel f k src st = .next t) : st.SparesOthers b t :=
  issue_sparesOthers h fun _ _ h => by
    obtain ⟨v, -, h⟩ := andThen_eq_next.mp h
    exact of_next h refl.modCur.complete

theorem execCachex_sparesOthers (h : execCachex k st = .next t) : st.SparesOthers b t :=
  issue_sparesOthers h fun _ _ h => of_next h refl.modCur.complete

theorem execGettops_sparesOthers {z : Bool} (h : execGettops z k d st = .next t) : st.SparesOthers b t :=
  issue_sparesOthers h fun _ _ h => of_next h refl.complete

theorem quadBase_sparesOthers {f : Cog → Cog} {src : Src} (h : quadBase f k src st = .next t) : st.SparesOthers b t :=
  issue_sparesOthers h fun _ _ h => by
    obtain ⟨v, -, h⟩ := andThen_eq_next.mp h
    simp only at h
    split at h
    · cases h
    · exact of_next h refl.modCur.complete.modCur

/-- COGINIT starts one cog at most, and delivers to its own (43_hub_control.md R181). -/
theorem execCoginit_sparesOthers {z c r : Bool} {sf : RegAddr} (h : execCoginit z c r k d sf st = .next t) :
    st.SparesOthers true t :=
  issue_sparesOthers h fun _ _ h => by
    obtain ⟨dv, -, h⟩ := andThen_eq_next.mp h
    obtain ⟨sv, -, h⟩ := andThen_eq_next.mp h
    simp only at h
    split at h
    · split at h
      · exact of_next h refl.startCog.drawn
      · exact of_next h refl.startCog.drawn.complete
    · exact of_next h refl.drawn.complete

/-- CLKSET, where it does not reset the chip (43_hub_control.md R187). -/
theorem execClkset_sparesOthers (h : execClkset k d st = .next t) (hr : t.resetPending = false) : st.SparesOthers b t :=
  issue_sparesOthers h fun _ _ h => by
    obtain ⟨v, -, h⟩ := andThen_eq_next.mp h
    simp only at h
    split at h
    · obtain rfl := Host.Outcome.next.inj h
      cases hr
    · exact of_next h refl.modHub.complete

theorem execCogid_sparesOthers (h : execCogid k d st = .next t) : st.SparesOthers b t :=
  issue_sparesOthers h fun _ _ h => of_next h refl.complete

theorem execCogstop_sparesOthers (h : execCogstop k d st = .next t) : st.SparesOthers true t :=
  issue_sparesOthers h fun _ _ h => by
    obtain ⟨v, -, h⟩ := andThen_eq_next.mp h
    exact of_next h refl.complete.stopCog

theorem execLocknew_sparesOthers {z c : Bool} (h : execLocknew z c k d st = .next t) : st.SparesOthers b t :=
  issue_sparesOthers h fun _ _ h => by
    simp only at h
    split at h
    · exact of_next h refl.modHub.drawn.complete
    · exact of_next h refl.drawn.complete

theorem execLockret_sparesOthers (h : execLockret k d st = .next t) : st.SparesOthers b t :=
  issue_sparesOthers h fun _ _ h => by
    obtain ⟨v, -, h⟩ := andThen_eq_next.mp h
    exact of_next h refl.modHub.complete

theorem lockWrite_sparesOthers {state c : Bool} (h : lockWrite state c k d st = .next t) : st.SparesOthers b t :=
  issue_sparesOthers h fun _ _ h => by
    obtain ⟨v, -, h⟩ := andThen_eq_next.mp h
    exact of_next h refl.modHub.complete

theorem indModify_sparesOthers {fa fb : IndReg → IndReg} (h : indModify fa fb st = .next t) : st.SparesOthers b t :=
  of_next h refl.modCur.complete

theorem execSubcnt_sparesOthers {z c : Bool} (h : execSubcnt z c k d st = .next t) : st.SparesOthers b t :=
  issue_sparesOthers h fun _ _ h => by
    obtain ⟨v, -, h⟩ := andThen_eq_next.mp h
    exact of_next h refl.cntDifference.drawn.complete.endPhase

theorem execCmpcnt_sparesOthers {z c : Bool} (h : execCmpcnt z c k d st = .next t) : st.SparesOthers b t :=
  issue_sparesOthers h fun _ _ h => by
    obtain ⟨v, -, h⟩ := andThen_eq_next.mp h
    exact of_next h refl.cntDifference.complete.endPhase

theorem execPasscnt_sparesOthers (h : execPasscnt k d st = .next t) : st.SparesOthers b t :=
  issue_sparesOthers h fun _ _ h => by
    obtain ⟨v, -, h⟩ := andThen_eq_next.mp h
    simp only at h
    split at h
    · exact of_next h refl.samplePasscnt.complete
    · exact of_next h refl.samplePasscnt.modCur.complete.modCur

theorem execGetcnt_sparesOthers (h : execGetcnt k d st = .next t) : st.SparesOthers b t :=
  issue_sparesOthers h fun _ _ h => by
    simp only at h
    split at h
    · exact of_next h refl.complete.endPhase
    · exact of_next h refl.sampleCnt.modCur.complete.endPhase

theorem execWaitcnt_sparesOthers {wide r : Bool} {src : Src} (h : execWaitcnt wide r k d src st = .next t) :
    st.SparesOthers b t :=
  issue_sparesOthers h fun _ _ h => by
    obtain ⟨dv, -, h⟩ := andThen_eq_next.mp h
    obtain ⟨sv, -, h⟩ := andThen_eq_next.mp h
    cases wide with
    | false => exact of_next h refl.sampleCnt.reachTarget.drawn.complete
    | true => exact of_next h refl.sampleCnt.drawn.complete

theorem waitPins_sparesOthers {met : Word → Word → Word → Bool} {src : Src} (h : waitPins met k d src st = .next t) :
    st.SparesOthers b t :=
  issue_sparesOthers h fun _ s h => by
    obtain ⟨dv, -, h⟩ := andThen_eq_next.mp h
    obtain ⟨sv, -, h⟩ := andThen_eq_next.mp h
    have waited (ended : Bool) : s.SparesOthers b
        (if ended then (s.drawn 2).sampleCnt else (s.drawn 2).sampleCnt.reachTarget s.cur.lastStored) := by
      cases ended with
      | false => exact refl.drawn.sampleCnt.reachTarget
      | true => exact refl.drawn.sampleCnt
    exact of_next h (waited _).drawn.complete

theorem execMov_sparesOthers {src : Src} (h : execMov k d src st = .next t) : st.SparesOthers b t :=
  issue_sparesOthers h fun _ _ h => by
    obtain ⟨sv, -, h⟩ := andThen_eq_next.mp h
    exact of_next h refl.complete

theorem execAdd_sparesOthers {src : Src} (h : execAdd k d src st = .next t) : st.SparesOthers b t :=
  issue_sparesOthers h fun _ _ h => by
    obtain ⟨dv, -, h⟩ := andThen_eq_next.mp h
    obtain ⟨sv, -, h⟩ := andThen_eq_next.mp h
    exact of_next h refl.complete

end Operations

/-- Short of a chip reset every instruction spares the other cogs, by the operation that its arm shares. -/
theorem exec_sparesOthers {i : Instr} {s t : State} (h : exec i s = .next t) (hr : t.resetPending = false) :
    s.SparesOthers i.controlsCogs t := by
  cases i with
  | coginit => exact execCoginit_sparesOthers h
  | cogstop => exact execCogstop_sparesOthers h
  | clkset => exact execClkset_sparesOthers h hr
  | wrbyteS | wrbyteP | wrwordS | wrwordP | wrlongS | wrlongP => exact hubWrite_sparesOthers h
  | wrquadD | wrquadP => exact quadWrite_sparesOthers h
  | rdbyteS | rdbyteP | rdwordS | rdwordP | rdlongS | rdlongP => exact hubRead_sparesOthers h
  | rdbytecS | rdbytecP | rdwordcS | rdwordcP | rdlongcS | rdlongcP => exact hubReadCached_sparesOthers h
  | rdquadD | rdquadP => exact quadRead_sparesOthers h
  | rdquadcD | rdquadcP => exact quadReadCached_sparesOthers h
  | getptra | getptrb => exact ptrGet_sparesOthers h
  | setptraD | setptraI | setptrbD | setptrbI => exact ptrModify_sparesOthers (f := fun _ v => v) h
  | addptraD | addptraI | addptrbD | addptrbI => exact ptrModify_sparesOthers (f := (· + ·)) h
  | subptraD | subptraI | subptrbD | subptrbI => exact ptrModify_sparesOthers (f := (· - ·)) h
  | cachex => exact execCachex_sparesOthers h
  | gettops => exact execGettops_sparesOthers h
  | setquadD | setquadI => exact quadBase_sparesOthers (f := id) h
  | setquazD | setquazI => exact quadBase_sparesOthers (f := Cog.clearQuad) h
  | cogid => exact execCogid_sparesOthers h
  | locknew => exact execLocknew_sparesOthers h
  | lockret => exact execLockret_sparesOthers h
  | lockset | lockclr => exact lockWrite_sparesOthers h
  | setindaSet | setindaAdj | setindbSet | setindbAdj | setindsSetSet | setindsSetAdj | setindsAdjSet | setindsAdjAdj
  | fixinda | fixindb | fixinds => exact indModify_sparesOthers h
  | subcnt => exact execSubcnt_sparesOthers h
  | cmpcnt => exact execCmpcnt_sparesOthers h
  | passcnt => exact execPasscnt_sparesOthers h
  | getcnt => exact execGetcnt_sparesOthers h
  | waitcnt => exact execWaitcnt_sparesOthers h
  | waitpeq | waitpne => exact waitPins_sparesOthers h
  | mov => exact execMov_sparesOthers h
  | add => exact execAdd_sparesOthers h

/-- Settles O5. -/
theorem cogsAreIsolated : Obligations.CogsAreIsolated := fun _ _ _ k h hr hk =>
  have spared := (exec_sparesOthers h hr).others k hk
  ⟨spared.frame, spared.unchanged⟩

end Sys2Proof.Machine
end

section
/-! PROOFS. Hub memory by bytes, the addressing table, and the sample words. -/

namespace Sys2Proof.Machine

/-! ## Reads (20_memory.md R63) -/

/-- Byte `i` of what `MemRead` answers, at any width that holds it. -/
theorem memRead_byte {k : Nat} (m : HubMem) (a : HubAddr) (w : Width) {i : Nat} (hi : i < w.bytes) (hk : 8 * w.bytes ≤ k) :
    (memRead k m a w).extractLsb' (8 * i) 8 = hubByte m (alignDown a w + i) := by
  apply BitVec.eq_of_getLsbD_eq
  intro j hj
  have hq : (8 * i + j) / 8 = i := by omega
  have hr : (8 * i + j) % 8 = j := by omega
  have hlt : 8 * i + j < k ∧ 8 * i + j < 8 * w.bytes := by omega
  rw [BitVec.getLsbD_extractLsb', memRead_getLsbD, hq, hr]
  simp [hj, hlt]

/-- Settles O20. -/
theorem memReadIsLittleEndian : Obligations.MemReadIsLittleEndian := fun m a w i hi => by
  simp only [← alignDown_eq_mask]
  exact memRead_byte m a w hi le_rfl

/-! ## Writes (20_memory.md R64) -/

/-- An aligned unit lies wholly in ROM or wholly in RAM: RAM begins at a multiple of every width (20_memory.md R61). -/
theorem alignDown_rom_or_ram (a : HubAddr) (w : Width) : alignDown a w + w.bytes ≤ romEnd ∨ romEnd ≤ alignDown a w := by
  cases w <;> simp only [alignDown, Width.bytes, romEnd] <;> omega

/-- Settles O21. -/
theorem memWriteStoresInRamOnly : Obligations.MemWriteStoresInRamOnly := fun m a w v hm => by
  simp only [← alignDown_eq_mask]
  exact ⟨hubByte_memWrite_field hm a w v, alignDown_rom_or_ram a w, memWrite_wf hm a w v⟩

/-! ## The addressing table (20_memory.md R66) -/

theorem hubByte_of_map_range {m : HubMem} {n i : Nat} {l : List Byte} {v : Byte} (h : (List.range n).map (hubByte m) = l)
    (hv : l[i]? = some v) : hubByte m i = v := by
  rw [← h, List.getElem?_map, Option.map_eq_some_iff] at hv
  obtain ⟨j, hj, rfl⟩ := hv
  obtain ⟨hi, rfl⟩ := List.getElem?_eq_some_iff.mp hj
  rw [List.getElem_range]

/-- `MemRead` of a unit inside 16 bytes of memory that hold the value `q`. -/
theorem memRead_of_quad {m : HubMem} {b : Nat} {q : BitVec 128} (hq : ∀ i < 16, hubByte m (b + i) = q.extractLsb' (8 * i) 8)
    {a : HubAddr} {w : Width} {i : Nat} (ha : alignDown a w = b + i) (hi : i + w.bytes ≤ 16) :
    memRead (8 * w.bytes) m a w = q.extractLsb' (8 * i) (8 * w.bytes) := by
  apply BitVec.eq_of_getLsbD_eq
  intro j hj
  have hbit : 8 * (i + j / 8) + j % 8 = 8 * i + j := by omega
  have hmod : j % 8 < 8 := Nat.mod_lt _ (by decide)
  rw [memRead_getLsbD, ha, Nat.add_assoc, hq _ (by omega), BitVec.getLsbD_extractLsb', BitVec.getLsbD_extractLsb', hbit]
  simp [hj, hmod]

/-- Every address of a quad that holds the value `q` reads the byte, word, long and quad of `q` that it lies in. -/
theorem memRead_units {m : HubMem} {b : HubAddr} {q : BitVec 128} (hb : b.toNat % 16 = 0)
    (hq : ∀ i < 16, hubByte m (b.toNat + i) = q.extractLsb' (8 * i) 8) (k : Fin 16) :
    let a := b + BitVec.ofNat 17 k
    memRead 8 m a .byte = q.extractLsb' (8 * k) 8 ∧ memRead 16 m a .word = q.extractLsb' (16 * (k / 2)) 16 ∧
      memRead 32 m a .long = q.extractLsb' (32 * (k / 4)) 32 ∧ memRead 128 m a .quad = q := by
  intro a
  have hk := k.isLt
  have ha : a.toNat = b.toNat + k := by
    have := b.isLt
    simp only [a, BitVec.toNat_add, BitVec.toNat_ofNat]
    omega
  have unit (w : Width) : alignDown a w = b.toNat + k / w.bytes * w.bytes ∧ k / w.bytes * w.bytes + w.bytes ≤ 16 := by
    cases w <;> simp only [alignDown, Width.bytes, ha] <;> omega
  have read (w : Width) := memRead_of_quad hq (unit w).1 (unit w).2
  refine ⟨?_, ?_, ?_, ?_⟩
  · simpa [Width.bytes] using read .byte
  · simpa [Width.bytes, show 8 * (k / 2 * 2) = 16 * (k / 2 : Nat) by omega] using read .word
  · simpa [Width.bytes, show 8 * (k / 4 * 4) = 32 * (k / 4 : Nat) by omega] using read .long
  · simpa [Width.bytes, Nat.div_eq_of_lt hk] using read .quad

/-- Settles O22: the two quads of the table are the bytes it lists. -/
theorem addressingTableReads : Obligations.AddressingTableReads := fun m hm x hx => by
  have bytes {i : Nat} {v : Byte} : knownRom[i]? = some v → hubByte m i = v := hubByte_of_map_range hm
  simp only [List.mem_cons, List.not_mem_nil, or_false] at hx
  rcases hx with rfl | rfl
  · have hq : ∀ i < 16, knownRom[0 + i]? = some (BitVec.extractLsb' (8 * i) 8 0x0C7CCC030C7C200020302E32706F7250#128) := by
      decide
    exact memRead_units rfl fun i hi => bytes (hq i hi)
  · have hq : ∀ i < 16, knownRom[16 + i]? = some (BitVec.extractLsb' (8 * i) 8 0x0D7CC6010C7CC6010CFCB6E30DC1FE45#128) := by
      decide
    exact memRead_units rfl fun i hi => bytes (hq i hi)

/-! ## Sample words (20_memory.md R65; 47_branches_misc.md R285, R286) -/

/-- Settles O13, by evaluation of the decoder on each word. -/
theorem sampleWordsDecode : Obligations.SampleWordsDecode :=
  ⟨by decide, by decide, by decide, by decide, by decide, by decide, by decide, by decide, by decide, by decide, by decide⟩

end Sys2Proof.Machine
end

section
/-! PROOFS. The decoder and the encoder are inverse to each other, and the longs that decode are those of the opcode table's
rows. -/

namespace Sys2Proof

/-! ## The fields of a long (30_encoding.md R91) -/

/-- No bit of a long lies outside its fields. -/
@[simp] theorem Fields.join_split (iw : Word) : (Fields.split iw).join = iw := by
  apply BitVec.eq_of_getLsbD_eq
  intro j hj
  simp only [Fields.join, Fields.split, BitVec.getLsbD_append, BitVec.getLsbD_extractLsb', BitVec.getLsbD_ofBool]
  split_ifs <;> simp (disch := omega) only [decide_eq_true, Bool.true_and] <;> congr 1 <;> omega

theorem Fields.split_injective {x y : Word} (h : Fields.split x = Fields.split y) : x = y := by
  rw [← Fields.join_split x, h, Fields.join_split]

/-- The bits that two longs share, field by field. -/
def Fields.and (f g : Fields) : Fields where
  op   := f.op &&& g.op
  z    := f.z && g.z
  c    := f.c && g.c
  r    := f.r && g.r
  i    := f.i && g.i
  cccc := f.cccc &&& g.cccc
  d    := f.d &&& g.d
  s    := f.s &&& g.s

theorem Fields.split_and (x y : Word) : Fields.split (x &&& y) = (Fields.split x).and (Fields.split y) := by
  have extract (k n : Nat) : (x &&& y).extractLsb' k n = x.extractLsb' k n &&& y.extractLsb' k n := by
    ext j hj
    simp
  simp only [Fields.split, Fields.and, extract, BitVec.getLsbD_and]

@[simp] theorem PtrExpr.bits_ofBits (f : BitVec 9) : (PtrExpr.ofBits f).bits = f := by
  revert f; decide

@[simp] theorem Src.iBit_ofField (i : Bool) (s : BitVec 9) : (Src.ofField i s).iBit = i := by cases i <;> rfl

@[simp] theorem Src.field_ofField (i : Bool) (s : BitVec 9) : (Src.ofField i s).field = s := by cases i <;> rfl

/-! ## What `decode` answers -/

theorem decode_eq_ok {iw : Word} {i : Instr} :
    decode iw = .ok i ↔ decodeFields (.split iw) = some i ∧ i.defect = none := by
  unfold decode
  split
  · next h => simp [h]
  · next j h =>
    split
    · next hd => simp only [h, Except.ok.injEq, Option.some.injEq]; exact ⟨fun e => ⟨e, e ▸ hd⟩, And.left⟩
    · next hd => simp only [h, reduceCtorEq, Option.some.injEq, false_iff]; rintro ⟨rfl, hn⟩; simp [hn] at hd

theorem decode_eq_noMeaning {iw : Word} {d : Defect} :
    decode iw = .error (.noMeaning d) ↔ ∃ i, decodeFields (.split iw) = some i ∧ i.defect = some d := by
  unfold decode
  split
  · next h => simp [h]
  · next j h => split <;> next hd => simp [h, hd]

theorem decode_eq_unlisted {iw : Word} : decode iw = .error .unlisted ↔ decodeFields (.split iw) = none := by
  unfold decode
  split
  · next h => simp [h]
  · next j h => split <;> simp [h]

/-! ## Decoding what is encoded (30_encoding.md R106) -/

/-- The row that an instruction's fields match is its own: by computation, but for a PTR expression or an S operand that is
put together again from its bits. -/
theorem decodeFields_fields (i : Instr) : decodeFields i.fields = some i := by
  open Laws.RoundTrip in
  cases i with
  | wrbyteP => exact wrbyteP ..
  | rdbyteP => exact rdbyteP ..
  | rdbytecP => exact rdbytecP ..
  | wrwordP => exact wrwordP ..
  | rdwordP => exact rdwordP ..
  | rdwordcP => exact rdwordcP ..
  | wrlongP => exact wrlongP ..
  | rdlongP => exact rdlongP ..
  | rdlongcP => exact rdlongcP ..
  | wrquadP => exact wrquadP ..
  | rdquadP => exact rdquadP ..
  | rdquadcP => exact rdquadcP ..
  | waitcnt => exact waitcnt ..
  | waitpeq => exact waitpeq ..
  | waitpne => exact waitpne ..
  | mov => exact mov ..
  | add => exact add ..
  | _ => rfl

theorem decodeFields_split_encode (i : Instr) : decodeFields (.split (encode i)) = some i := by
  rw [encode, Fields.split_join, decodeFields_fields]

/-- Settles O9. -/
theorem decodeOfEncode : Obligations.DecodeOfEncode := fun i hi =>
  decode_eq_ok.mpr ⟨decodeFields_split_encode i, Option.isNone_iff_eq_none.mp hi⟩

/-- Settles O11. -/
theorem meaninglessEncodingsAreRejected : Obligations.MeaninglessEncodingsAreRejected := fun i _ he =>
  decode_eq_noMeaning.mpr ⟨i, decodeFields_split_encode i, he⟩

/-! ## Encoding what is decoded (30_encoding.md R91) -/

section RowGroups

/-! One lemma per function of the decoder: if the rows it is given have the fields that the function checks for, what it
answers has the fields it was given. ZCR and I select the arm; for a combination that is not listed the answer is `none`, and
`cases h` closes the case. -/

variable {op : BitVec 6} {z c r b : Bool} {k : BitVec 4} {d s : BitVec 9} {i : Instr}

theorem decodeHub_fields {wrS : BitVec 4 → RegAddr → RegAddr → Instr} {wrP : BitVec 4 → RegAddr → PtrExpr → Instr}
    {rdS rdcS : Bool → BitVec 4 → RegAddr → RegAddr → Instr} {rdP rdcP : Bool → BitVec 4 → RegAddr → PtrExpr → Instr}
    (hwrS : ∀ k d s, (wrS k d s).fields = ⟨op, false, false, false, false, k, d, s⟩)
    (hwrP : ∀ k d p, (wrP k d p).fields = ⟨op, false, false, false, true, k, d, p.bits⟩)
    (hrdS : ∀ z k d s, (rdS z k d s).fields = ⟨op, z, false, true, false, k, d, s⟩)
    (hrdP : ∀ z k d p, (rdP z k d p).fields = ⟨op, z, false, true, true, k, d, p.bits⟩)
    (hrdcS : ∀ z k d s, (rdcS z k d s).fields = ⟨op, z, true, true, false, k, d, s⟩)
    (hrdcP : ∀ z k d p, (rdcP z k d p).fields = ⟨op, z, true, true, true, k, d, p.bits⟩)
    (h : decodeHub ⟨op, z, c, r, b, k, d, s⟩ wrS wrP rdS rdP rdcS rdcP = some i) :
    i.fields = ⟨op, z, c, r, b, k, d, s⟩ := by
  cases z <;> cases c <;> cases r <;> cases b <;> cases h <;>
    simp only [hwrS, hwrP, hrdS, hrdP, hrdcS, hrdcP, PtrExpr.bits_ofBits]

theorem decodeReadD_fields {row : BitVec 4 → RegAddr → Instr} (hrow : ∀ k d, (row k d).fields = .sub false false false k d s)
    (h : decodeReadD (.sub z c r k d s) row = some i) : i.fields = .sub z c r k d s := by
  cases z <;> cases c <;> cases r <;> cases h
  exact hrow k d

theorem decodeWriteD_fields {row : BitVec 4 → RegAddr → Instr} (hrow : ∀ k d, (row k d).fields = .sub false false true k d s)
    (h : decodeWriteD (.sub z c r k d s) row = some i) : i.fields = .sub z c r k d s := by
  cases z <;> cases c <;> cases r <;> cases h
  exact hrow k d

theorem decodeRegOrNumber_fields {reg : BitVec 4 → RegAddr → Instr} {number : BitVec 4 → BitVec 9 → Instr}
    (hreg : ∀ k d, (reg k d).fields = .sub false false false k d s)
    (hnumber : ∀ k n, (number k n).fields = .sub false false true k n s)
    (h : decodeRegOrNumber (.sub z c r k d s) reg number = some i) : i.fields = .sub z c r k d s := by
  cases z <;> cases c <;> cases r <;> cases h
  · exact hreg k d
  · exact hnumber k d

theorem decodeRegOrNumberByC_fields {reg0 reg1 : BitVec 4 → RegAddr → Instr} {number0 number1 : BitVec 4 → BitVec 9 → Instr}
    (hreg0 : ∀ k d, (reg0 k d).fields = .sub false false false k d s)
    (hnumber0 : ∀ k n, (number0 k n).fields = .sub false false true k n s)
    (hreg1 : ∀ k d, (reg1 k d).fields = .sub false true false k d s)
    (hnumber1 : ∀ k n, (number1 k n).fields = .sub false true true k n s)
    (h : decodeRegOrNumberByC (.sub z c r k d s) reg0 number0 reg1 number1 = some i) : i.fields = .sub z c r k d s := by
  cases z <;> cases c <;> cases r <;> cases h
  · exact hreg0 k d
  · exact hnumber0 k d
  · exact hreg1 k d
  · exact hnumber1 k d

/-- A row with a PTR expression in D, by the nine bits of the expression (30_encoding.md R99). -/
theorem fields_row_ofBits {row : BitVec 4 → PtrExpr → Instr} (hrow : ∀ k p, (row k p).fields = .sub z c r k p.bits s)
    (k : BitVec 4) (n : BitVec 9) : (row k (.ofBits n)).fields = .sub z c r k n s := by
  rw [hrow, PtrExpr.bits_ofBits]

theorem decodePlain_fields {row : BitVec 4 → RegAddr → Src → Instr}
    (hrow : ∀ k d src, (row k d src).fields = ⟨op, false, false, true, src.iBit, k, d, src.field⟩)
    (h : decodePlain ⟨op, z, c, r, b, k, d, s⟩ row = some i) : i.fields = ⟨op, z, c, r, b, k, d, s⟩ := by
  cases z <;> cases c <;> cases r <;> cases h
  rw [hrow, Src.iBit_ofField, Src.field_ofField]

theorem decodeWait_fields (h : decodeWait ⟨0b111111, z, c, r, b, k, d, s⟩ = some i) :
    i.fields = ⟨0b111111, z, c, r, b, k, d, s⟩ := by
  cases z <;> cases c <;> cases r <;> cases h <;> simp only [Instr.fields, Src.iBit_ofField, Src.field_ofField]

/-- The one-operand group (30_encoding.md R102), by its sub-opcode: the branches of `decodeSub` in their order. -/
theorem decodeSub_fields (h : decodeSub (.sub z c r k d s) = some i) : i.fields = .sub z c r k d s := by
  unfold decodeSub at h
  split at h
  case h_23 => cases h
  all_goals
    rename_i hs
    obtain rfl : s = BitVec.ofNat 9 _ := (BitVec.toNat_eq_nat.mp hs).2
  -- CLKSET, COGSTOP, LOCKRET; COGID
  case h_1 | h_3 | h_5 => exact decodeReadD_fields (fun _ _ => rfl) h
  case h_2 => exact decodeWriteD_fields (fun _ _ => rfl) h
  -- LOCKNEW, LOCKSET, LOCKCLR, SUBCNT and CMPCNT, PASSCNT and GETCNT, GETTOPS
  case h_4 | h_6 | h_7 | h_9 | h_10 | h_11 => cases z <;> cases c <;> cases r <;> cases h <;> rfl
  -- CACHEX, whose D is unused
  case h_8 =>
    split at h
    · cases h
    · next hu =>
      obtain ⟨⟨⟨rfl, rfl⟩, rfl⟩, rfl⟩ : ((z = false ∧ c = false) ∧ r = false) ∧ d = 0 := by
        simpa [Fields.sub, and_assoc] using hu
      cases h
      rfl
  -- GETPTRA, GETPTRB
  case h_12 | h_13 => cases h; rfl
  -- WRQUAD; RDQUAD and RDQUADC
  case h_14 => exact decodeRegOrNumber_fields (fun _ _ => rfl) (fields_row_ofBits fun _ _ => rfl) h
  case h_15 =>
    exact decodeRegOrNumberByC_fields (fun _ _ => rfl) (fields_row_ofBits fun _ _ => rfl) (fun _ _ => rfl)
      (fields_row_ofBits fun _ _ => rfl) h
  -- SETPTRx, ADDPTRx, SUBPTRx; SETQUAD and SETQUAZ
  case h_16 | h_17 | h_18 | h_19 | h_20 | h_21 => exact decodeRegOrNumber_fields (fun _ _ => rfl) (fun _ _ => rfl) h
  case h_22 => exact decodeRegOrNumberByC_fields (fun _ _ => rfl) (fun _ _ => rfl) (fun _ _ => rfl) (fun _ _ => rfl) h

theorem decodeSetInd_fields (h : decodeSetInd ⟨0b111000, z, c, r, b, k, d, s⟩ = some i) :
    i.fields = ⟨0b111000, z, c, r, b, k, d, s⟩ := by
  unfold decodeSetInd at h
  split at h
  · cases h
  · next hz =>
    obtain ⟨⟨⟨rfl, rfl⟩, rfl⟩, rfl⟩ : ((z = false ∧ c = false) ∧ r = false) ∧ b = false := by simpa [and_assoc] using hz
    split at h
    case h_9 => cases h
    all_goals
      rename_i hk
      obtain rfl : k = BitVec.ofNat 4 _ := (BitVec.toNat_eq_nat.mp hk).2
    -- SETINDS
    case h_5 | h_6 | h_7 | h_8 => cases h; rfl
    -- SETINDA and SETINDB, whose other field is unused
    all_goals
      split at h
      · next h0 =>
        cases h0
        cases h
        rfl
      · cases h

theorem decodeFixInd_fields (h : decodeFixInd ⟨0b111001, z, c, r, b, k, d, s⟩ = some i) :
    i.fields = ⟨0b111001, z, c, r, b, k, d, s⟩ := by
  unfold decodeFixInd at h
  split at h
  · cases h
  · next hz =>
    obtain ⟨⟨⟨rfl, rfl⟩, rfl⟩, rfl⟩ : ((z = false ∧ c = false) ∧ r = false) ∧ b = false := by simpa [and_assoc] using hz
    split at h
    case h_4 => cases h
    all_goals
      next hk =>
        obtain rfl : k = BitVec.ofNat 4 _ := (BitVec.toNat_eq_nat.mp hk).2
        cases h
        rfl

/-- The fields of what is decoded are the fields that it was decoded from, by the opcode. -/
theorem fields_of_decodeFields {f : Fields} (h : decodeFields f = some i) : i.fields = f := by
  obtain ⟨op, z, c, r, b, k, d, s⟩ := f
  unfold decodeFields at h
  split at h
  case h_10 => cases h
  all_goals
    rename_i ho
    obtain rfl : op = BitVec.ofNat 6 _ := (BitVec.toNat_eq_nat.mp ho).2
  -- bytes, words and longs of hub memory
  case h_1 | h_2 | h_3 =>
    exact decodeHub_fields (fun _ _ _ => rfl) (fun _ _ _ => rfl) (fun _ _ _ _ => rfl) (fun _ _ _ _ => rfl)
      (fun _ _ _ _ => rfl) (fun _ _ _ _ => rfl) h
  -- COGINIT, and the one-operand group
  case h_4 =>
    cases b with
    | false => cases h; rfl
    | true => exact decodeSub_fields h
  case h_5 | h_6 => exact decodePlain_fields (fun _ _ _ => rfl) h
  case h_7 => exact decodeSetInd_fields h
  case h_8 => exact decodeFixInd_fields h
  case h_9 => exact decodeWait_fields h

end RowGroups

/-- Settles O10: the fields determine the long. -/
theorem encodeOfDecode : Obligations.EncodeOfDecode := fun iw i h => by
  obtain ⟨hf, hd⟩ := decode_eq_ok.mp h
  exact ⟨by rw [encode, fields_of_decodeFields hf, Fields.join_split], Option.isNone_iff_eq_none.mpr hd⟩

/-! ## The opcode table (30_encoding.md R101, R102, R106) -/

/-- The row of an instruction: the constructors stand in the table's order. -/
def Instr.row (i : Instr) : Word × Word := opcodeRows.getD i.ctorIdx (0, 0)

theorem Instr.row_mem (i : Instr) : i.row ∈ opcodeRows := by
  have hi : i.ctorIdx < opcodeRows.length := by cases i <;> exact Nat.le_of_ble_eq_true rfl
  rw [Instr.row, List.getD_eq_getElem _ _ hi]
  exact List.getElem_mem hi

/-- The encoding of an instruction is of its row, field by field. -/
theorem encode_and_row (i : Instr) : encode i &&& i.row.1 = i.row.2 := by
  apply Fields.split_injective
  rw [Fields.split_and, encode, Fields.split_join]
  cases i <;> (conv in (occs := *) Instr.row _ => all_goals whnf) <;>
    simp [Instr.fields, Fields.sub, Fields.and, Fields.split]

/-- A row's fixed bits select one arm of the decoder, which answers. -/
theorem decodeFields_isSome_of_row {f : Fields} {row : Word × Word} (hr : row ∈ opcodeRows)
    (h : f.and (.split row.1) = .split row.2) : (decodeFields f).isSome = true := by
  obtain ⟨op, z, c, r, b, k, d, s⟩ := f
  have all6 (x : BitVec 6) : x &&& 63#6 = x := BitVec.and_allOnes
  have all4 (x : BitVec 4) : x &&& 15#4 = x := BitVec.and_allOnes
  have all9 (x : BitVec 9) : x &&& 511#9 = x := BitVec.and_allOnes
  revert row
  simp only [opcodeRows, List.cons_append, List.nil_append, List.forall_mem_cons, List.not_mem_nil, false_imp_iff,
    implies_true, and_true]
  and_intros
  all_goals
    simp only [Fields.and, Fields.split, Fields.mk.injEq, BitVec.reduceExtractLsb', BitVec.reduceGetLsb, all6, all4, all9,
      BitVec.ofNat_eq_ofNat, BitVec.and_zero, Bool.and_true, Bool.and_false, true_and, and_true, and_imp]
    intros
    subst_vars
    rfl

/-- Two rows differ in a bit that both of them fix. -/
theorem opcodeRows_pairwise : opcodeRows.Pairwise fun x y => x.2 &&& y.1 ≠ y.2 &&& x.1 := by decide

theorem not_row_of_row {iw : Word} {x y : Word × Word} (h : x.2 &&& y.1 ≠ y.2 &&& x.1) (hx : iw &&& x.1 = x.2) :
    iw &&& y.1 ≠ y.2 := fun hy => h <| calc
  x.2 &&& y.1 = iw &&& (x.1 &&& y.1) := by rw [← hx, BitVec.and_assoc]
  _ = iw &&& (y.1 &&& x.1) := by rw [BitVec.and_comm x.1]
  _ = y.2 &&& x.1 := by rw [← hy, BitVec.and_assoc]

/-- Settles O12: a long of a row decodes by the row's fixed bits, and a long that decodes is of its instruction's row. -/
theorem unlistedLongsAreRejected : Obligations.UnlistedLongsAreRejected := fun iw => by
  refine ⟨decode_eq_unlisted.trans ⟨fun hn row hr hm => ?_, fun hn => ?_⟩, opcodeRows_pairwise.imp not_row_of_row⟩
  · have hf : (Fields.split iw).and (.split row.1) = .split row.2 := by rw [← Fields.split_and, hm]
    simpa [hn] using decodeFields_isSome_of_row hr hf
  · by_contra hs
    obtain ⟨i, hi⟩ := Option.ne_none_iff_exists'.mp hs
    have he : encode i = iw := by rw [encode, fields_of_decodeFields hi, Fields.join_split]
    exact hn i.row i.row_mem (he ▸ encode_and_row i)

end Sys2Proof

namespace Sys2Proof.Machine

/-! ## Longs that are no instruction (30_encoding.md R103) -/

theorem State.runLong_of_error {s : State} {iw : Word} {e : DecodeError} (h : decode iw = .error e) :
    s.runLong iw = s.advancePc.undecoded iw e := by
  simp only [State.runLong, h]

/-- The step of a running cog on a long that is no instruction with a meaning. -/
theorem step_of_decode_error {s : State} {e : DecodeError} (hp : s.resetPending = false) (hr : s.cur.run = .running)
    (hf : s.cur.fetchHazard s.cur.pc = none) (hd : decode (s.cur.reg s.cur.pc) = .error e) :
    step s = andThen (s.advancePc.undecoded (s.cur.reg s.cur.pc) e)
      fun t => .next (if t.resetPending then t else t.passTurn) := by
  rw [step_running hp hr, Cog.fetch_of_hazard_none hf, andThen_next, State.runLong_of_error hd]

/-- A long that never executes (30_encoding.md R103). -/
theorem skipped_iff (f : Fields) : skipped f = true ↔
    f.cccc = 0b0000 ∧ ¬ (namesInd f.d = true ∨ (f.i = false ∧ namesInd f.s = true)) ∧ f.op ≠ 0b111000 ∧ f.op ≠ 0b111001 := by
  cases hi : f.i <;> simp [skipped, hi] <;> tauto

/-- Settles O15. -/
theorem stepOverOrRefuseUndecoded : Obligations.StepOverOrRefuseUndecoded := fun s e hp hr hf hd => by
  have hs := step_of_decode_error hp hr hf hd
  refine ⟨?_, ?_, ?_, ?_⟩
  · rintro rfl h1 h2 h3 h4
    refine ⟨s.advancePc.complete {}, ?_, delivers_complete (.inl rfl)⟩
    simp [hs, State.undecoded, (skipped_iff _).mpr ⟨h1, h2, h3, h4⟩, State.advancePc, hp]
  · rintro rfl hn
    have hk : ¬ skipped (.split (s.cur.reg s.cur.pc)) = true := by
      rw [skipped_iff]
      tauto
    simp [hs, State.undecoded, hk]
  · rintro rfl
    exact hs
  · rintro rfl
    exact hs

/-! ## The condition field (30_encoding.md R97) -/

/-- Settles O35. -/
theorem failedConditionChangesNothing : Obligations.FailedConditionChangesNothing := fun i st k d sf hi hd hs hc => by
  obtain ⟨body, he⟩ := exec_eq_issue hi st
  exact ⟨_, he.trans (issue_skips hd hs hc), delivers_complete (.inl rfl)⟩

/-- Settles O34, flag by flag. -/
theorem conditionTableIsTheDefault : Obligations.ConditionTableIsTheDefault := fun cf zf => by
  simp only [cond_eq_bit]
  cases cf <;> cases zf <;> rfl

end Sys2Proof.Machine
end

section
/-! PROOFS. PTR expressions, QUAD fills, and the instructions that move bytes, words, longs and quads between a cog and the
hub. -/

namespace Sys2Proof.Machine

/-! ## PTR expressions (40_hub_memory.md R121) -/

/-- Bit 8 of the field names the pointer (30_encoding.md R99). -/
theorem Cog.ptr_ofBits (c : Cog) (f : BitVec 9) :
    c.ptr (PtrExpr.ofBits f).sel = if f.getLsbD 8 then c.ptrb else c.ptra := by
  rw [PtrExpr.ofBits]
  cases f.getLsbD 8 <;> rfl

theorem PtrExpr.ofBits_sel_eq_ptra (f : BitVec 9) : (PtrExpr.ofBits f).sel = .ptra ↔ f.getLsbD 8 = false := by
  rw [PtrExpr.ofBits]
  cases f.getLsbD 8 <;> simp

theorem PtrExpr.ofBits_sel_eq_ptrb (f : BitVec 9) : (PtrExpr.ofBits f).sel = .ptrb ↔ f.getLsbD 8 = true := by
  rw [PtrExpr.ofBits]
  cases f.getLsbD 8 <;> simp

/-- `new` of R121 in the integers: the pointer plus the signed index times the scale, modulo 2^17. -/
theorem Cog.ptrNew_eq_ofInt (c : Cog) (p : PtrExpr) (w : Width) :
    c.ptrNew p w = BitVec.ofInt 17 ((c.ptr p.sel).toNat + p.index.toInt * w.bytes) := by
  rw [BitVec.ofInt_add, BitVec.ofInt_mul, BitVec.ofInt_natCast, BitVec.ofInt_natCast, BitVec.ofNat_toNat, BitVec.setWidth_eq]
  rfl

/-- Only the pointer that the expression names can move, and it moves if the expression updates it. -/
theorem Cog.ptrUpdate_eq (c : Cog) (p : PtrExpr) (w : Width) :
    c.ptrUpdate p w = { c with
      ptra := if p.update = true ∧ p.sel = .ptra then c.ptrNew p w else c.ptra
      ptrb := if p.update = true ∧ p.sel = .ptrb then c.ptrNew p w else c.ptrb } := by
  obtain ⟨sel, update, post, index⟩ := p
  cases sel <;> cases update <;> rfl

/-- Settles O23: P chooses between the old and the new pointer, U whether the named one moves. -/
theorem ptrExpressionsFollowTheirBits : Obligations.PtrExpressionsFollowTheirBits := by
  intro c f w ptr new
  have hnew : c.ptrNew (.ofBits f) w = new := by
    rw [Cog.ptrNew_eq_ofInt, Cog.ptr_ofBits]
    rfl
  constructor
  · rw [Cog.ptrEA, hnew, Cog.ptr_ofBits]
    rfl
  · simp only [Cog.ptrUpdate_eq, hnew, PtrExpr.ofBits_sel_eq_ptra, PtrExpr.ofBits_sel_eq_ptrb]
    rfl

/-! ## QUAD fills (40_hub_memory.md R131) -/

theorem alignDown_quad (a : HubAddr) : (a &&& 0x1FFF0).toNat = alignDown a .quad := (alignDown_eq_mask a .quad).symm

theorem quadOfValue_getElem (q : BitVec 128) (k : Fin 4) : (quadOfValue q)[k] = q.extractLsb' (32 * k) 32 := by
  fin_cases k <;> rfl

/-- Long `k` of a quad is the long at offset `4 * k` from its address. -/
theorem memRead_quad_long (m : HubMem) (a : HubAddr) (k : Fin 4) :
    (memRead 128 m a .quad).extractLsb' (32 * k) 32 = memRead 32 m ((a &&& 0x1FFF0) + BitVec.ofNat 17 (4 * k)) .long := by
  have hb : (a &&& 0x1FFF0).toNat % 16 = 0 := by
    rw [alignDown_quad]
    simp only [alignDown, Width.bytes]
    omega
  have hq : ∀ i < 16, hubByte m ((a &&& 0x1FFF0).toNat + i) = (memRead 128 m a .quad).extractLsb' (8 * i) 8 := fun i hi => by
    rw [alignDown_quad]
    exact (memRead_byte m a .quad hi le_rfl).symm
  obtain ⟨-, -, hlong, -⟩ := memRead_units hb hq ⟨4 * k, by omega⟩
  simpa using hlong.symm

/-- Settles O24: each QUAD is a long of the aligned quad. -/
theorem quadFillLoadsTheAlignedQuad : Obligations.QuadFillLoadsTheAlignedQuad := fun c m ea => by
  refine ⟨fun k => ?_, rfl, fun a => ?_⟩
  · rw [Cog.quadFill_quad, quadOfValue_getElem, memRead_quad_long]
  · rw [Cog.cacheHit_iff, Cog.quadFill_cacheValid, Cog.quadFill_cacheTag, eq_comm (a := ea.extractLsb' 4 13)]
    exact and_iff_right rfl

/-! ## What each shared operation answers when it executes

`o` is the operands, `s` the state after they are resolved (`issued`), as in the statements. -/

theorem State.issued_cacheHit (s : State) (k : BitVec 4) (d sf : Option RegAddr) (h : HubOperand) (w : Width) (ea : HubAddr) :
    ((s.issued k d sf).hubUpdate h w).cur.cacheHit ea = true ↔ s.cur.cacheValid = true ∧ s.cur.cacheTag = ea.extractLsb' 4 13 := by
  rw [State.hubUpdate_cur_cacheHit, State.issued_cur, Cog.cacheHit_iff]
  rfl

/-- The cached unit depends on the QUADs alone. -/
theorem State.issued_cachedUnit (s : State) (k : BitVec 4) (d sf : Option RegAddr) (h : HubOperand) (w w' : Width)
    (ea : HubAddr) : ((s.issued k d sf).hubUpdate h w).cur.cachedUnit ea w' = s.cur.cachedUnit ea w' := by
  simp only [Cog.cachedUnit, Cog.quadValue, State.hubUpdate_cur_quad, State.issued_cur, Cog.postModOperands_quad]

section Operations

variable {st : State} {k : BitVec 4} {d : RegAddr} {h : HubOperand} {w : Width} {z : Bool}

/-- Resolving the operands and moving a pointer write no register. -/
theorem hubUpdate_issued_sorted {df sf : Option RegAddr} (hs : CellsSorted st.cur.ram) :
    CellsSorted ((st.issued k df sf).hubUpdate h w).cur.ram := by
  simpa using hs

theorem hubWrite_executes :
    let o := st.cur.operands k (some d) h.regField
    let s := st.issued k (some d) h.regField
    let m := memWrite st.hub.mem (s.hubAddress h w o.s) w (s.cur.reg o.d)
    Executes st k (some d) h.regField → Readable s o.d → HubReadable s h o.s →
    hubWrite w k d h st = .next (((s.hubUpdate h w).modHub fun b => { b with mem := m }).complete {}) := by
  intro o s m hx hd hr
  rw [hubWrite, issue_executes hx, State.readReg_of_readable hd, andThen_next, State.hubEA_of_readable hr, andThen_next]
  simp only [State.modHub, State.hubUpdate_hub]
  rfl

theorem hubRead_executes :
    let o := st.cur.operands k (some d) h.regField
    let s := st.issued k (some d) h.regField
    let v : Word := (memRead (8 * w.bytes) st.hub.mem (s.hubAddress h w o.s) w).setWidth 32
    Executes st k (some d) h.regField → HubReadable s h o.s →
    hubRead w z k d h st =
      .next ((s.hubUpdate h w).complete { write := some (o.d, v), zf := flagIf z (v == 0), clocks := 3 }) := by
  intro o s v hx hr
  have hv : memRead 32 s.hub.mem (s.hubAddress h w o.s) w = v := memRead_eq_setWidth ..
  rw [hubRead, issue_executes hx, State.hubEA_of_readable hr, andThen_next, hv]
  rfl

theorem hubReadCached_hit :
    let o := st.cur.operands k (some d) h.regField
    let s := st.issued k (some d) h.regField
    let ea := s.hubAddress h w o.s
    let v := st.cur.cachedUnit ea w
    Executes st k (some d) h.regField → HubReadable s h o.s → st.cur.cacheValid = true → st.cur.cacheTag = ea.extractLsb' 4 13 →
    hubReadCached w z k d h st = .next ((s.hubUpdate h w).complete { write := some (o.d, v), zf := flagIf z (v == 0) }) := by
  intro o s ea v hx hr hv ht
  rw [hubReadCached, issue_executes hx, State.hubEA_of_readable hr, andThen_next]
  refine (if_pos ((State.issued_cacheHit ..).mpr ⟨hv, ht⟩)).trans ?_
  rw [State.issued_cachedUnit]
  rfl

theorem hubReadCached_miss :
    let o := st.cur.operands k (some d) h.regField
    let s := st.issued k (some d) h.regField
    let ea := s.hubAddress h w o.s
    let v : Word := (memRead (8 * w.bytes) st.hub.mem ea w).setWidth 32
    Executes st k (some d) h.regField → HubReadable s h o.s →
    (st.cur.cacheValid = true → st.cur.cacheTag ≠ ea.extractLsb' 4 13) →
    hubReadCached w z k d h st =
      .next (((s.hubUpdate h w).modCur (·.quadFill st.hub.mem ea)).complete
        { write := some (o.d, v), zf := flagIf z (v == 0), clocks := 3 }).openFill := by
  intro o s ea v hx hr hmiss
  rw [hubReadCached, issue_executes hx, State.hubEA_of_readable hr, andThen_next]
  refine (if_neg (mt (State.issued_cacheHit ..).mp (not_and.mpr hmiss))).trans ?_
  dsimp only
  rw [State.cur_modCur, Cog.quadFill_cachedUnit, State.hubUpdate_hub, State.issued_hub]
  rfl

end Operations

section QuadOperations

variable {st : State} {k : BitVec 4} {h : HubOperand}

theorem quadWrite_executes :
    let o := st.cur.operands k h.regField none
    let s := st.issued k h.regField none
    let m := memWrite st.hub.mem (s.hubAddress h .quad o.d) .quad st.cur.quadValue
    Executes st k h.regField none → HubReadable s h o.d →
    quadWrite k h st = .next (((s.hubUpdate h .quad).modHub fun b => { b with mem := m }).complete {}) := by
  intro o s m hx hr
  rw [quadWrite, issue_executes hx, State.hubEA_of_readable hr, andThen_next]
  simp only [State.modHub, State.hubUpdate_hub, State.issued_cur]
  rfl

theorem quadRead_executes :
    let o := st.cur.operands k h.regField none
    let s := st.issued k h.regField none
    Executes st k h.regField none → HubReadable s h o.d →
    quadRead k h st =
      .next (((s.hubUpdate h .quad).modCur (·.quadFill st.hub.mem (s.hubAddress h .quad o.d))).complete {}).openFill := by
  intro o s hx hr
  rw [quadRead, issue_executes hx, State.hubEA_of_readable hr, andThen_next]
  rfl

theorem quadReadCached_hit :
    let o := st.cur.operands k h.regField none
    let s := st.issued k h.regField none
    Executes st k h.regField none → HubReadable s h o.d →
    st.cur.cacheValid = true → st.cur.cacheTag = (s.hubAddress h .quad o.d).extractLsb' 4 13 →
    quadReadCached k h st = .next ((s.hubUpdate h .quad).complete {}) := by
  intro o s hx hr hv ht
  rw [quadReadCached, issue_executes hx, State.hubEA_of_readable hr, andThen_next]
  exact if_pos ((State.issued_cacheHit ..).mpr ⟨hv, ht⟩)

/-- A miss of RDQUADC is a RDQUAD (40_hub_memory.md R135). -/
theorem quadReadCached_miss :
    let o := st.cur.operands k h.regField none
    let s := st.issued k h.regField none
    Executes st k h.regField none → HubReadable s h o.d →
    (st.cur.cacheValid = true → st.cur.cacheTag ≠ (s.hubAddress h .quad o.d).extractLsb' 4 13) →
    quadReadCached k h st = quadRead k h st := by
  intro o s hx hr hmiss
  rw [quadRead_executes hx hr, quadReadCached, issue_executes hx, State.hubEA_of_readable hr, andThen_next]
  refine (if_neg (mt (State.issued_cacheHit ..).mp (not_and.mpr hmiss))).trans ?_
  rw [State.hubUpdate_hub, State.issued_hub]

end QuadOperations

/-! ## The instructions: each of the listed forms is its shared operation -/

/-- Settles O25: each form is a `hubWrite`. -/
theorem hubWritesStoreTheLowBytes : Obligations.HubWritesStoreTheLowBytes := fun st k d sf p x hmem => by
  have hexec : exec x.2.2 st = hubWrite x.1 k d x.2.1 st := by
    fin_cases hmem <;> rfl
  intro w h o s ea hx hd hr
  exact ⟨_, hexec.trans (hubWrite_executes hx hd hr), delivers_complete (.inl rfl), fun hwf => hubByte_memWrite_field hwf ea w _⟩

/-- Settles O26: each form is a `hubRead`. -/
theorem hubReadsDeliverTheUnit : Obligations.HubReadsDeliverTheUnit := fun st z k d sf p x hmem => by
  have hexec : exec x.2.2 st = hubRead x.1 z k d x.2.1 st := by
    fin_cases hmem <;> rfl
  intro w h o s v hx hr hs
  exact ⟨_, hexec.trans (hubRead_executes hx hr), delivers_complete (.inr (hubUpdate_issued_sorted hs))⟩

theorem exec_hubReadCached {st : State} {z : Bool} {k : BitVec 4} {d sf : RegAddr} {p : PtrExpr}
    {x : Width × HubOperand × Instr}
    (hx : x ∈ ([(.byte, .reg sf, .rdbytecS z k d sf), (.byte, .ptr p, .rdbytecP z k d p),
        (.word, .reg sf, .rdwordcS z k d sf), (.word, .ptr p, .rdwordcP z k d p),
        (.long, .reg sf, .rdlongcS z k d sf), (.long, .ptr p, .rdlongcP z k d p)] : List (Width × HubOperand × Instr))) :
    exec x.2.2 st = hubReadCached x.1 z k d x.2.1 st := by
  fin_cases hx <;> rfl

/-- Settles O27: each form is a `hubReadCached` that hits. -/
theorem cachedReadsHitTheQuads : Obligations.CachedReadsHitTheQuads := fun st z k d sf p x hmem => by
  intro w h o s ea q v hx hr hs hvalid htag
  exact ⟨_, (exec_hubReadCached hmem).trans (hubReadCached_hit hx hr hvalid htag),
    delivers_complete (.inr (hubUpdate_issued_sorted hs))⟩

/-- Settles O28: each form is a `hubReadCached` that misses. -/
theorem cachedReadsMissAndFill : Obligations.CachedReadsMissAndFill := fun st z k d sf p x hmem => by
  intro w h o s ea v hx hr hs hmiss
  refine ⟨_, (exec_hubReadCached hmem).trans (hubReadCached_miss hx hr hmiss), delivers_complete (.inr ?_)⟩
  rw [State.cur_modCur, Cog.quadFill_ram]
  exact hubUpdate_issued_sorted hs

/-- Settles O29: both forms are a `quadWrite`. -/
theorem wrquadStoresTheQuads : Obligations.WrquadStoresTheQuads := fun st k d p x hmem => by
  have hexec : exec x.2 st = quadWrite k x.1 st := by
    fin_cases hmem <;> rfl
  intro h o s ea q hx hr
  exact ⟨_, hexec.trans (quadWrite_executes hx hr), delivers_complete (.inl rfl),
    fun hwf => hubByte_memWrite_field hwf ea .quad q⟩

/-- Settles O30: a RDQUADC that misses does what RDQUAD does. -/
theorem quadReadsFillTheQuads : Obligations.QuadReadsFillTheQuads := fun st k d p x hmem => by
  have hexec : exec x.2.2 st = if x.2.1 then quadReadCached k x.1 st else quadRead k x.1 st := by
    fin_cases hmem <;> rfl
  intro h o s ea hx hr hmiss
  have hread : exec x.2.2 st = quadRead k h st := by
    rw [hexec]
    split
    · next hc => exact quadReadCached_miss hx hr (hmiss hc)
    · rfl
  exact ⟨_, hread.trans (quadRead_executes hx hr), delivers_complete (.inl rfl)⟩

/-- Settles O31: both forms are a `quadReadCached` that hits. -/
theorem rdquadcHitsChangeNothing : Obligations.RdquadcHitsChangeNothing := fun st k d p x hmem => by
  have hexec : exec x.2 st = quadReadCached k x.1 st := by
    fin_cases hmem <;> rfl
  intro h o s hx hr hvalid htag
  exact ⟨_, hexec.trans (quadReadCached_hit hx hr hvalid htag), delivers_complete (.inl rfl)⟩

end Sys2Proof.Machine
end

section
/-! PROOFS. The instructions that read, set and move PTRA and PTRB. -/

namespace Sys2Proof

/-- The long of a row of opcode 000011 with I = 1, its first ten bits given as one number (30_encoding.md R91, R102). -/
theorem encode_sub {i : Instr} {z c r : Bool} {k : BitVec 4} {d s : BitVec 9} {p : BitVec 10}
    (hi : i.fields = .sub z c r k d s)
    (hp : 0b000011#6 ++ BitVec.ofBool z ++ BitVec.ofBool c ++ BitVec.ofBool r ++ BitVec.ofBool true = p) :
    encode i = p ++ k ++ d ++ s := by
  rw [encode, hi, ← hp]
  rfl

end Sys2Proof

namespace Sys2Proof.Machine

/-! ## What each shared operation answers when it executes -/

/-- Zero-extension makes no pointer zero that is not. -/
theorem zeroFlag_setWidth (p : HubAddr) : zeroFlag (p.setWidth 32) = (p == 0) := by
  rw [zeroFlag, Bool.eq_iff_iff, beq_iff_eq, beq_iff_eq]
  bv_omega

/-- Resolving the operands moves INDA and INDB, neither PTRA nor PTRB. -/
theorem State.issued_ptr (s : State) (k : BitVec 4) (d sf : Option RegAddr) (sel : PtrSel) :
    (s.issued k d sf).cur.ptr sel = s.cur.ptr sel := by
  rw [State.issued_cur]
  cases sel <;> rfl

section Operations

variable {st : State} {sel : PtrSel} {k : BitVec 4}

theorem ptrGet_executes {z c r : Bool} {d : RegAddr} :
    let o := st.cur.operands k (some d) none
    let s := st.issued k (some d) none
    let p := st.cur.ptr sel
    Executes st k (some d) none →
    ptrGet sel z c r k d st =
      .next (s.complete
        { write := if r then some (o.d, p.setWidth 32) else none, cf := flagIf c (p.getLsbD 16), zf := flagIf z (p == 0) }) := by
  intro o s p hx
  simp only [ptrGet, issue_executes hx, State.issued_ptr, zeroFlag_setWidth, ptrCarry, o, s, p]

theorem ptrModify_executes {f : HubAddr → HubAddr → HubAddr} {src : Src} :
    let o := st.cur.operands k (srcField src) none
    let s := st.issued k (srcField src) none
    Executes st k (srcField src) none → SrcReadable s src o.d →
    ptrModify sel f k src st =
      .next ((s.modCur fun c => c.setPtr sel (f (c.ptr sel) ((s.srcValue src o.d).setWidth 17))).complete {}) := by
  intro o s hx hr
  rw [ptrModify, issue_executes hx, State.readSrc_of_readable hr, andThen_next]

end Operations

/-! ## The instructions: each of the listed forms is its shared operation -/

/-- Settles O39: both are a `ptrGet`. -/
theorem getptrDeliversThePointer : Obligations.GetptrDeliversThePointer := fun st z c r k d x hmem => by
  have hget : ∃ sel, x.1 = st.cur.ptr sel ∧ exec x.2 st = ptrGet sel z c r k d st := by
    fin_cases hmem
    · exact ⟨.ptra, rfl, rfl⟩
    · exact ⟨.ptrb, rfl, rfl⟩
  obtain ⟨sel, hptr, hexec⟩ := hget
  intro o s hx hs
  rw [hptr]
  exact ⟨_, hexec.trans (ptrGet_executes hx), delivers_complete (.inr (by simpa [s] using hs))⟩

/-- Settles O40: the encodings by the row of each form, whose R bit tells a number from a register; the effect because each form
is a `ptrModify` whose function sets, adds or subtracts. -/
theorem pointerArithmetic : Obligations.PointerArithmetic := fun st k d n x hmem => by
  have hencode : encode x.2.2.2 = x.2.2.1 := by
    fin_cases hmem <;> exact encode_sub rfl rfl
  have hmodify : ∃ sel f, exec x.2.2.2 st = ptrModify sel f k x.1 st ∧
      x.2.1 = fun c v => c.setPtr sel (f (c.ptr sel) v) := by
    -- In each pair of rows the operand is a register, then a number.
    fin_cases hmem
    iterate 2 exact ⟨.ptra, fun _ v => v, rfl, rfl⟩
    iterate 2 exact ⟨.ptrb, fun _ v => v, rfl, rfl⟩
    iterate 2 exact ⟨.ptra, (· + ·), rfl, rfl⟩
    iterate 2 exact ⟨.ptrb, (· + ·), rfl, rfl⟩
    iterate 2 exact ⟨.ptra, (· - ·), rfl, rfl⟩
    iterate 2 exact ⟨.ptrb, (· - ·), rfl, rfl⟩
  obtain ⟨sel, f, hexec, hupdate⟩ := hmodify
  intro o s
  refine ⟨hencode, fun hx hr => ?_⟩
  rw [hupdate]
  exact ⟨_, hexec.trans (ptrModify_executes hx hr), delivers_complete (.inl rfl)⟩

end Sys2Proof.Machine
end

section
/-! PROOFS. CACHEX, GETTOPS, SETQUAD and SETQUAZ. -/

namespace Sys2Proof

/-! ## The encoding of CACHEX (30_encoding.md R103; 42_quad.md R165) -/

/-- The long of the one-operand group's fields, its first ten bits given as one number (30_encoding.md R91, R102). -/
theorem Fields.join_sub {z c r : Bool} {k : BitVec 4} {d s : BitVec 9} {p : BitVec 10}
    (hp : 0b000011#6 ++ BitVec.ofBool z ++ BitVec.ofBool c ++ BitVec.ofBool r ++ BitVec.ofBool true = p) :
    (Fields.sub z c r k d s).join = p ++ k ++ d ++ s := by
  rw [← hp]
  rfl

/-- Sub-opcode 000001000 with ZCR = 000 is a row of the table with its unused D field zero only. -/
theorem decode_cachex_nonzero_d (k : BitVec 4) {d : BitVec 9} (hd : d ≠ 0) :
    decode (0b0000110001#10 ++ k ++ d ++ 0b000001000#9) = .error .unlisted := by
  have hjoin : (Fields.sub false false false k d 0b000001000).join = 0b0000110001#10 ++ k ++ d ++ 0b000001000#9 :=
    Fields.join_sub rfl
  have hsub : decodeFields (.sub false false false k d 0b000001000) = if d != 0 then none else some (.cachex k) := rfl
  rw [decode_eq_unlisted, ← hjoin, Fields.split_join, hsub, if_pos (bne_iff_ne.mpr hd)]

end Sys2Proof

namespace Sys2Proof.Machine

/-! ## The state under an update of the executing cog -/

/-- An update of the executing cog counts only by what it does to that cog. -/
theorem State.modCur_congr {s : State} {f g : Cog → Cog} (h : f s.cur = g s.cur) : s.modCur f = s.modCur g := by
  rw [State.modCur, State.modCur, State.modCog, State.modCog, show f (s.cogAt s.turn) = g (s.cogAt s.turn) from h]

/-- Without a register field no pointer moves (44_indirect.md R213). -/
theorem Cog.postModOperands_none (c : Cog) (k : BitVec 4) : c.postModOperands k none none = c := by
  simp [Cog.postModOperands, usedMode, postMod]

theorem State.issued_none (s : State) (k : BitVec 4) : s.issued k none none = s := by
  refine State.eq_of_parts (fun n => ?_) rfl rfl rfl rfl
  by_cases h : n = s.turn
  · subst h
    exact (State.issued_cur s k none none).trans (Cog.postModOperands_none s.cur k)
  · exact State.issued_cogAt_ne s k none none h

/-! ## The top bytes of the QUADs (42_quad.md R166) -/

/-- A byte put below a value moves the value's own bytes up by one. -/
theorem extractLsb'_append_byte {n : Nat} (x : BitVec n) (b : Byte) (i : Nat) :
    (x ++ b).extractLsb' (i + 8) 8 = x.extractLsb' i 8 := by
  rw [BitVec.extractLsb'_append_eq_of_le (Nat.le_add_left 8 i), Nat.add_sub_cancel]

/-- Of four bytes side by side the last is byte 0. -/
theorem extractLsb'_four_bytes (b0 b1 b2 b3 : Byte) (k : Fin 4) :
    (b3 ++ b2 ++ b1 ++ b0).extractLsb' (8 * k) 8 = #v[b0, b1, b2, b3][k] := by
  fin_cases k
  · exact BitVec.extractLsb'_append_eq_right
  · exact (extractLsb'_append_byte (b3 ++ b2 ++ b1) b0 0).trans BitVec.extractLsb'_append_eq_right
  · calc (b3 ++ b2 ++ b1 ++ b0).extractLsb' 16 8
      _ = (b3 ++ b2 ++ b1).extractLsb' 8 8 := extractLsb'_append_byte _ b0 8
      _ = (b3 ++ b2).extractLsb' 0 8 := extractLsb'_append_byte _ b1 0
      _ = b2 := BitVec.extractLsb'_append_eq_right
  · calc (b3 ++ b2 ++ b1 ++ b0).extractLsb' 24 8
      _ = (b3 ++ b2 ++ b1).extractLsb' 16 8 := extractLsb'_append_byte _ b0 16
      _ = (b3 ++ b2).extractLsb' 8 8 := extractLsb'_append_byte _ b1 8
      _ = b3 := BitVec.extractLsb'_append_eq_left

theorem Cog.tops_byte (c : Cog) (k : Fin 4) : c.tops.extractLsb' (8 * k) 8 = c.quad[k].extractLsb' 24 8 := by
  rw [Cog.tops, extractLsb'_four_bytes]
  fin_cases k <;> rfl

/-! ## A new base (42_quad.md R167) -/

theorem badBase_iff (b : RegAddr) : badBase b = true ↔ 0x1F3 ≤ b.toNat ∧ b.toNat ≤ 0x1FE := decide_eq_true_iff

theorem badBase_eq_false {b : RegAddr} (h : b.toNat < 0x1F3 ∨ b = 0x1FF) : badBase b = false := by
  rw [← Bool.not_eq_true, badBase_iff]
  bv_omega

/-! ## What each shared operation answers when it executes -/

section Operations

variable {st : State} {k : BitVec 4}

theorem execCachex_executes (hc : cond k st.cur.cf st.cur.zf = true) :
    execCachex k st = .next ((st.modCur fun c => { c with cacheValid := false }).complete {}) := by
  have hx : Executes st k none none := ⟨by simpa [fieldInd] using hc, rfl⟩
  rw [execCachex, issue_executes hx, State.issued_none]

theorem execGettops_executes {z : Bool} {d : RegAddr} :
    let o := st.cur.operands k (some d) none
    let s := st.issued k (some d) none
    let v := st.cur.tops
    Executes st k (some d) none →
    execGettops z k d st = .next (s.complete { write := some (o.d, v), zf := flagIf z (v == 0) }) := by
  intro o s v hx
  have hv : s.cur.tops = v := by rw [State.issued_cur]; rfl
  rw [execGettops, issue_executes hx, hv]
  rfl

theorem quadBase_executes {f : Cog → Cog} {src : Src} :
    let o := st.cur.operands k (srcField src) none
    let s := st.issued k (srcField src) none
    let b : RegAddr := (s.srcValue src o.d).setWidth 9
    Executes st k (srcField src) none → SrcReadable s src o.d →
    quadBase f k src st =
      if badBase b then .refused .quadBase else .next (((s.modCur f).complete {}).modCur (·.rebase b)) := by
  intro o s b hx hr
  rw [quadBase, issue_executes hx, State.readSrc_of_readable hr, andThen_next]

end Operations

/-! ## The instructions -/

/-- Settles O41: with its valid bit cleared the cache hits for no address. -/
theorem cachexInvalidates : Obligations.CachexInvalidates := fun st k => by
  refine ⟨encode_sub rfl rfl, fun d hd => decode_cachex_nonzero_d k hd, fun hc => ?_⟩
  refine ⟨_, execCachex_executes hc, delivers_complete (.inl rfl), fun ea => ?_⟩
  simp [Cog.cacheHit]

/-- Settles O42: the value is `Cog.tops`. -/
theorem gettopsDeliversTheTopBytes : Obligations.GettopsDeliversTheTopBytes := fun st z k d => by
  intro o s hx hs
  exact ⟨st.cur.tops, st.cur.tops_byte, _, execGettops_executes hx, delivers_complete (.inr (by simpa [s] using hs))⟩

/-- Settles O43: each form is a `quadBase`, whose update of the cog leaves the base and the windows to `Cog.rebase`. -/
theorem setquadMovesTheBase : Obligations.SetquadMovesTheBase := fun st k d n x hmem => by
  have hexec : exec x.2.2 st = quadBase x.2.1 k x.1 st := by
    fin_cases hmem <;> rfl
  have hkept (c : Cog) : (x.2.1 c).qbase = c.qbase ∧ (x.2.1 c).remaps = c.remaps := by
    fin_cases hmem <;> exact ⟨rfl, rfl⟩
  intro o s b hx hr
  have hqbase : ((s.modCur x.2.1).complete {}).cur.qbase = st.cur.qbase := by simp [s, hkept]
  have hremaps : ((s.modCur x.2.1).complete {}).cur.remaps = remapsAfter st.cur.remaps := by simp [s, hkept]
  rw [hexec, quadBase_executes hx hr]
  refine ⟨fun hb => ⟨(s.modCur x.2.1).complete {}, ?_, delivers_complete (.inl rfl)⟩, fun hlow hhigh => ?_⟩
  · rw [if_neg (Bool.eq_false_iff.mp (badBase_eq_false hb))]
    exact congrArg Host.Outcome.next (State.modCur_congr (by rw [Cog.rebase, hqbase, hremaps]))
  · exact if_pos ((badBase_iff b).mpr ⟨hlow, hhigh⟩)

end Sys2Proof.Machine
end

section
/-! PROOFS. The instructions that control cogs, clock and locks. -/

namespace Sys2Proof.Machine

/-! ## Free picks (00_scope.md R7, D15) -/

/-- A free pick among those of a complete list that qualify finds one, if there is one. -/
theorem pickFrom_filter_some {α : Type} {l : List α} {p : α → Bool} (hl : ∀ a, a ∈ l) (n : Nat) (h : ∃ a, p a = true) :
    ∃ a, p a = true ∧ pickFrom (l.filter p) n = some a := by
  obtain ⟨b, hb⟩ := h
  obtain ⟨a, ha⟩ := pickFrom_some n (List.ne_nil_of_mem (List.mem_filter.mpr ⟨hl b, hb⟩))
  exact ⟨a, (List.mem_filter.mp (pickFrom_mem ha)).2, ha⟩

theorem pickFrom_filter_none {α : Type} {l : List α} {p : α → Bool} (n : Nat) (h : ∀ a, p a = false) :
    pickFrom (l.filter p) n = none := by
  rw [List.filter_eq_nil_iff.mpr fun a _ => Bool.eq_false_iff.mp (h a), pickFrom]

/-! ## Cog and lock numbers (43_hub_control.md R181, R189, R193) -/

theorem unitNumber_eq {v : Word} {n : Fin 8} (h : n.val = v.toNat % 8) : unitNumber v = n := Fin.ext h.symm

theorem explicitCog_eq {x : BitVec 4} {t : CogId} (h : (x.extractLsb' 0 3).toNat = t.val) : explicitCog x = t :=
  Fin.ext (by simp [explicitCog, h])

/-! ## What resolving the operands leaves alone -/

/-- The pointers that an operand moves are no part of whether a cog runs (44_indirect.md R213). -/
theorem State.issued_cogAt_run (s : State) (k : BitVec 4) (d sf : Option RegAddr) (n : CogId) :
    ((s.issued k d sf).cogAt n).run = (s.cogAt n).run := by
  rw [State.issued, State.modCur, State.cogAt_modCog]
  split <;> rfl

theorem State.issued_cogAt_stack (s : State) (k : BitVec 4) (d sf : Option RegAddr) (n : CogId) :
    ((s.issued k d sf).cogAt n).stack = (s.cogAt n).stack := by
  rw [State.issued, State.modCur, State.cogAt_modCog]
  split <;> rfl

/-! ## The target and the results of COGINIT (43_hub_control.md R181) -/

theorem State.coginitTarget_explicit {s : State} (h : wantsIdle s.cur.cogsel = false) :
    s.coginitTarget = some (explicitCog s.cur.cogsel) := by
  simp [State.coginitTarget, h]

theorem State.coginitTarget_some {s : State} (h : wantsIdle s.cur.cogsel = true) (hi : ∃ k, (s.cogAt k).run = .idle) :
    ∃ t, (s.cogAt t).run = .idle ∧ s.coginitTarget = some t := by
  obtain ⟨t, ht, hp⟩ := pickFrom_filter_some (p := fun t => decide ((s.cogAt t).run = .idle)) mem_allCogs
    (Config.pickIdleCog s.draws) (by simpa using hi)
  exact ⟨t, by simpa using ht, (if_pos h).trans hp⟩

theorem State.coginitTarget_none {s : State} (h : wantsIdle s.cur.cogsel = true) (hi : ∀ k, (s.cogAt k).run ≠ .idle) :
    s.coginitTarget = none :=
  (if_pos h).trans (pickFrom_filter_none _ fun k => by simpa using hi k)

section CoginitEffect

variable {s : State} {z c r : Bool} {d : RegAddr}

theorem State.coginitEffect_explicit {target : Option CogId} (h : wantsIdle s.cur.cogsel = false) :
    s.coginitEffect z c r d target =
      { write := if r then some (d, Config.anyWord (s.draws + 1)) else none
        cf := if c then some (Config.anyFlag (s.draws + 2)) else none
        zf := if z then some (Config.anyFlag (s.draws + 3)) else none
        clocks := if z || c || r then 2 else 1 } := by
  simp [State.coginitEffect, h, flagIf, hubClocks]

theorem State.coginitEffect_some {t : CogId} (h : wantsIdle s.cur.cogsel = true) :
    s.coginitEffect z c r d (some t) =
      { write := if r then some (d, BitVec.ofNat 32 t.val) else none
        cf := if c then some false else none
        zf := if z then some (Config.anyFlag (s.draws + 3)) else none
        clocks := if z || c || r then 2 else 1 } := by
  simp [State.coginitEffect, h, flagIf, hubClocks, unitWord]

theorem State.coginitEffect_none (h : wantsIdle s.cur.cogsel = true) :
    s.coginitEffect z c r d none =
      { write := if r then some (d, Config.anyWord (s.draws + 1)) else none
        cf := if c then some true else none
        zf := if z then some (Config.anyFlag (s.draws + 3)) else none
        clocks := if z || c || r then 2 else 1 } := by
  simp [State.coginitEffect, h, flagIf, hubClocks]

end CoginitEffect

/-! ## What each operation answers when it executes -/

section Coginit

variable {st : State} {z c r : Bool} {k : BitVec 4} {d sf : RegAddr}

/-- The state in which COGINIT has begun the load of cog `t` (43_hub_control.md R181, R184); `o` holds the addresses of its
operands. -/
def State.coginitStarted (s : State) (o : Operands) (t : CogId) : State :=
  s.startCog t (programAddr ((s.cur.reg o.d).setWidth 17)) ((s.cur.reg o.s).setWidth 17) s.earliest

theorem execCoginit_starts {t : CogId} :
    let o := st.cur.operands k (some d) (some sf)
    let s := st.issued k (some d) (some sf)
    let started := (s.coginitStarted o t).drawn 4
    Executes st k (some d) (some sf) → Readable s o.d → Readable s o.s → s.coginitTarget = some t →
    execCoginit z c r k d sf st =
      .next (if t = st.turn then started else started.complete (s.coginitEffect z c r o.d (some t))) := by
  intro o s started hx hd hs ht
  rw [execCoginit, issue_executes hx, State.readReg_of_readable hd, andThen_next, State.readReg_of_readable hs, andThen_next,
    ht]
  rfl

theorem execCoginit_startsNone :
    let o := st.cur.operands k (some d) (some sf)
    let s := st.issued k (some d) (some sf)
    Executes st k (some d) (some sf) → Readable s o.d → Readable s o.s → s.coginitTarget = none →
    execCoginit z c r k d sf st = .next ((s.drawn 4).complete (s.coginitEffect z c r o.d none)) := by
  intro o s hx hd hs ht
  rw [execCoginit, issue_executes hx, State.readReg_of_readable hd, andThen_next, State.readReg_of_readable hs, andThen_next,
    ht]

/-- With another cog as its target the executing cog goes on. -/
theorem execCoginit_other {t : CogId} :
    let o := st.cur.operands k (some d) (some sf)
    let s := st.issued k (some d) (some sf)
    Executes st k (some d) (some sf) → Readable s o.d → Readable s o.s → CellsSorted st.cur.ram →
    s.coginitTarget = some t → t ≠ st.turn →
    Answers (execCoginit z c r k d sf st) (s.coginitStarted o t) (s.coginitEffect z c r o.d (some t)) := by
  intro o s hx hd hs hram ht hne
  have hcur : (s.coginitStarted o t).cur = s.cur := State.cogAt_modCog_ne s hne.symm _
  refine ⟨_, (execCoginit_starts hx hd hs ht).trans (by rw [if_neg hne]), delivers_drawn_complete (.inr ?_)⟩
  rw [hcur]
  simpa [s] using hram

end Coginit

section Operations

variable {st : State} {k : BitVec 4} {d : RegAddr}

theorem execClkset_executes :
    let o := st.cur.operands k (some d) none
    let s := st.issued k (some d) none
    let v := s.cur.reg o.d
    Executes st k (some d) none → Readable s o.d →
    execClkset k d st =
      if v.getLsbD 8 then .next s.chipReset
      else .next ((s.modHub fun h => { h with clkreg := v.extractLsb' 0 9 }).complete {}) := by
  intro o s v hx hr
  have hbit : (v.setWidth 9).getLsbD 8 = v.getLsbD 8 := by simp
  have hmode : v.setWidth 9 = v.extractLsb' 0 9 := BitVec.setWidth_eq_extractLsb' (by decide)
  rw [execClkset, issue_executes hx, State.readReg_of_readable hr, andThen_next, ← hbit, ← hmode]

theorem execCogid_executes :
    let o := st.cur.operands k (some d) none
    Executes st k (some d) none →
    execCogid k d st = .next ((st.issued k (some d) none).complete
      { write := some (o.d, BitVec.ofNat 32 st.turn.val), clocks := 2 }) := by
  intro o hx
  rw [execCogid, issue_executes hx]
  rfl

theorem execCogstop_executes {t : CogId} :
    let o := st.cur.operands k (some d) none
    let s := st.issued k (some d) none
    Executes st k (some d) none → Readable s o.d → t.val = (s.cur.reg o.d).toNat % 8 →
    execCogstop k d st = .next ((s.complete {}).modCog t fun c => { c with run := .idle }) := by
  intro o s hx hr ht
  rw [execCogstop, issue_executes hx, State.readReg_of_readable hr, andThen_next, unitNumber_eq ht]

theorem execLocknew_some {z c : Bool} {n : LockId} :
    let o := st.cur.operands k (some d) none
    let s := st.issued k (some d) none
    Executes st k (some d) none → pickFrom s.freeLocks (Config.pickFreeLock s.draws) = some n →
    execLocknew z c k d st =
      .next (((s.modHub fun h => { h with lockUsed := h.lockUsed.set n true }).drawn 3).complete
        { write := some (o.d, BitVec.ofNat 32 n.val)
          cf := if c then some false else none
          zf := if z then some (Config.anyFlag (s.draws + 2)) else none
          clocks := 2 }) := by
  intro o s hx hp
  rw [execLocknew, issue_executes hx, hp]
  rfl

theorem execLocknew_none {z c : Bool} :
    let o := st.cur.operands k (some d) none
    let s := st.issued k (some d) none
    Executes st k (some d) none → pickFrom s.freeLocks (Config.pickFreeLock s.draws) = none →
    execLocknew z c k d st =
      .next ((s.drawn 3).complete
        { write := some (o.d, Config.anyWord (s.draws + 1))
          cf := if c then some true else none
          zf := if z then some (Config.anyFlag (s.draws + 2)) else none
          clocks := 2 }) := by
  intro o s hx hp
  rw [execLocknew, issue_executes hx, hp]
  rfl

theorem execLockret_executes {n : LockId} :
    let o := st.cur.operands k (some d) none
    let s := st.issued k (some d) none
    Executes st k (some d) none → Readable s o.d → n.val = (s.cur.reg o.d).toNat % 8 →
    execLockret k d st = .next ((s.modHub fun h => { h with lockUsed := h.lockUsed.set n false }).complete {}) := by
  intro o s hx hr hn
  obtain rfl := unitNumber_eq hn
  rw [execLockret, issue_executes hx, State.readReg_of_readable hr, andThen_next]

theorem lockWrite_executes {state c : Bool} {n : LockId} :
    let o := st.cur.operands k (some d) none
    let s := st.issued k (some d) none
    Executes st k (some d) none → Readable s o.d → n.val = (s.cur.reg o.d).toNat % 8 →
    lockWrite state c k d st = .next ((s.modHub fun h => { h with locks := h.locks.set n state }).complete
      { cf := if c then some st.hub.locks[n] else none, clocks := if c then 2 else 1 }) := by
  intro o s hx hr hn
  obtain rfl := unitNumber_eq hn
  rw [lockWrite, issue_executes hx, State.readReg_of_readable hr, andThen_next]
  rfl

end Operations

/-! ## The instructions -/

/-- Settles O44: SETCOG's value names the target; any values are delivered. -/
theorem coginitStartsTheExplicitCog : Obligations.CoginitStartsTheExplicitCog := fun st z c r k d sf t => by
  intro o s addr par started hx hd hs hram hsel ht
  have hwants : wantsIdle s.cur.cogsel = false := by simpa [s, wantsIdle] using hsel
  have htarget : s.coginitTarget = some t := by
    rw [State.coginitTarget_explicit hwants, explicitCog_eq (by simpa [s] using ht)]
  refine ⟨fun hne => ?_, fun heq => ⟨s.draws + 4, (execCoginit_starts hx hd hs htarget).trans (by rw [if_pos heq]; rfl)⟩⟩
  have h := execCoginit_other (z := z) (c := c) (r := r) hx hd hs hram htarget hne
  rw [State.coginitEffect_explicit hwants] at h
  exact ⟨_, _, _, h⟩

/-- Settles O45: an idle cog is never the executing one, which goes on. -/
theorem coginitStartsAnIdleCog : Obligations.CoginitStartsAnIdleCog := fun st z c r k d sf => by
  intro o s addr par hx hd hs hram hsel hrun
  have hwants : wantsIdle s.cur.cogsel = true := by simpa [s, wantsIdle] using hsel
  have hruns (n : CogId) : (s.cogAt n).run = (st.cogAt n).run := st.issued_cogAt_run _ _ _ n
  refine ⟨fun hidle => ?_, fun hbusy => ?_⟩
  · obtain ⟨t, hti, htarget⟩ := State.coginitTarget_some hwants (by simpa [hruns] using hidle)
    rw [hruns] at hti
    have hne : t ≠ st.turn := fun e => by
      rw [e, show (st.cogAt st.turn).run = .running from hrun] at hti
      cases hti
    have h := execCoginit_other (z := z) (c := c) (r := r) hx hd hs hram htarget hne
    rw [State.coginitEffect_some hwants] at h
    exact ⟨t, _, hti, h⟩
  · have htarget := State.coginitTarget_none hwants (by simpa [hruns] using hbusy)
    have h := execCoginit_startsNone (z := z) (c := c) (r := r) hx hd hs htarget
    rw [State.coginitEffect_none hwants] at h
    exact ⟨_, _, _, h, delivers_drawn_complete (.inr (by simpa [s] using hram))⟩

/-- Settles O46. -/
theorem clksetWritesTheClockRegister : Obligations.ClksetWritesTheClockRegister := fun st k d => by
  intro o s hx hr hbit
  refine ⟨_, (execClkset_executes hx hr).trans ?_, delivers_complete (.inl rfl)⟩
  exact if_neg (Bool.eq_false_iff.mp hbit)

/-- Settles O47: the memory after a reset is made of cells in canonical form, so its ROM is the image. -/
theorem clksetResetsTheChip : Obligations.ClksetResetsTheChip := fun st k d => by
  intro o s hx hr hbit
  have hwf : Memory.wf s.chipReset.hub.mem := hubOfCells_wf _
  refine ⟨s.chipReset, (execClkset_executes hx hr).trans (if_pos hbit), rfl, rfl, hwf, fun a ha => hubByte_rom hwf ha,
    fun n => ?_⟩
  rw [State.chipReset_cogAt]
  exact ⟨rfl, st.issued_cogAt_stack _ _ _ n⟩

/-- Settles O48. -/
theorem cogidDeliversTheNumber : Obligations.CogidDeliversTheNumber := fun st k d => by
  intro o s hx hram
  exact ⟨_, execCogid_executes hx, delivers_complete (.inr (by simpa [s] using hram))⟩

/-- Settles O49: the instruction completes before the cog, its own perhaps, becomes idle. -/
theorem cogstopStopsTheCog : Obligations.CogstopStopsTheCog := fun st k d t => by
  intro o s hx hr ht
  exact ⟨s.complete {}, execCogstop_executes hx hr ht, delivers_complete (.inl rfl)⟩

/-- Settles O50: the pick is among the locks that are not checked out. -/
theorem locknewChecksOutAFreeLock : Obligations.LocknewChecksOutAFreeLock := fun st z c k d => by
  intro o s hx hram
  have hsorted : CellsSorted s.cur.ram := by simpa [s] using hram
  refine ⟨fun hfree => ?_, fun hfull => ?_⟩
  · obtain ⟨n, hn, hp⟩ := pickFrom_filter_some (p := fun n => !s.hub.lockUsed[n]) mem_allLocks
      (Config.pickFreeLock s.draws) (by simpa [s] using hfree)
    exact ⟨n, _, by simpa [s] using hn, _, execLocknew_some hx hp, delivers_drawn_complete (.inr hsorted)⟩
  · have hp : pickFrom s.freeLocks (Config.pickFreeLock s.draws) = none :=
      pickFrom_filter_none _ fun n => by simpa [s] using hfull n
    exact ⟨_, _, _, execLocknew_none hx hp, delivers_drawn_complete (.inr hsorted)⟩

/-- Settles O51: LOCKSET and LOCKCLR are one `lockWrite` each. -/
theorem locksReportAndAreFreed : Obligations.LocksReportAndAreFreed := fun st c k d n => by
  intro o s hx hr hn
  refine ⟨fun x hmem => ?_, _, execLockret_executes hx hr hn, delivers_complete (.inl rfl)⟩
  have hexec : exec x.2 st = lockWrite x.1 c k d st := by
    fin_cases hmem <;> rfl
  exact ⟨_, hexec.trans (lockWrite_executes hx hr hn), delivers_complete (.inl rfl)⟩

end Sys2Proof.Machine
end

section
/-! PROOFS. The start-up load of a cog: in whatever order the loader copies, it ends with the image copied. -/

namespace Sys2Proof.Machine

/-! ## One step of a load (43_hub_control.md R184) -/

/-- What a register holds after a write to one of them. -/
theorem cellFind_cellPut_getD {m : Cells 32} (h : CellsSorted m) (i j : Nat) (v : Word) :
    (cellFind (cellPut 0 m i v) j).getD 0 = if i = j then v else (cellFind m j).getD 0 := by
  rw [cellFind_cellPut h]
  split
  · split
    · next hv => exact hv.symm
    · rfl
  · rfl

theorem step_loading {s : State} {l : Load} (hp : s.resetPending = false) (hl : s.cur.run = .loading l) :
    step s = .next (s.loaderStep l).passTurn := by
  have hc : s.cogStep = .next (s.loaderStep l) := by rw [State.cogStep, hl]
  have hr : (s.loaderStep l).resetPending = false := by
    unfold State.loaderStep
    split <;> exact hp
  simp [step, hp, hc, hr]

theorem loadSteps_succ {s : State} {l : Load} (hl : s.cur.run = .loading l) (n : Nat) :
    loadSteps (n + 1) s = loadSteps n (s.loaderStep l) := by
  rw [loadSteps, hl]

/-! ## A load that nobody disturbs -/

/-- `t` is `s` at some moment of a load from `addr`: the registers `left` are still to be copied, every other one holds its
long of the image, and nothing but the loading cog has changed. -/
structure State.Loads (s : State) (addr par : HubAddr) (left : List Nat) (t : State) : Prop where
  run    : t.cur.run = .loading ⟨addr, par, left⟩
  sorted : CellsSorted t.cur.ram
  copied : ∀ j < loadLongs, j ∉ left →
    (cellFind t.cur.ram j).getD 0 = memRead 32 s.hub.mem (addr + BitVec.ofNat 17 (4 * j)) .long
  stack  : t.cur.stack = s.cur.stack
  hub    : t.hub = s.hub
  turn   : t.turn = s.turn
  others : ∀ k, k ≠ s.turn → t.cogAt k = s.cogAt k

namespace State.Loads

variable {s t : State} {addr par : HubAddr} {left : List Nat}

theorem start (hrun : s.cur.run = .loading ⟨addr, par, List.range loadLongs⟩) (hs : CellsSorted s.cur.ram) :
    s.Loads addr par (List.range loadLongs) s where
  run := hrun
  sorted := hs
  copied _ hj hn := absurd (List.mem_range.mpr hj) hn
  stack := rfl
  hub := rfl
  turn := rfl
  others _ _ := rfl

/-- The loader copies one of the longs still to be copied. -/
theorem loaderStep (h : s.Loads addr par left t) (hne : left ≠ []) :
    ∃ i ∈ left, s.Loads addr par (left.erase i) (t.loaderStep ⟨addr, par, left⟩) := by
  obtain ⟨i, hi⟩ := pickFrom_some (Config.loadOrder t.draws) hne
  have hstep : t.loaderStep ⟨addr, par, left⟩ = (t.modCur (·.copyLong t.hub.mem ⟨addr, par, left⟩ i)).drawn 1 := by
    simp only [State.loaderStep, hi]
  have hcur : (t.loaderStep ⟨addr, par, left⟩).cur = t.cur.copyLong t.hub.mem ⟨addr, par, left⟩ i := by
    rw [hstep, State.drawn_cur, State.cur_modCur]
  refine ⟨i, pickFrom_mem hi, ⟨by rw [hcur]; rfl, ?_, fun j hj hn => ?_, ?_, ?_, ?_, fun k hk => ?_⟩⟩
  · rw [hcur]
    exact cellPut_sorted h.sorted
  · rw [hcur, Cog.copyLong, cellFind_cellPut_getD h.sorted]
    split
    · next hij => rw [hij, h.hub]
    · next hij => exact h.copied j hj fun hm => hn ((List.mem_erase_of_ne (Ne.symm hij)).mpr hm)
  · rw [hcur]
    exact h.stack
  · rw [hstep]
    exact h.hub
  · rw [hstep]
    exact h.turn
  · rw [hstep, State.drawn_cogAt, State.cogAt_modCur_ne t (h.turn ▸ hk), h.others k hk]

/-- In as many steps as there are longs left all of them are copied. -/
theorem copyAll (n : Nat) : ∀ {left : List Nat} {t : State}, left.length = n → s.Loads addr par left t →
    ∃ u, s.Loads addr par [] u ∧ ∀ m, loadSteps (m + n) t = loadSteps m u := by
  induction n with
  | zero => exact fun hlen h => ⟨_, List.eq_nil_of_length_eq_zero hlen ▸ h, fun _ => rfl⟩
  | succ n ih =>
    intro left t hlen h
    obtain ⟨i, hi, hstep⟩ := h.loaderStep (List.ne_nil_of_length_eq_add_one hlen)
    obtain ⟨u, hu, hsteps⟩ := ih (by rw [List.length_erase_of_mem hi, hlen, Nat.add_sub_cancel]) hstep
    exact ⟨u, hu, fun m => (loadSteps_succ h.run (m + n)).trans (hsteps m)⟩

end State.Loads

/-- The hub address of the long for register `a`. -/
theorem ofNat_four_mul (a : RegAddr) : BitVec.ofNat 17 (4 * a.toNat) = 4 * a.setWidth 17 := by
  bv_omega

/-- Settles O19: whatever the order, no register is left after as many copies as there are registers, and one more step of the
loader ends the start-up. -/
theorem loaderCopiesTheImage : Obligations.LoaderCopiesTheImage := by
  refine ⟨fun s l hp hl => ⟨step_loading hp hl, loadSteps_succ hl⟩, fun s addr par hrun hs => ?_⟩
  intro t
  obtain ⟨u, hu, hsteps⟩ := (State.Loads.start hrun hs).copyAll loadLongs List.length_range
  have ht : t = (u.modCur (·.finishLoad ⟨addr, par, []⟩ (Config.startUp u.draws))).drawn 1 :=
    calc loadSteps (0x1F8 + 1) s
      _ = loadSteps 1 u := Nat.add_comm 1 0x1F8 ▸ hsteps 1
      _ = u.loaderStep ⟨addr, par, []⟩ := loadSteps_succ hu.run 0
  have hcur : t.cur = u.cur.finishLoad ⟨addr, par, []⟩ (Config.startUp u.draws) := by
    rw [ht, State.drawn_cur, State.cur_modCur]
  have himage (a : RegAddr) (ha : a.toNat < 0x1F8) :
      t.cur.underlying a = memRead 32 s.hub.mem (addr + 4 * a.setWidth 17) .long := by
    rw [hcur, ← ofNat_four_mul, Cog.underlying, if_pos ha]
    exact hu.copied a.toNat ha List.not_mem_nil
  have hothers (k : CogId) (hk : k ≠ s.turn) : t.cogAt k = s.cogAt k := by
    rw [ht, State.drawn_cogAt, State.cogAt_modCur_ne u (hu.turn ▸ hk), hu.others k hk]
  have hstack : t.cur.stack = s.cur.stack := by
    rw [hcur]
    exact hu.stack
  have hhub : t.hub = s.hub := by
    rw [ht]
    exact hu.hub
  rw [hcur] at himage hstack ⊢
  exact ⟨rfl, rfl, rfl, rfl, rfl, rfl, rfl, rfl, rfl, rfl, rfl, rfl, rfl, himage, hstack, hhub, hothers⟩

end Sys2Proof.Machine
end

section
/-! PROOFS. INDA and INDB: what an indirect operand designates, how its pointer moves, and SETINDx and FIXINDx, which set
pointers and limits. -/

namespace Sys2Proof

section FirstTenBits

variable {op : BitVec 6} {z c r b : Bool} {k : BitVec 4} {d s : BitVec 9} {p : BitVec 10}

/-- The long made of some fields, its first ten bits given as one number (30_encoding.md R91). -/
theorem Fields.join_of_firstTen (hp : op ++ BitVec.ofBool z ++ BitVec.ofBool c ++ BitVec.ofBool r ++ BitVec.ofBool b = p) :
    (Fields.mk op z c r b k d s).join = p ++ k ++ d ++ s := by
  rw [← hp]
  rfl

theorem encode_of_fields {i : Instr} (hi : i.fields = ⟨op, z, c, r, b, k, d, s⟩)
    (hp : op ++ BitVec.ofBool z ++ BitVec.ofBool c ++ BitVec.ofBool r ++ BitVec.ofBool b = p) :
    encode i = p ++ k ++ d ++ s := by
  rw [encode, hi, Fields.join_of_firstTen hp]

end FirstTenBits

/-- A selector under FIXINDx's opcode that is none of the three is no row of the table (44_indirect.md R226 to R228). -/
theorem decodeFixInd_eq_none {k : BitVec 4} {d s : BitVec 9} (hk : k ∉ ([0b0001, 0b0100, 0b0101] : List (BitVec 4))) :
    decodeFixInd ⟨0b111001, false, false, false, false, k, d, s⟩ = none := by
  simp only [List.mem_cons, List.not_mem_nil, or_false, not_or] at hk
  obtain ⟨ha, hb, hs⟩ := hk
  unfold decodeFixInd
  split
  · rfl
  · split
    case h_1 h => exact absurd (BitVec.eq_of_toNat_eq h) ha
    case h_2 h => exact absurd (BitVec.eq_of_toNat_eq h) hb
    case h_3 h => exact absurd (BitVec.eq_of_toNat_eq h) hs
    case h_4 => rfl

theorem decode_fixind_unlisted {k : BitVec 4} (d s : BitVec 9) (hk : k ∉ ([0b0001, 0b0100, 0b0101] : List (BitVec 4))) :
    decode (0b1110010000#10 ++ k ++ d ++ s) = .error .unlisted := by
  have hjoin : (Fields.mk 0b111001 false false false false k d s).join = 0b1110010000#10 ++ k ++ d ++ s :=
    Fields.join_of_firstTen rfl
  rw [decode_eq_unlisted, ← hjoin, Fields.split_join]
  exact decodeFixInd_eq_none hk

end Sys2Proof

namespace Sys2Proof.Machine

/-! ## What an operand field designates (44_indirect.md R212) -/

theorem namesInd_iff (f : RegAddr) : namesInd f = true ↔ f = 0x1F6 ∨ f = 0x1F7 := by
  simp [namesInd]

theorem Cog.target_of_namesInd (c : Cog) {f : RegAddr} (hf : namesInd f = true) (m : BitVec 2) :
    c.target f m = indTarget (c.ind f) m := if_pos hf

theorem Cog.target_of_not_namesInd (c : Cog) {f : RegAddr} (hf : ¬ namesInd f = true) (m : BitVec 2) : c.target f m = f :=
  if_neg hf

/-! ## How a pointer moves (44_indirect.md R213, R214) -/

@[simp] theorem postMod_zero (p : IndReg) : postMod p 0 = p := if_pos rfl

/-- Of a pointer and its limits only the pointer moves. -/
theorem postMod_eq (p : IndReg) (m : BitVec 2) :
    postMod p m = if m = 0b00 then p else { p with ptr := if m = 0b10 then decInd p else incInd p } := by
  unfold postMod
  split_ifs <;> rfl

@[simp] theorem postMod_bot (p : IndReg) (m : BitVec 2) : (postMod p m).bot = p.bot := by
  rw [postMod_eq]
  split <;> rfl

@[simp] theorem postMod_top (p : IndReg) (m : BitVec 2) : (postMod p m).top = p.top := by
  rw [postMod_eq]
  split <;> rfl

section UsedMode

variable {f : RegAddr} {d s : Option RegAddr} (k : BitVec 4)

theorem usedMode_of_unused (hd : d ≠ some f) (hs : s ≠ some f) : usedMode f k d s = 0 := by
  simp [usedMode, hd, hs]

theorem usedMode_of_d (hd : d = some f) (hs : s ≠ some f) : usedMode f k d s = modeD k := by
  simp [usedMode, hd, hs]

theorem usedMode_of_s (hd : d ≠ some f) (hs : s = some f) : usedMode f k d s = modeS k := by
  simp [usedMode, hd, hs]

theorem usedMode_of_both (hd : d = some f) (hs : s = some f) : usedMode f k d s = modeD k ||| modeS k := by
  simp [usedMode, hd, hs]

end UsedMode

/-- Settles O33: both pointers move by `postMod`, each by the mode with which the operands use it. -/
theorem indirectOperandsResolveAndMove : Obligations.IndirectOperandsResolveAndMove := fun c k d s => by
  intro inc dec move md ms c'
  have hmove (m : BitVec 2) (p : IndReg) : move m p = postMod p m := (postMod_eq p m).symm
  refine ⟨fun r hmem => ?_, fun f ha hb => ?_, rfl, fun m p => ?_⟩
  · have hr : namesInd r.1 = true ∧ r.2.1 = c.ind r.1 ∧ r.2.2 = postMod r.2.1 (usedMode r.1 k d s) := by
      fin_cases hmem <;> exact ⟨rfl, rfl, rfl⟩
    obtain ⟨hn, hp, hp'⟩ := hr
    have htarget (m : BitVec 2) : c.target r.1 m = indTarget r.2.1 m := hp ▸ c.target_of_namesInd hn m
    simp only [hmove]
    refine ⟨?_, ?_, fun hd hs => ?_, fun hd hs => ?_, fun hd hs => ?_, fun hd hs => ?_⟩
    · rintro rfl
      exact htarget md
    · rintro rfl
      exact htarget ms
    · rw [hp', usedMode_of_unused k hd hs, postMod_zero]
    · exact hp'.trans (congrArg (postMod r.2.1) (usedMode_of_d k hd hs))
    · exact hp'.trans (congrArg (postMod r.2.1) (usedMode_of_s k hd hs))
    · exact hp'.trans (congrArg (postMod r.2.1) (usedMode_of_both k hd hs))
  · have hf : ¬ namesInd f = true := mt (namesInd_iff f).mp (not_or.mpr ⟨ha, hb⟩)
    constructor
    · rintro rfl
      exact c.target_of_not_namesInd hf (modeD k)
    · rintro rfl
      exact c.target_of_not_namesInd hf (modeS k)
  · rw [hmove]
    exact ⟨postMod_bot p m, postMod_top p m, fun h => postMod_ordered h m⟩

/-! ## SETINDx and FIXINDx (44_indirect.md R217) -/

/-- A pointer moved by a signed delta modulo 512. -/
theorem adjInd_eq_ofInt (delta : BitVec 9) (p : IndReg) :
    adjInd delta p = ⟨BitVec.ofInt 9 ((p.ptr.toNat + delta.toInt) % 512), 0x000, 0x1FF⟩ := by
  have hsum : BitVec.ofInt 9 ((p.ptr.toNat + delta.toInt) % 512) = p.ptr + delta :=
    calc BitVec.ofInt 9 ((p.ptr.toNat + delta.toInt) % 512)
      _ = BitVec.ofInt 9 (p.ptr.toNat + delta.toInt) := BitVec.eq_of_toNat_eq (by simp)
      _ = p.ptr + delta := by simp [BitVec.ofInt_add]
  rw [hsum]
  rfl

/-- FIXINDx's limits are the lower and the higher of its two numbers. -/
theorem fixInd_eq (t i : RegAddr) (p : IndReg) :
    fixInd t i p = ⟨i, if i.toNat ≤ t.toNat then i else t, if i.toNat ≤ t.toNat then t else i⟩ := by
  simp only [fixInd, BitVec.ule_iff_toNat_le]

/-- From a terminal below initial the top limit is initial. -/
theorem fixInd_of_lt {t i : RegAddr} (h : t.toNat < i.toNat) (p : IndReg) : fixInd t i p = ⟨i, t, i⟩ := by
  rw [fixInd_eq, if_neg h.not_ge, if_neg h.not_ge]

/-- At the top limit a step up wraps to the bottom (44_indirect.md R212). -/
theorem incInd_top {p : IndReg} (h : p.ptr = p.top) : incInd p = p.bot := if_pos h

/-- Above the bottom limit a step down is to the register below (44_indirect.md R212). -/
theorem decInd_toNat_of_bot_lt {p : IndReg} (h : p.bot.toNat < p.ptr.toNat) : (decInd p).toNat = p.ptr.toNat - 1 := by
  have hne : p.ptr ≠ p.bot := fun e => h.ne' (congrArg BitVec.toNat e)
  rw [decInd, if_neg hne]
  bv_omega

theorem indModify_answers (fa fb : IndReg → IndReg) (s : State) :
    Answers (indModify fa fb s) (s.modCur fun c => { c with inda := fa c.inda, indb := fb c.indb }) {} :=
  ⟨_, rfl, delivers_complete (.inl rfl)⟩

/-- Settles O52: each form is an `indModify` by `setInd`, by `adjInd` or by nothing. -/
theorem setindSetsOrMovesPointers : Obligations.SetindSetsOrMovesPointers := fun st a b => by
  intro set adjust keep
  have hadjust : adjust = adjInd := funext₂ fun v p => (adjInd_eq_ofInt v p).symm
  clear_value adjust
  subst hadjust
  refine ⟨fun p => ⟨setInd_ordered a p, adjInd_ordered a p⟩, fun x hmem => ?_⟩
  have hencode : encode x.2.2.2 = x.2.2.1 := by
    fin_cases hmem <;> exact encode_of_fields rfl rfl
  have hexec : exec x.2.2.2 st = indModify x.1 x.2.1 st := by
    fin_cases hmem <;> rfl
  exact ⟨hencode, hexec ▸ indModify_answers x.1 x.2.1 st⟩

/-- Settles O53: each form is an `indModify` by `fixInd`, or by nothing. -/
theorem fixindSetsPointersAndLimits : Obligations.FixindSetsPointersAndLimits := fun st t i => by
  intro fixed
  have hfixed (p : IndReg) : fixInd t i p = fixed := fixInd_eq t i p
  clear_value fixed
  refine ⟨?_, fun h => ?_, fun p hp hi => ?_, fun x hmem => ?_, fun k hk => decode_fixind_unlisted t i hk⟩
  · exact hfixed fixed ▸ fixInd_ordered t i fixed
  · rw [← hfixed fixed, fixInd_of_lt h]
    exact incInd_top rfl
  · rw [← hfixed fixed, fixInd_of_lt (hp.trans_le hi)]
    exact decInd_toNat_of_bot_lt hp
  · have hencode : encode x.2.2 = 0b1110010000#10 ++ x.1 ++ t ++ i := by
      fin_cases hmem <;> exact encode_of_fields rfl rfl
    have hmodify : ∃ fa fb, exec x.2.2 st = indModify fa fb st ∧
        x.2.1 = fun c => { c with inda := fa c.inda, indb := fb c.indb } := by
      fin_cases hmem
      · exact ⟨fixInd t i, id, rfl, by simp only [hfixed]; rfl⟩
      · exact ⟨id, fixInd t i, rfl, by simp only [hfixed]; rfl⟩
      · exact ⟨fixInd t i, fixInd t i, rfl, by simp only [hfixed]⟩
    obtain ⟨fa, fb, hexec, hupdate⟩ := hmodify
    rw [hexec, hupdate]
    exact ⟨hencode, indModify_answers fa fb st⟩

end Sys2Proof.Machine
end

section
/-! PROOFS. The instructions that deliver or compare the halves of the system counter: GETCNT, SUBCNT and CMPCNT. -/

namespace Sys2Proof.Machine

/-! ## The counter's two halves (46_cnt_wait.md R255) -/

/-- An update that changes nothing in the executing cog changes nothing. -/
theorem State.modCur_of_fixed {s : State} {f : Cog → Cog} (h : f s.cur = s.cur) : s.modCur f = s := by
  refine State.eq_of_parts (fun k => ?_) rfl rfl rfl rfl
  by_cases hk : k = s.turn
  · subst hk
    exact (s.cur_modCur f).trans h
  · exact s.cogAt_modCur_ne hk f

/-- After a high half, as after any other instruction, no low half came just before. -/
theorem State.endPhase_high (s : State) (e : Effect) (x : CntPhase) : (s.complete e).endPhase true x = s.complete e :=
  State.modCur_of_fixed (by rw [State.complete_cur]; rfl)

/-- The clocks due do not depend on the operands. -/
theorem State.issued_clocksToDue (s : State) (k : BitVec 4) (d sf : Option RegAddr) :
    (s.issued k d sf).clocksToDue = s.clocksToDue := by
  simp [State.clocksToDue]

/-- The difference of a low half: what it latches, and when (46_cnt_wait.md R256, R257). -/
theorem State.cntDifference_low (s : State) (dv : Word) :
    ∃ n : Nat, s.clocksToDue ≤ n ∧
      let now := s.hub.cnt + BitVec.ofNat 64 n
      let latched := (s.passClocks n).modCur fun c => { c with cnthLatch := cnth now, cntBorrow := borrows (cntl now) dv }
      s.cntDifference false dv = (latched.drawn 1, cntl now - dv) := by
  obtain ⟨n, hn, hs⟩ := s.sampleCnt_eq
  refine ⟨n, hn, ?_⟩
  simp only [State.cntDifference, Bool.false_eq_true, if_false, State.subLow, hs]
  rfl

/-- The difference of a high half, from what the low half latched; the operands have nothing to do with it. -/
theorem State.cntDifference_high (s : State) (k : BitVec 4) (d sf : Option RegAddr) (dv : Word) :
    (s.issued k d sf).cntDifference true dv =
      (s.issued k d sf, s.cur.cnthLatch - dv - (if s.cur.cntBorrow then 1 else 0)) := by
  rw [State.cntDifference, if_pos rfl, Cog.subHigh, State.issued_cur, Cog.postModOperands_cnthLatch,
    Cog.postModOperands_cntBorrow]
  cases s.cur.cntBorrow <;> rfl

section Operations

variable {st : State} {k : BitVec 4} {d : RegAddr}

theorem execGetcnt_low :
    let o := st.cur.operands k (some d) none
    let s := st.issued k (some d) none
    Executes st k (some d) none → st.cur.cntPhase ≠ .getcnt →
    ∃ n : Nat, st.clocksToDue ≤ n ∧
      let now := st.hub.cnt + BitVec.ofNat 64 n
      let latched := (s.passClocks n).modCur fun c => { c with cnthLatch := cnth now }
      execGetcnt k d st = .next (((latched.drawn 1).complete { write := some (o.d, cntl now) }).endPhase false .getcnt) := by
  intro o s hx hp
  obtain ⟨n, hn, hs⟩ := s.sampleCnt_eq
  refine ⟨n, (st.issued_clocksToDue k (some d) none).symm.trans_le hn, ?_⟩
  have hphase : ¬ s.cur.cntPhase = .getcnt := by simpa [s] using hp
  rw [execGetcnt, issue_executes hx, if_neg hphase, hs]
  rfl

theorem execGetcnt_high :
    let o := st.cur.operands k (some d) none
    let s := st.issued k (some d) none
    Executes st k (some d) none → st.cur.cntPhase = .getcnt →
    execGetcnt k d st = .next (s.complete { write := some (o.d, st.cur.cnthLatch) }) := by
  intro o s hx hp
  have hphase : s.cur.cntPhase = .getcnt := by simpa [s] using hp
  have hlatch : s.cur.cnthLatch = st.cur.cnthLatch := by simp [s]
  rw [execGetcnt, issue_executes hx, if_pos hphase, hlatch, State.endPhase_high]

theorem execSubcnt_executes {z c : Bool} :
    let o := st.cur.operands k (some d) none
    let s := st.issued k (some d) none
    let high := decide (st.cur.cntPhase = .subcnt)
    let p := s.cntDifference high (s.cur.reg o.d)
    Executes st k (some d) none → Readable s o.d →
    ∃ g : Bool, execSubcnt z c k d st = .next (((p.1.drawn 1).complete
      { write := some (o.d, p.2), zf := flagIf z (p.2 == 0), cf := flagIf c g }).endPhase high .subcnt) := by
  intro o s high p hx hr
  refine ⟨Config.anyFlag p.1.draws, ?_⟩
  have hphase : decide (s.cur.cntPhase = .subcnt) = high := by simp [s, high]
  rw [execSubcnt, issue_executes hx, State.readReg_of_readable hr, andThen_next, hphase]
  rfl

theorem execCmpcnt_executes {z c : Bool} :
    let o := st.cur.operands k (some d) none
    let s := st.issued k (some d) none
    let high := decide (st.cur.cntPhase = .cmpcnt)
    let p := s.cntDifference high (s.cur.reg o.d)
    Executes st k (some d) none → Readable s o.d →
    execCmpcnt z c k d st = .next ((p.1.complete
      { zf := flagIf z (p.2 == 0), cf := flagIf c (cntPassed p.2) }).endPhase high .cmpcnt) := by
  intro o s high p hx hr
  have hphase : decide (s.cur.cntPhase = .cmpcnt) = high := by simp [s, high]
  rw [execCmpcnt, issue_executes hx, State.readReg_of_readable hr, andThen_next, hphase]
  rfl

end Operations

/-- Settles O54: the low half reads the counter and latches, the high half delivers the latch. -/
theorem getcntDeliversTheHalves : Obligations.GetcntDeliversTheHalves := fun st k d => by
  intro o s hx hram
  have hsorted : CellsSorted s.cur.ram := by simpa [s] using hram
  refine ⟨fun hlow => ?_, fun hhigh => ⟨_, execGetcnt_high hx hhigh, delivers_complete (.inr hsorted)⟩⟩
  obtain ⟨n, hn, he⟩ := execGetcnt_low hx hlow
  exact ⟨n, _, hn, he, delivers_drawn_complete (.inr (by simpa using hsorted))⟩

/-- Settles O55. -/
theorem subcntSubtracts : Obligations.SubcntSubtracts := fun st z c k d => by
  intro o s dv hx hr hram
  have hsorted : CellsSorted s.cur.ram := by simpa [s] using hram
  obtain ⟨g, he⟩ := execSubcnt_executes (z := z) (c := c) hx hr
  refine ⟨fun hlow => ?_, fun hhigh => ?_⟩
  · obtain ⟨n, hn, hd⟩ := s.cntDifference_low dv
    rw [decide_eq_false hlow, hd] at he
    refine ⟨n, g, _, (st.issued_clocksToDue k (some d) none).symm.trans_le hn, he, ?_⟩
    rw [State.drawn_drawn]
    exact delivers_drawn_complete (.inr (by simpa using hsorted))
  · rw [decide_eq_true hhigh, State.cntDifference_high, State.endPhase_high] at he
    exact ⟨g, _, he, delivers_drawn_complete (.inr hsorted)⟩

/-- Settles O56. -/
theorem cmpcntCompares : Obligations.CmpcntCompares := fun st z c k d => by
  intro o s dv hx hr
  have he := execCmpcnt_executes (z := z) (c := c) hx hr
  refine ⟨fun hlow => ?_, fun hhigh => ?_⟩
  · obtain ⟨n, hn, hd⟩ := s.cntDifference_low dv
    rw [decide_eq_false hlow, hd] at he
    exact ⟨n, _, (st.issued_clocksToDue k (some d) none).symm.trans_le hn, he, delivers_drawn_complete (.inl rfl)⟩
  · rw [decide_eq_true hhigh, State.cntDifference_high, State.endPhase_high] at he
    exact ⟨_, he, delivers_complete (.inl rfl)⟩

end Sys2Proof.Machine
end

section
/-! PROOFS. PASSCNT: one pass in every state, and the loop of a cog that runs alone, which reaches its target. -/

namespace Sys2Proof.Machine

/-! ## One pass (46_cnt_wait.md R258) -/

/-- The moment of the target, `n` clocks on: the one noted before, or the next at which CNTL equals the target. -/
theorem State.passMoment_after (s : State) (n m : Nat) (target : Word) :
    ((s.passClocks n).drawn m).passMoment target =
      s.cur.passAt.getD (s.hub.elapsed + n + (target - cntl (s.hub.cnt + BitVec.ofNat 64 n)).toNat) := by
  simp only [State.passMoment, State.clocksToTarget, State.drawn_cur, State.drawn_hub, State.passClocks_cur,
    State.passClocks_hub]

/-- The end of a pass that leaves the PASSCNT behind; it has read the counter after `n` clocks. -/
def State.passOn (s : State) (n : Nat) : State := ((s.passClocks n).drawn 1).complete {}

/-- The end of a pass after which the PASSCNT executes again; the moment of its target is noted. -/
def State.passAgain (s : State) (n moment : Nat) : State :=
  ((((s.passClocks n).modCur Cog.stepBack).drawn 1).complete {}).modCur fun c => { c with passAt := some moment }

theorem execPasscnt_executes {st : State} {k : BitVec 4} {d : RegAddr} :
    let o := st.cur.operands k (some d) none
    let s := st.issued k (some d) none
    let dv := s.cur.reg o.d
    Executes st k (some d) none → Readable s o.d →
    ∃ n : Nat, st.clocksToDue ≤ n ∧ (st.cur.passAt ≠ none → n < st.clocksToDue + 2 ^ 31) ∧
      let low := cntl (st.hub.cnt + BitVec.ofNat 64 n)
      let now := st.hub.elapsed + n
      let moment := st.cur.passAt.getD (now + (dv - low).toNat)
      execPasscnt k d st = .next (
        if cntPassed (low - dv) || decide (moment ≤ now) then s.passOn n else s.passAgain n moment) := by
  intro o s dv hx hr
  obtain ⟨n, hn, hlt, hs⟩ := s.samplePasscnt_eq
  have hat : s.cur.passAt = st.cur.passAt := by simp [s]
  rw [State.issued_clocksToDue] at hn hlt
  refine ⟨n, hn, hat ▸ hlt, ?_⟩
  intro low now moment
  have hmoment : moment = ((s.passClocks n).drawn 1).passMoment dv := by
    rw [State.passMoment_after, hat]
    rfl
  clear_value moment
  rw [execPasscnt, issue_executes hx, State.readReg_of_readable hr, andThen_next, hs, hmoment]
  rfl

/-- However a pass ends, one more instruction has gone by, and at most the program counter has moved. -/
theorem State.pass_delivers (s : State) (n moment : Nat) (goesOn : Bool) :
    ∃ u, (if goesOn then s.passOn n else s.passAgain n moment) =
        (if goesOn then u else u.modCur fun c => { c with passAt := some moment }) ∧
      Delivers (if goesOn then s.passClocks n else (s.passClocks n).modCur Cog.stepBack) u {} := by
  cases goesOn <;> exact ⟨_, rfl, delivers_drawn_complete (.inl rfl)⟩

/-! ## The loop of a cog that runs alone (46_cnt_wait.md R258, U29) -/

/-- A cog but for its program counter and its pipeline. -/
def Cog.still (c : Cog) : Cog :=
  { c with pc := 0, recent := ⟨none, none, none⟩, fill := .settled, remaps := [], cntPhase := .none, passAt := none, due := 0 }

theorem Cog.specialsKept_of_still {c c' : Cog} (h : c'.still = c.still) : SpecialsKept { c with pc := c'.pc } c' := by
  unfold SpecialsKept
  exact congrArg (fun x : Cog => { x with
    ram := c'.ram, pinRegs := c'.pinRegs, quad := c'.quad, lastStored := c'.lastStored, cf := c'.cf, zf := c'.zf, pc := c'.pc,
    recent := c'.recent, fill := c'.fill, remaps := c'.remaps, cntPhase := c'.cntPhase, passAt := c'.passAt, due := c'.due }) h

/-- `t` is `s` with the program counter of its cog at `pc`, after instructions that let clocks and the pipeline go by and change
nothing else. -/
structure State.PassesTo (s : State) (pc : RegAddr) (t : State) : Prop where
  pc     : t.cur.pc = pc
  cog    : t.cur.still = s.cur.still
  others : ∀ j, j ≠ s.turn → t.cogAt j = s.cogAt j
  mem    : t.hub.mem = s.hub.mem
  turn   : t.turn = s.turn
  reset  : t.resetPending = s.resetPending

namespace State.PassesTo

variable {s t u : State} {pc pc' : RegAddr}

theorem refl (s : State) : s.PassesTo s.cur.pc s := ⟨rfl, rfl, fun _ _ => rfl, rfl, rfl, rfl⟩

theorem trans (h : s.PassesTo pc t) (g : t.PassesTo pc' u) : s.PassesTo pc' u where
  pc := g.pc
  cog := g.cog.trans h.cog
  others j hj := (g.others j (h.turn ▸ hj)).trans (h.others j hj)
  mem := g.mem.trans h.mem
  turn := g.turn.trans h.turn
  reset := g.reset.trans h.reset

theorem modCur (h : s.PassesTo pc t) {f : Cog → Cog} (hpc : (f t.cur).pc = pc') (hf : (f t.cur).still = t.cur.still) :
    s.PassesTo pc' (t.modCur f) :=
  h.trans ⟨by rw [cur_modCur, hpc], by rw [cur_modCur, hf], fun _ hj => t.cogAt_modCur_ne hj f, rfl, rfl, rfl⟩

theorem advancePc (h : s.PassesTo pc t) : s.PassesTo (pc + 1) t.advancePc := h.modCur (congrArg (· + 1) h.pc) rfl

theorem passClocks (h : s.PassesTo pc t) (n : Nat) : s.PassesTo pc (t.passClocks n) :=
  h.trans ⟨by rw [passClocks_cur]; exact h.pc, by rw [passClocks_cur]; rfl, fun _ hj => t.passClocks_cogAt_ne hj n, rfl, rfl,
    rfl⟩

theorem drawn (h : s.PassesTo pc t) (n : Nat) : s.PassesTo pc (t.drawn n) := { h with }

theorem complete (h : s.PassesTo pc t) : s.PassesTo pc (t.complete {}) := h.modCur h.pc rfl

theorem reg (h : s.PassesTo pc t) (a : RegAddr) : t.cur.reg a = s.cur.reg a := congrArg (·.reg a) h.cog

theorem run (h : s.PassesTo pc t) : t.cur.run = s.cur.run := congrArg (·.run) h.cog

theorem operands (h : s.PassesTo pc t) (k : BitVec 4) (d sf : Option RegAddr) :
    t.cur.operands k d sf = s.cur.operands k d sf := congrArg (·.operands k d sf) h.cog

theorem executes (h : s.PassesTo pc t) {k : BitVec 4} {d sf : Option RegAddr} (hx : Executes s k d sf) : Executes t k d sf := by
  have hcf : t.cur.cf = s.cur.cf := congrArg (·.cf) h.cog
  have hzf : t.cur.zf = s.cur.zf := congrArg (·.zf) h.cog
  have hrefusal : t.cur.operandRefusal k d sf = s.cur.operandRefusal k d sf := congrArg (·.operandRefusal k d sf) h.cog
  rwa [Executes, hcf, hzf, hrefusal]

end State.PassesTo

/-- The cog whose turn it is runs alone, and executes a PASSCNT next. -/
structure State.AtPasscnt (s : State) (k : BitVec 4) (d : RegAddr) : Prop where
  reset    : s.resetPending = false
  run      : s.cur.run = .running
  alone    : ∀ j, j ≠ s.turn → (s.cogAt j).run = .idle
  fetch    : s.cur.fetchHazard s.cur.pc = none
  decodes  : decode (s.cur.reg s.cur.pc) = .ok (.passcnt k d)
  executes : Executes s k (some d) none
  readable : Readable s (s.cur.operands k (some d) none).d

/-- The value of the D operand. -/
def State.valueD (s : State) (k : BitVec 4) (d : RegAddr) : Word := s.cur.reg (s.cur.operands k (some d) none).d

theorem State.PassesTo.valueD {s t : State} {pc : RegAddr} (h : s.PassesTo pc t) (k : BitVec 4) (d : RegAddr) :
    t.valueD k d = s.valueD k d := by
  rw [State.valueD, h.operands, h.reg]
  rfl

theorem State.PassesTo.passOn {s t : State} {pc : RegAddr} (h : s.PassesTo pc t) (n : Nat) : s.PassesTo pc (t.passOn n) :=
  ((h.passClocks n).drawn 1).complete

theorem State.PassesTo.passAgain {s t : State} {pc : RegAddr} (h : s.PassesTo (pc + 1) t) (n moment : Nat) :
    s.PassesTo pc (t.passAgain n moment) := by
  have hback : (t.passClocks n).cur.stepBack.pc = pc := by
    rw [Cog.stepBack, (h.passClocks n).pc]
    exact BitVec.add_sub_cancel _ _
  have again := (((h.passClocks n).modCur hback rfl).drawn 1).complete
  exact again.modCur again.pc rfl

/-- The cog that is about to execute the PASSCNT again: an instruction has gone by that delivered nothing. -/
theorem State.passAgain_advancePc_cur (s : State) (n moment : Nat) :
    (s.advancePc.passAgain n moment).cur =
      { s.cur.complete {} with passAt := some moment, due := s.hub.elapsed + n + 1 } := by
  have hpc : s.cur.pc + 1 - 1 = s.cur.pc := BitVec.add_sub_cancel _ _
  rw [passAgain, cur_modCur, complete_cur, drawn_cur, cur_modCur, passClocks_cur, advancePc, cur_modCur, Cog.stepBack, hpc]
  rfl

/-- A PASSCNT that has a meaning does not move the pointer it may use (46_cnt_wait.md R258). -/
theorem Cog.postModOperands_of_decode_passcnt (c : Cog) {iw : Word} {k : BitVec 4} {d : RegAddr}
    (h : decode iw = .ok (.passcnt k d)) :
    c.postModOperands k (some d) none = c := by
  have hmoves : (Instr.passcnt k d).movesPasscnt = false := by
    have hdefect := (decode_eq_ok.mp h).2
    by_contra hm
    simp [Instr.defect, Instr.numberNamesInd, hm] at hdefect
  have hmode (f : RegAddr) (hf : namesInd f = true) : usedMode f k (some d) none = 0 := by
    by_cases hd : d = f
    · rw [usedMode_of_d k (congrArg some hd) (by simp)]
      simpa [Instr.movesPasscnt, hd, hf, modeD] using hmoves
    · exact usedMode_of_unused k (by simpa using hd) (by simp)
  rw [Cog.postModOperands, hmode 0x1F6 rfl, hmode 0x1F7 rfl, postMod_zero, postMod_zero]

namespace State.AtPasscnt

variable {s t : State} {k : BitVec 4} {d : RegAddr}

theorem advancePc_issued (h : s.AtPasscnt k d) : s.advancePc.issued k (some d) none = s.advancePc :=
  modCur_of_fixed (Cog.postModOperands_of_decode_passcnt _ h.decodes)

theorem passTurn (h : s.AtPasscnt k d) {pc : RegAddr} (hp : s.PassesTo pc t) : t.passTurn = t.drawn 1 := by
  refine passTurn_alone ?_ fun j hj => ?_
  · rw [hp.run, h.run]
    nofun
  · rw [hp.turn] at hj
    rw [hp.others j hj, h.alone j hj]

theorem step_eq (h : s.AtPasscnt k d) :
    ∃ n : Nat, s.clocksToDue ≤ n ∧ (s.cur.passAt ≠ none → n < s.clocksToDue + 2 ^ 31) ∧
      let low := cntl (s.hub.cnt + BitVec.ofNat 64 n)
      let now := s.hub.elapsed + n
      let moment := s.cur.passAt.getD (now + (s.valueD k d - low).toNat)
      step s = .next
        ((if cntPassed (low - s.valueD k d) || decide (moment ≤ now) then s.advancePc.passOn n
          else s.advancePc.passAgain n moment).drawn 1) := by
  have hadv := (PassesTo.refl s).advancePc
  have hcur : s.advancePc.cur = { s.cur with pc := s.cur.pc + 1 } := s.cur_modCur _
  have hread : Readable s.advancePc (s.advancePc.cur.operands k (some d) none).d := by
    rw [Readable, hcur]
    exact h.readable
  obtain ⟨n, hn, hlt, he⟩ := execPasscnt_executes (hadv.executes h.executes) (h.advancePc_issued.symm ▸ hread)
  have hdue : s.advancePc.clocksToDue = s.clocksToDue := by rw [clocksToDue, hcur]; rfl
  have hat : s.advancePc.cur.passAt = s.cur.passAt := by rw [hcur]
  have hvalue : s.advancePc.cur.reg (s.advancePc.cur.operands k (some d) none).d = s.valueD k d := hadv.valueD k d
  rw [h.advancePc_issued, hvalue, hat] at he
  rw [hdue] at hn hlt
  rw [hat] at hlt
  refine ⟨n, hn, hlt, ?_⟩
  intro low now moment
  have hend : ∃ pc, s.PassesTo pc (if cntPassed (low - s.valueD k d) || decide (moment ≤ now) then s.advancePc.passOn n
      else s.advancePc.passAgain n moment) := by
    split
    · exact ⟨_, hadv.passOn n⟩
    · exact ⟨_, hadv.passAgain n moment⟩
  obtain ⟨pc, hp⟩ := hend
  rw [step_running h.reset h.run, Cog.fetch_of_hazard_none h.fetch, andThen_next, State.runLong_of_decode h.decodes,
    show exec (.passcnt k d) s.advancePc = _ from he, andThen_next]
  exact congrArg Host.Outcome.next ((if_neg (Bool.eq_false_iff.mp (hp.reset.trans h.reset))).trans (h.passTurn hp))

/-- A pass that does not leave the PASSCNT behind leads to it again. -/
theorem again (h : s.AtPasscnt k d) (n moment : Nat) : (s.advancePc.passAgain n moment).AtPasscnt k d := by
  have hp : s.PassesTo s.cur.pc (s.advancePc.passAgain n moment) := (PassesTo.refl s).advancePc.passAgain n moment
  have hcur := s.passAgain_advancePc_cur n moment
  generalize s.advancePc.passAgain n moment = t at hp hcur ⊢
  have hfill : t.cur.fill = s.cur.fill.after 1 := by rw [hcur]; rfl
  have hremaps : t.cur.remaps = remapsAfter s.cur.remaps := by rw [hcur]; rfl
  have hrecent : t.cur.recent = s.cur.recent.after none := by rw [hcur]; rfl
  have hqbase : t.cur.qbase = s.cur.qbase := congrArg (·.qbase) hp.cog
  exact {
    reset := hp.reset.trans h.reset
    run := hp.run.trans h.run
    alone := fun j hj => by
      rw [hp.turn] at hj
      rw [hp.others j hj, h.alone j hj]
    fetch := hp.pc ▸ Cog.fetchHazard_after h.fetch hfill hremaps hqbase hrecent
    decodes := by rw [hp.pc, hp.reg, h.decodes]
    executes := hp.executes h.executes
    readable := by
      rw [hp.operands]
      exact Cog.readHazard_after h.readable hfill hremaps hqbase }

theorem drawn (h : s.AtPasscnt k d) {n : Nat} : (s.drawn n).AtPasscnt k d := { h with }

end State.AtPasscnt

/-! ## How far the target is (46_cnt_wait.md R258) -/

theorem cntPassed_iff_toNat_lt (x : Word) : cntPassed x = true ↔ x.toNat < 2 ^ 31 := by
  rw [cntPassed, ← BitVec.msb_eq_getLsbD_last, BitVec.msb_eq_decide]
  simp

/-- A target that has not been passed lies at most half the counter's range ahead. -/
theorem toTarget_le {low target : Word} (h : ¬ cntPassed (low - target) = true) : (target - low).toNat ≤ 2 ^ 31 := by
  rw [cntPassed_iff_toNat_lt] at h
  bv_omega

/-- A target that lies no clocks ahead has been passed. -/
theorem cntPassed_of_toTarget {low target : Word} (h : (target - low).toNat = 0) : cntPassed (low - target) = true := by
  rw [cntPassed_iff_toNat_lt]
  bv_omega

/-- Within half the counter's range from the moment of a target on it has been passed. -/
theorem cntPassed_from_moment {c : BitVec 64} {target : Word} {m n : Nat} (h : cntl c + BitVec.ofNat 32 m = target)
    (hle : m ≤ n) (hlt : n < m + 2 ^ 31) : cntPassed (cntl (c + BitVec.ofNat 64 n) - target) = true := by
  obtain ⟨j, rfl⟩ := Nat.exists_eq_add_of_le hle
  have hj : cntl (c + BitVec.ofNat 64 (m + j)) - target = BitVec.ofNat 32 j := by
    rw [cntl_add, ← h, BitVec.ofNat_add, ← BitVec.add_assoc, BitVec.add_comm, BitVec.add_sub_cancel]
  rw [hj, cntPassed_iff_toNat_lt, BitVec.toNat_ofNat]
  omega

/-- `n` clocks bring the target `n` clocks nearer. -/
theorem cntl_nearer {c : BitVec 64} {target : Word} {m n : Nat} (h : cntl c + BitVec.ofNat 32 m = target) (hle : n ≤ m) :
    cntl (c + BitVec.ofNat 64 n) + BitVec.ofNat 32 (m - n) = target := by
  rw [cntl_add, BitVec.add_assoc, ← BitVec.ofNat_add, Nat.add_sub_cancel' hle, h]

/-! ## The loop reaches its target -/

/-- `t` is `s` after passes of a PASSCNT that its cog executes alone, and the target lies `m` clocks ahead. -/
structure State.LoopsTo (s : State) (k : BitVec 4) (d : RegAddr) (m : Nat) (t : State) : Prop where
  passes : s.PassesTo s.cur.pc t
  ready  : t.AtPasscnt k d
  passAt : t.cur.passAt = some (t.hub.elapsed + m)
  due    : t.cur.due = t.hub.elapsed + 1
  target : cntl t.hub.cnt + BitVec.ofNat 32 m = s.valueD k d
  ahead  : 0 < m

/-- `t` is `s` after the passes of a PASSCNT that its cog executes alone: CNTL has passed the target. -/
structure State.LoopedTo (s : State) (k : BitVec 4) (d : RegAddr) (t : State) : Prop where
  passes : s.PassesTo (s.cur.pc + 1) t
  passAt : t.cur.passAt = none
  passed : cntPassed (cntl t.hub.cnt - s.valueD k d) = true

section Loop

variable {s t : State} {k : BitVec 4} {d : RegAddr}

theorem State.loopedTo_passOn (h : s.PassesTo s.cur.pc t) {n : Nat}
    (hpassed : cntPassed (cntl (t.hub.cnt + BitVec.ofNat 64 n) - s.valueD k d) = true) :
    s.LoopedTo k d ((t.advancePc.passOn n).drawn 1) where
  passes := (h.advancePc.passOn n).drawn 1
  passAt := by simp [passOn]
  passed := hpassed

theorem State.loopsTo_passAgain (h : s.PassesTo s.cur.pc t) (ht : t.AtPasscnt k d) {n m : Nat}
    (htarget : cntl (t.hub.cnt + BitVec.ofNat 64 n) + BitVec.ofNat 32 m = s.valueD k d) (hm : 0 < m) :
    s.LoopsTo k d m ((t.advancePc.passAgain n (t.hub.elapsed + n + m)).drawn 1) where
  passes := (h.advancePc.passAgain n _).drawn 1
  ready := (ht.again n _).drawn
  passAt := by rw [drawn_cur, passAgain_advancePc_cur]; rfl
  due := by rw [drawn_cur, passAgain_advancePc_cur]; rfl
  target := htarget
  ahead := hm

/-- The first pass of a PASSCNT completes it, or notes the moment of its target. -/
theorem State.AtPasscnt.firstPass (h : s.AtPasscnt k d) (hat : s.cur.passAt = none) :
    ∃ t, step s = .next t ∧ (s.LoopedTo k d t ∨ ∃ m ≤ 2 ^ 31, s.LoopsTo k d m t) := by
  obtain ⟨n, -, -, hs⟩ := h.step_eq
  refine ⟨_, hs, ?_⟩
  rw [hat, Option.getD_none]
  split
  · next hon =>
    rw [Bool.or_eq_true, decide_eq_true_eq] at hon
    exact .inl (loopedTo_passOn (.refl s) (hon.elim id fun hle => cntPassed_of_toTarget (by omega)))
  · next hon =>
    rw [Bool.or_eq_true, decide_eq_true_eq, not_or] at hon
    obtain ⟨hpassed, hmoment⟩ := hon
    refine .inr ⟨_, toTarget_le hpassed, loopsTo_passAgain (.refl s) h ?_ (by omega)⟩
    rw [BitVec.ofNat_toNat, BitVec.setWidth_eq, BitVec.add_comm, BitVec.sub_add_cancel]

/-- A further pass completes the PASSCNT, or finds its target nearer. -/
theorem State.LoopsTo.pass {m : Nat} (h : s.LoopsTo k d m t) :
    ∃ u, step t = .next u ∧ (s.LoopedTo k d u ∨ ∃ m' < m, s.LoopsTo k d m' u) := by
  obtain ⟨n, hn, hlt, hs⟩ := h.ready.step_eq
  have hdue : t.clocksToDue = 1 := by rw [clocksToDue, h.due]; omega
  rw [hdue] at hn hlt
  replace hlt := hlt (by simp [h.passAt])
  refine ⟨_, hs, ?_⟩
  rw [h.passAt, Option.getD_some, h.passes.valueD]
  split
  · next hon =>
    rw [Bool.or_eq_true, decide_eq_true_eq] at hon
    refine .inl (loopedTo_passOn h.passes (hon.elim id fun hle => cntPassed_from_moment h.target (by omega) ?_))
    have hahead := h.ahead
    omega
  · next hon =>
    rw [Bool.or_eq_true, decide_eq_true_eq, not_or] at hon
    obtain ⟨-, hmoment⟩ := hon
    have hnext : t.hub.elapsed + m = t.hub.elapsed + n + (m - n) := by omega
    rw [hnext]
    exact .inr ⟨m - n, by omega, loopsTo_passAgain h.passes h.ready (cntl_nearer h.target (by omega)) (by omega)⟩

theorem State.LoopsTo.completes (m : Nat) : ∀ {t : State}, s.LoopsTo k d m t →
    ∃ n ≤ m, ∃ u, steps n t = .next u ∧ s.LoopedTo k d u := by
  induction m using Nat.strong_induction_on with
  | _ m ih =>
    intro t h
    obtain ⟨u, hu, hdone | ⟨m', hm, hloop⟩⟩ := h.pass
    · exact ⟨1, h.ahead, u, by rw [steps, hu]; rfl, hdone⟩
    · obtain ⟨n, hn, v, hv, hdone⟩ := ih m' hm hloop
      exact ⟨n + 1, by omega, v, by rw [steps, hu, andThen_next, hv], hdone⟩

theorem State.AtPasscnt.completes (h : s.AtPasscnt k d) (hat : s.cur.passAt = none) :
    ∃ n ≤ 2 ^ 31 + 1, ∃ t, steps n s = .next t ∧ s.LoopedTo k d t := by
  obtain ⟨u, hu, hdone | ⟨m, hm, hloop⟩⟩ := h.firstPass hat
  · exact ⟨1, by omega, u, by rw [steps, hu]; rfl, hdone⟩
  · obtain ⟨n, hn, v, hv, hdone⟩ := hloop.completes m
    exact ⟨n + 1, by omega, v, by rw [steps, hu, andThen_next, hv], hdone⟩

end Loop

/-- Settles O57: what one pass answers, and an induction on how far the target lies ahead. -/
theorem passcntLoopsUntilPassed : Obligations.PasscntLoopsUntilPassed := by
  refine ⟨fun st k d => ?_, fun st k d => ?_⟩
  · intro o s dv hx hr
    obtain ⟨n, hn, hlt, he⟩ := execPasscnt_executes hx hr
    obtain ⟨u, hu, hdelivers⟩ := State.pass_delivers s n _ _
    exact ⟨n, u, hn, hlt, he.trans (congrArg Host.Outcome.next hu), hdelivers⟩
  · intro dv hreset hrun halone hfetch hdecode hx hr hat
    have hpasscnt : st.AtPasscnt k d := ⟨hreset, hrun, halone, hfetch, hdecode, hx, hr⟩
    obtain ⟨n, hn, t, hsteps, hdone⟩ := hpasscnt.completes hat
    have hp := hdone.passes
    exact ⟨n, t, hn, hsteps, hp.turn, hp.pc, hdone.passAt, Bool.eq_false_of_not_eq_true' hdone.passed, hp.reg,
      congrArg (·.cf) hp.cog, congrArg (·.zf) hp.cog, hp.pc ▸ Cog.specialsKept_of_still hp.cog, hp.mem, hp.others⟩

end Sys2Proof.Machine
end

section
/-! PROOFS. The waits: WAITCNT, and WAITPEQ and WAITPNE, which the counter times out. -/

namespace Sys2Proof.Machine

/-! ## How a wait begins and ends (46_cnt_wait.md R260) -/

/-- A read of the counter after `m` free values have been used. -/
theorem State.drawn_sampleCnt (s : State) (m : Nat) :
    (s.drawn m).sampleCnt = (s.passClocks (s.clocksToDue + Config.clockDraw (s.draws + m))).drawn (m + 1) := rfl

/-- A wait for CNTL that begins with a read of the counter ends within 2^32 clocks of that read with the target passed, and
exactly at the target if it was ahead. -/
theorem State.drawn_sampleCnt_reachTarget (s : State) (m : Nat) (target : Word) :
    let begins := s.clocksToDue + Config.clockDraw (s.draws + m)
    let cntlAfter := fun n : Nat => cntl (s.hub.cnt + BitVec.ofNat 64 n)
    ∃ ends j : Nat, (s.drawn m).sampleCnt.reachTarget target = (s.passClocks ends).drawn j ∧
      begins ≤ ends ∧ ends ≤ begins + 2 ^ 32 ∧ (cntlAfter ends - target).getLsbD 31 = false ∧
      ((cntlAfter begins - target).getLsbD 31 = true → cntlAfter ends = target) := by
  intro begins cntlAfter
  obtain ⟨n, j, heq, hn, hpassed, hexact⟩ := (s.drawn m).sampleCnt.reachTarget_eq target
  have hcnt : (s.drawn m).sampleCnt.hub.cnt + BitVec.ofNat 64 n = s.hub.cnt + BitVec.ofNat 64 (begins + n) := by
    rw [BitVec.ofNat_add, ← BitVec.add_assoc]
    rfl
  rw [hcnt] at hpassed hexact
  refine ⟨begins + n, m + 1 + j, ?_, Nat.le_add_right _ _, Nat.add_le_add_left hn _, Bool.eq_false_of_not_eq_true' hpassed,
    fun hahead => hexact (congrArg not hahead)⟩
  rw [heq, ← State.drawn_drawn, ← State.passClocks_passClocks]
  rfl

/-! ## What each wait answers when it executes -/

section Operations

variable {st : State} {k : BitVec 4} {d : RegAddr} {src : Src}

theorem execWaitcnt_executes {wide r : Bool} :
    let o := st.cur.operands k (some d) (srcField src)
    let s := st.issued k (some d) (srcField src)
    let dv := s.cur.reg o.d
    let waited := if wide then s.sampleCnt else s.sampleCnt.reachTarget dv
    Executes st k (some d) (srcField src) → Readable s o.d → SrcReadable s src o.s →
    ∃ g : Bool, execWaitcnt wide r k d src st = .next ((waited.drawn 1).complete
      { write := if r then some (o.d, dv + s.srcValue src o.s) else none, cf := flagIf wide g }) := by
  intro o s dv waited hx hd hs
  refine ⟨Config.anyFlag waited.draws, ?_⟩
  rw [execWaitcnt, issue_executes hx, State.readReg_of_readable hd, andThen_next, State.readSrc_of_readable hs, andThen_next]

/-- A pin wait that does not time out has found the pins as the instruction asks for them. -/
theorem waitPins_executes {met : Word → Word → Word → Bool} :
    let o := st.cur.operands k (some d) (srcField src)
    let s := st.issued k (some d) (srcField src)
    let began := (s.drawn 2).sampleCnt
    Executes st k (some d) (srcField src) → Readable s o.d → SrcReadable s src o.s →
    ∃ timeout g : Bool,
      (timeout = false → met (Config.pinsIn st.draws) (s.srcValue src o.s) (s.cur.reg o.d) = true) ∧
      waitPins met k d src st = .next (((if timeout then began.reachTarget st.cur.lastStored else began).drawn 1).complete
        { cf := some timeout, zf := some g }) := by
  intro o s began hx hd hs
  have hstored : s.cur.lastStored = st.cur.lastStored := by simp [s]
  rw [waitPins, issue_executes hx, State.readReg_of_readable hd, andThen_next, State.readSrc_of_readable hs, andThen_next,
    hstored]
  cases hend : met (Config.pinsIn s.draws) (s.srcValue src o.s) (s.cur.reg o.d) && Config.anyFlag (s.draws + 1)
  · exact ⟨true, _, nofun, rfl⟩
  · exact ⟨false, _, fun _ => (Bool.and_eq_true_iff.mp hend).1, rfl⟩

end Operations

/-! ## The instructions -/

/-- Settles O58: the 64-bit wait ends with its first read of the counter, for all that is promised of it. -/
theorem waitcntEndsAtItsTarget : Obligations.WaitcntEndsAtItsTarget := fun st wide r k d src => by
  intro o s dv begins cntlAfter hx hd hs hram
  have hdue : s.clocksToDue = st.clocksToDue := st.issued_clocksToDue k (some d) (srcField src)
  have hleast : st.cur.due - st.hub.elapsed ≤ begins := Nat.le_add_right _ _
  have hsorted (n : Nat) : CellsSorted (s.passClocks n).cur.ram := by simpa [s] using hram
  obtain ⟨g, he⟩ := execWaitcnt_executes (wide := wide) (r := r) hx hd hs
  cases wide with
  | true =>
    refine ⟨begins, g, hleast, le_rfl, nofun, _, he, ?_⟩
    rw [if_pos rfl, State.sampleCnt, hdue, State.drawn_drawn]
    exact delivers_drawn_complete (.inr (hsorted begins))
  | false =>
    obtain ⟨ends, j, hwaited, hbegin, hend, hpassed, hexact⟩ := s.drawn_sampleCnt_reachTarget 0 dv
    rw [hdue] at hbegin hend hexact
    refine ⟨ends, g, hleast, hbegin, fun _ => ⟨hend, hpassed, hexact⟩, _, he, ?_⟩
    rw [if_neg Bool.false_ne_true, show s.sampleCnt.reachTarget dv = _ from hwaited, State.drawn_drawn]
    exact delivers_drawn_complete (.inr (hsorted ends))

/-- Settles O59: both are a `waitPins`, which waits no longer than its first read of the counter, or until the time-out. -/
theorem pinWaitsEndOrTimeOut : Obligations.PinWaitsEndOrTimeOut := fun st k d src x hmem => by
  have hwait : ∃ met : Word → Word → Word → Bool, exec x.2 st = waitPins met k d src st ∧
      ∀ pins mask value, met pins mask value = true → (pins &&& mask == value) = x.1 := by
    fin_cases hmem
    · exact ⟨pinsEqual, rfl, fun _ _ _ h => h⟩
    · exact ⟨pinsDiffer, rfl, fun _ _ _ h => by simpa [pinsDiffer] using h⟩
  obtain ⟨met, hexec, hmet⟩ := hwait
  intro o s begins cntlAfter hx hd hs
  have hdue : s.clocksToDue = st.clocksToDue := st.issued_clocksToDue k (some d) (srcField src)
  have hleast : st.cur.due - st.hub.elapsed ≤ begins := Nat.le_add_right _ _
  obtain ⟨timeout, g, hpins, he⟩ := waitPins_executes (met := met) hx hd hs
  replace he := hexec.trans he
  cases timeout with
  | false =>
    refine ⟨begins, false, g, hleast, le_rfl, fun _ => hmet _ _ _ (hpins rfl), nofun, _, he, ?_⟩
    rw [if_neg Bool.false_ne_true, State.drawn_sampleCnt, State.drawn_drawn, hdue]
    exact delivers_drawn_complete (.inl rfl)
  | true =>
    obtain ⟨ends, j, hwaited, hbegin, hend, hpassed, hexact⟩ := s.drawn_sampleCnt_reachTarget 2 st.cur.lastStored
    rw [hdue] at hbegin hend hexact
    refine ⟨ends, true, g, hleast, hbegin, nofun, fun _ => ⟨hend, hpassed, hexact⟩, _, he, ?_⟩
    rw [if_pos rfl, hwaited, State.drawn_drawn]
    exact delivers_drawn_complete (.inl rfl)

end Sys2Proof.Machine
end

section
/-! PROOFS. MOV and ADD. -/

namespace Sys2Proof.Machine

/-! ## What each answers when it executes (47_branches_misc.md R285, R286) -/

section Operations

variable {st : State} {k : BitVec 4} {d : RegAddr} {src : Src}

theorem execMov_executes :
    let o := st.cur.operands k (some d) (srcField src)
    let s := st.issued k (some d) (srcField src)
    Executes st k (some d) (srcField src) → SrcReadable s src o.s →
    execMov k d src st = .next (s.complete { write := some (o.d, s.srcValue src o.s) }) := by
  intro o s hx hs
  rw [execMov, issue_executes hx, State.readSrc_of_readable hs, andThen_next]

theorem execAdd_executes :
    let o := st.cur.operands k (some d) (srcField src)
    let s := st.issued k (some d) (srcField src)
    Executes st k (some d) (srcField src) → Readable s o.d → SrcReadable s src o.s →
    execAdd k d src st = .next (s.complete { write := some (o.d, s.cur.reg o.d + s.srcValue src o.s) }) := by
  intro o s hx hd hs
  rw [execAdd, issue_executes hx, State.readReg_of_readable hd, andThen_next, State.readSrc_of_readable hs, andThen_next]

end Operations

/-- Settles O60: MOV does not read D, so only ADD asks that D be readable. -/
theorem movAndAddDeliver : Obligations.MovAndAddDeliver := fun st k d src => by
  intro o s hx hs hram
  have hsorted : CellsSorted s.cur.ram := by simpa [s] using hram
  exact ⟨⟨_, execMov_executes hx hs, delivers_complete (.inr hsorted)⟩,
    fun hd => ⟨_, execAdd_executes hx hd hs, delivers_complete (.inr hsorted)⟩⟩

end Sys2Proof.Machine
end

section
/-! PROOFS. The machine stops when every cog is idle. -/

namespace Sys2Proof.Machine

/-- An idle cog's turn does nothing, unless no cog is left that can take the next one. -/
theorem step_idle {s : State} (hp : s.resetPending = false) (hi : s.cur.run = .idle) :
    step s = if s.activeCogs = [] then .fault .everyCogIdle else .next s.passTurn := by
  rw [step, hp, if_neg Bool.false_ne_true, State.cogStep, hi]
  simp only [List.isEmpty_iff]
  split
  · rw [andThen_fault]
  · rw [andThen_next, hp, if_neg Bool.false_ne_true]

theorem State.activeCogs_eq_nil_iff {s : State} : s.activeCogs = [] ↔ ∀ k, (s.cogAt k).run = .idle := by
  simp [State.activeCogs, List.filter_eq_nil_iff, mem_allCogs]

/-- Settles O17: the cog whose turn it is is idle, and no other can step. -/
theorem everyCogIdleStops : Obligations.EveryCogIdleStops := fun s hp hidle => by
  have hactive : s.activeCogs = [] := State.activeCogs_eq_nil_iff.mpr hidle
  rw [step_idle hp (hidle s.turn), if_pos hactive]

end Sys2Proof.Machine
end

section
/-! PROOFS. The delay windows: how long they last, and the reads via D and S that they refuse. -/

namespace Sys2Proof.Machine

/-- Settles O38: a fill window shrinks by clocks and then by one instruction, the others by one instruction each. -/
theorem windowsCloseInTime : Obligations.WindowsCloseInTime := by
  refine ⟨by decide, by decide, by decide, rfl, rfl, fun b => ?_, fun r w x y z => ⟨rfl, rfl⟩⟩
  exact ⟨rfl, rfl, rfl⟩

/-! ## What stands against a read (70_reset_and_hazards.md R338, R340) -/

theorem Cog.readHazard_filling {c : Cog} {a : RegAddr} {n : Nat} (hf : c.fill = .filling n) (ho : overlay c.qbase a ≠ none) :
    c.readHazard a = some .readQuadFilling := by
  obtain ⟨k, hk⟩ := Option.ne_none_iff_exists'.mp ho
  simp only [Cog.readHazard, hf, hk]

theorem Cog.readHazard_remapped {c : Cog} {a : RegAddr}
    (hf : c.fill = .settled ∨ c.fill = .readable ∨ overlay c.qbase a = none)
    (hm : ∃ m ∈ c.remaps, 2 ≤ m.left ∧ overlay m.base a ≠ none) : c.readHazard a = some .readQuadRemapped := by
  have hany : (c.remaps.any fun m => (overlay m.base a).isSome && decide (2 ≤ m.left)) = true := by
    obtain ⟨m, hmem, hleft, ho⟩ := hm
    exact List.any_eq_true.mpr ⟨m, hmem, by simp [hleft, Option.isSome_iff_ne_none.mpr ho]⟩
  unfold Cog.readHazard
  split
  · next hfill ho => simp [hfill, ho] at hf
  · rw [if_pos hany]

/-- Resolving the operands opens and closes no window. -/
theorem State.issued_readHazard (s : State) (k : BitVec 4) (d sf : Option RegAddr) (a : RegAddr) :
    (s.issued k d sf).cur.readHazard a = s.cur.readHazard a := by
  rw [State.issued_cur]
  rfl

/-! ## An instruction whose first or second read is refused -/

section Issue

variable {α : Type} {st : State} {k : BitVec 4} {d sf : Option RegAddr} {e : Refusal}

theorem issued_readReg_refused {a : RegAddr} (h : st.cur.readHazard a = some e) :
    (st.issued k d sf).readReg a = .refused e := by
  rw [State.readReg, Cog.readReg, State.issued_readHazard, h]

/-- The address of a hub access by register is read from it. -/
theorem issued_hubEA_refused {a g : RegAddr} {w : Width} (h : st.cur.readHazard a = some e) :
    (st.issued k d sf).hubEA (.reg g) w a = .refused e := by
  rw [State.hubEA, issued_readReg_refused h, andThen_refused]

theorem refused_first {res : Result State} {r : Operands → State → Result α} {f : Operands → State → α → Result State}
    (hres : res = issue k d sf st fun o s => andThen (r o s) (f o s)) (hx : Executes st k d sf)
    (hr : r (st.cur.operands k d sf) (st.issued k d sf) = .refused e) : res = .refused e := by
  rw [hres, issue_executes hx, hr, andThen_refused]

/-- D is read first, and can be read. -/
theorem refused_second {res : Result State} {r : Operands → State → Result α}
    {f : Operands → State → Word → α → Result State}
    (hres : res = issue k d sf st fun o s => andThen (s.readReg o.d) fun v => andThen (r o s) (f o s v))
    (hx : Executes st k d sf) (hd : Readable st (st.cur.operands k d sf).d)
    (hr : r (st.cur.operands k d sf) (st.issued k d sf) = .refused e) : res = .refused e := by
  have hread := State.readReg_of_readable ((st.issued_readHazard k d sf _).trans hd)
  rw [hres, issue_executes hx, hread, andThen_next, hr, andThen_refused]

end Issue

/-- Settles O37: of each listed form, by the place of the read among its operands. A hub address by register is read by
`State.hubEA`, any other operand by `State.readReg`. -/
theorem readsInsideAWindowAreRefused : Obligations.ReadsInsideAWindowAreRefused := by
  intro st k d sf p z c r src refusedAt
  have refusedAt_of {a : RegAddr} {i : Instr} (h : ∀ e, st.cur.readHazard a = some e → exec i st = .refused e) :
      refusedAt a i :=
    ⟨fun _ hf ho => h _ (Cog.readHazard_filling hf ho), fun hf hm => h _ (Cog.readHazard_remapped hf hm)⟩
  refine ⟨fun x hmem hx => refusedAt_of fun e he => ?_, fun x hmem => ?_⟩
  · have register := issued_readReg_refused (k := k) (d := some d) (sf := x.1) he
    have address := issued_hubEA_refused (k := k) (d := some d) (sf := x.1) (g := d) (w := .quad) he
    fin_cases hmem
    iterate 6 exact refused_first (hubWrite.eq_def ..) hx register
    · exact refused_first (quadWrite.eq_def ..) hx address
    · exact refused_first (quadRead.eq_def ..) hx address
    · exact refused_first (quadReadCached.eq_def ..) hx address
    iterate 2 exact refused_first (ptrModify.eq_def _ (fun _ v => v) ..) hx register
    iterate 2 exact refused_first (ptrModify.eq_def _ (· + ·) ..) hx register
    iterate 2 exact refused_first (ptrModify.eq_def _ (· - ·) ..) hx register
    iterate 2 exact refused_first (quadBase.eq_def ..) hx register
    · exact refused_first (execCoginit.eq_def ..) hx register
    · exact refused_first (execClkset.eq_def ..) hx register
    · exact refused_first (execCogstop.eq_def ..) hx register
    · exact refused_first (execLockret.eq_def ..) hx register
    iterate 2 exact refused_first (lockWrite.eq_def ..) hx register
    · exact refused_first (execSubcnt.eq_def ..) hx register
    · exact refused_first (execCmpcnt.eq_def ..) hx register
    · exact refused_first (execPasscnt.eq_def ..) hx register
    · exact refused_first (execWaitcnt.eq_def ..) hx register
    iterate 2 exact refused_first (waitPins.eq_def ..) hx register
    · exact refused_first (execAdd.eq_def ..) hx register
  · intro o hx hd
    refine refusedAt_of fun e he => ?_
    have address (w : Width) := issued_hubEA_refused (k := k) (d := some d) (sf := some sf) (g := sf) (w := w) he
    have register := issued_readReg_refused (k := k) (d := some d) (sf := some sf) he
    fin_cases hmem
    iterate 3 exact refused_second (hubWrite.eq_def ..) hx (hd rfl) (address _)
    iterate 3 exact refused_first (hubRead.eq_def ..) hx (address _)
    iterate 3 exact refused_first (hubReadCached.eq_def ..) hx (address _)
    · exact refused_second (execCoginit.eq_def ..) hx (hd rfl) register
    · exact refused_second (execWaitcnt.eq_def ..) hx (hd rfl) register
    iterate 2 exact refused_second (waitPins.eq_def ..) hx (hd rfl) register
    · exact refused_second (execAdd.eq_def ..) hx (hd rfl) register
    · exact refused_first (execMov.eq_def ..) hx register

end Sys2Proof.Machine
end

section
/-! PROOFS. The boot process: which loads it starts, and what else it leaves alone. -/

namespace Sys2Proof.Machine

/-! ## The loads that are started one after the other (70_reset_and_hazards.md R331) -/

theorem State.startAll_hub (l : List BootEntry) : ∀ s : State, (s.startAll l).hub = s.hub := by
  induction l with
  | nil => exact fun _ => rfl
  | cons e rest ih => exact fun s => ih _

theorem State.startAll_resetPending (l : List BootEntry) : ∀ s : State, (s.startAll l).resetPending = s.resetPending := by
  induction l with
  | nil => exact fun _ => rfl
  | cons e rest ih => exact fun s => ih _

theorem State.startCog_cogAt_self (s : State) (k : CogId) (addr par : HubAddr) (start : Nat) :
    (s.startCog k addr par start).cogAt k = (s.cogAt k).beginLoad addr par start := s.cogAt_modCog_self k _

theorem State.startCog_cogAt_ne (s : State) {j k : CogId} (h : k ≠ j) (addr par : HubAddr) (start : Nat) :
    (s.startCog j addr par start).cogAt k = s.cogAt k := s.cogAt_modCog_ne h _

/-- A load that begins takes the place of one that has begun. -/
theorem State.startCog_beginLoad (s : State) (j k : CogId) (addr par addr' par' : HubAddr) (start start' : Nat) :
    ((s.startCog j addr' par' start').cogAt k).beginLoad addr par start = (s.cogAt k).beginLoad addr par start := by
  by_cases h : k = j
  · subst h; rw [State.startCog_cogAt_self]; rfl
  · rw [State.startCog_cogAt_ne s h]

theorem State.startAll_cogAt_of_unnamed {k : CogId} (l : List BootEntry) :
    ∀ s : State, (∀ e ∈ l, e.cog ≠ k) → (s.startAll l).cogAt k = s.cogAt k := by
  induction l with
  | nil => exact fun _ _ => rfl
  | cons e rest ih =>
    intro s h
    obtain ⟨he, hrest⟩ := List.forall_mem_cons.mp h
    exact (ih _ hrest).trans (s.startCog_cogAt_ne he.symm ..)

/-- Of several entries for one cog the last one counts. -/
theorem State.startAll_cogAt_of_named {k : CogId} (l : List BootEntry) : ∀ s : State, (∃ e ∈ l, e.cog = k) →
    ∃ e ∈ l, e.cog = k ∧ (s.startAll l).cogAt k = (s.cogAt k).beginLoad (programAddr e.addr) e.par s.hub.elapsed := by
  induction l with
  | nil => rintro s ⟨e, he, -⟩; cases he
  | cons e rest ih =>
    intro s h
    by_cases hrest : ∃ e' ∈ rest, e'.cog = k
    · obtain ⟨e', hmem, hk, hcog⟩ := ih (s.startCog e.cog (programAddr e.addr) e.par s.hub.elapsed) hrest
      exact ⟨e', List.mem_cons_of_mem _ hmem, hk, hcog.trans (s.startCog_beginLoad ..)⟩
    · have hk : e.cog = k := by
        obtain ⟨e', hmem, hk⟩ := h
        rcases List.mem_cons.mp hmem with rfl | hmem
        · exact hk
        · exact absurd ⟨e', hmem, hk⟩ hrest
      subst hk
      refine ⟨e, List.mem_cons_self, rfl, (State.startAll_cogAt_of_unnamed rest _ ?_).trans (s.startCog_cogAt_self ..)⟩
      exact fun e' hmem hk => hrest ⟨e', hmem, hk⟩

/-! ## The boot step -/

theorem State.boot_hub (s : State) : s.boot.hub = s.hub := State.startAll_hub ..

theorem State.boot_resetPending (s : State) : s.boot.resetPending = false := State.startAll_resetPending ..

theorem State.passTurn_resetPending (s : State) : s.passTurn.resetPending = s.resetPending := by rw [State.passTurn_eq]

theorem step_boot {s : State} (h : s.resetPending = true) : step s = .next s.boot.passTurn := by rw [step, if_pos h]

/-- Settles O18. -/
theorem bootStartsItsCogs : Obligations.BootStartsItsCogs := fun s h => by
  refine ⟨_, step_boot h, ?_, ?_, fun k => ?_⟩
  · rw [State.passTurn_resetPending, State.boot_resetPending]
  · rw [State.passTurn_hub, State.boot_hub]
  · rw [State.passTurn_cogAt]
    exact ⟨State.startAll_cogAt_of_unnamed Config.boot _, State.startAll_cogAt_of_named Config.boot _⟩

end Sys2Proof.Machine
end

section
/-! PROOFS. The counter never runs back: what any part of a step adds to it. -/

namespace Sys2Proof.Machine

/-! ## Clocks passing in the hub (70_reset_and_hazards.md R345) -/

/-- From the one hub to the other some number of clocks has passed, and the counter has counted them. -/
def Hub.RunsTo (b b' : Hub) : Prop := ∃ n : Nat, b'.cnt = b.cnt + BitVec.ofNat 64 n ∧ b'.elapsed = b.elapsed + n

namespace Hub.RunsTo

variable {b b' b'' : Hub} {s : State}

/-- No clock has passed, whatever else has changed. -/
theorem of_same (hc : b'.cnt = b.cnt) (he : b'.elapsed = b.elapsed) : b.RunsTo b' := ⟨0, by simpa using hc, he⟩

theorem refl : b.RunsTo b := .of_same rfl rfl

theorem trans (h : b.RunsTo b') (g : b'.RunsTo b'') : b.RunsTo b'' := by
  obtain ⟨m, hc, he⟩ := h
  obtain ⟨n, gc, ge⟩ := g
  exact ⟨m + n, by rw [gc, hc, BitVec.ofNat_add, BitVec.add_assoc], by rw [ge, he, Nat.add_assoc]⟩

theorem passClocks (n : Nat) : s.hub.RunsTo (s.passClocks n).hub := ⟨n, rfl, rfl⟩

theorem sampleCnt : s.hub.RunsTo s.sampleCnt.hub := passClocks _

theorem samplePasscnt : s.hub.RunsTo s.samplePasscnt.hub := by
  obtain ⟨n, -, -, e⟩ := s.samplePasscnt_eq
  exact e ▸ passClocks n

theorem reachTarget (target : Word) : s.hub.RunsTo (s.reachTarget target).hub := by
  obtain ⟨n, k, e, -⟩ := s.reachTarget_eq target
  exact e ▸ passClocks n

theorem cntDifference (high : Bool) (v : Word) : s.hub.RunsTo (s.cntDifference high v).1.hub := by
  cases high with
  | false => exact sampleCnt
  | true => exact refl

theorem hubUpdate (x : HubOperand) (w : Width) : s.hub.RunsTo (s.hubUpdate x w).hub := s.hubUpdate_hub x w ▸ refl

end Hub.RunsTo

/-- The next state that is answered, if one is, is some number of clocks on, unless the chip has been reset. -/
def CountsOn (b : Hub) (r : Result State) : Prop := ∀ t, r = .next t → t.resetPending = false → b.RunsTo t.hub

namespace CountsOn

variable {α : Type} {b : Hub} {s : State} {r : Result α} {f : α → Result State}

theorem next (h : b.RunsTo s.hub) : CountsOn b (.next s) := fun _ e _ => Host.Outcome.next.inj e ▸ h

theorem refused {e : Refusal} : CountsOn b (.refused e) := nofun

theorem chipReset : CountsOn b (.next s.chipReset) := fun _ e hr => by
  obtain rfl := Host.Outcome.next.inj e
  cases hr

theorem andThen (hf : ∀ a, CountsOn b (f a)) : CountsOn b (Machine.andThen r f) := fun t h hr => by
  obtain ⟨a, -, h⟩ := andThen_eq_next.mp h
  exact hf a t h hr

/-- What an instruction's body adds to the counter, the instruction adds. -/
theorem issue {st : State} {k : BitVec 4} {d sf : Option RegAddr} {body : Operands → State → Result State}
    (hbody : ∀ o s, CountsOn s.hub (body o s)) : CountsOn st.hub (issue k d sf st body) := fun t h hr => by
  rcases issue_eq_next h with rfl | h
  · exact .refl
  · exact hbody _ (st.issued k d sf) t h hr

end CountsOn

/-! ## Each shared operation of the instructions -/

section Operations

open Hub.RunsTo

variable {k : BitVec 4} {d : RegAddr} {s : State}

theorem hubWrite_countsOn {w : Width} {x : HubOperand} : CountsOn s.hub (hubWrite w k d x s) :=
  .issue fun _ _ => .andThen fun _ => .andThen fun _ => .next ((hubUpdate x w).trans (.of_same rfl rfl))

theorem quadWrite_countsOn {x : HubOperand} : CountsOn s.hub (quadWrite k x s) :=
  .issue fun _ _ => .andThen fun _ => .next ((hubUpdate x .quad).trans (.of_same rfl rfl))

theorem hubRead_countsOn {w : Width} {z : Bool} {x : HubOperand} : CountsOn s.hub (hubRead w z k d x s) :=
  .issue fun _ _ => .andThen fun _ => .next (hubUpdate x w)

theorem hubReadCached_countsOn {w : Width} {z : Bool} {x : HubOperand} : CountsOn s.hub (hubReadCached w z k d x s) :=
  .issue fun _ _ => .andThen fun _ => by
    simp only
    split <;> exact .next (hubUpdate x w)

theorem quadRead_countsOn {x : HubOperand} : CountsOn s.hub (quadRead k x s) :=
  .issue fun _ _ => .andThen fun _ => .next (hubUpdate x .quad)

theorem quadReadCached_countsOn {x : HubOperand} : CountsOn s.hub (quadReadCached k x s) :=
  .issue fun _ _ => .andThen fun _ => by
    simp only
    split <;> exact .next (hubUpdate x .quad)

theorem ptrGet_countsOn {sel : PtrSel} {z c r : Bool} : CountsOn s.hub (ptrGet sel z c r k d s) :=
  .issue fun _ _ => .next refl

theorem ptrModify_countsOn {sel : PtrSel} {f : HubAddr → HubAddr → HubAddr} {src : Src} :
    CountsOn s.hub (ptrModify sel f k src s) :=
  .issue fun _ _ => .andThen fun _ => .next refl

theorem execCachex_countsOn : CountsOn s.hub (execCachex k s) := .issue fun _ _ => .next refl

theorem execGettops_countsOn {z : Bool} : CountsOn s.hub (execGettops z k d s) := .issue fun _ _ => .next refl

theorem quadBase_countsOn {f : Cog → Cog} {src : Src} : CountsOn s.hub (quadBase f k src s) :=
  .issue fun _ _ => .andThen fun _ => by
    simp only
    split
    · exact .refused
    · exact .next refl

theorem execCoginit_countsOn {z c r : Bool} {sf : RegAddr} : CountsOn s.hub (execCoginit z c r k d sf s) :=
  .issue fun _ _ => .andThen fun _ => .andThen fun _ => by
    simp only
    split
    · split <;> exact .next refl
    · exact .next refl

/-- CLKSET with R = 1 is a chip reset, after which the counter is free (43_hub_control.md R187). -/
theorem execClkset_countsOn : CountsOn s.hub (execClkset k d s) :=
  .issue fun _ _ => .andThen fun _ => by
    simp only
    split
    · exact .chipReset
    · exact .next (.of_same rfl rfl)

theorem execCogid_countsOn : CountsOn s.hub (execCogid k d s) := .issue fun _ _ => .next refl

theorem execCogstop_countsOn : CountsOn s.hub (execCogstop k d s) := .issue fun _ _ => .andThen fun _ => .next refl

theorem execLocknew_countsOn {z c : Bool} : CountsOn s.hub (execLocknew z c k d s) :=
  .issue fun _ _ => by
    simp only
    split
    · exact .next (.of_same rfl rfl)
    · exact .next refl

theorem execLockret_countsOn : CountsOn s.hub (execLockret k d s) :=
  .issue fun _ _ => .andThen fun _ => .next (.of_same rfl rfl)

theorem lockWrite_countsOn {state c : Bool} : CountsOn s.hub (lockWrite state c k d s) :=
  .issue fun _ _ => .andThen fun _ => .next (.of_same rfl rfl)

theorem indModify_countsOn {fa fb : IndReg → IndReg} : CountsOn s.hub (indModify fa fb s) := .next refl

theorem execSubcnt_countsOn {z c : Bool} : CountsOn s.hub (execSubcnt z c k d s) :=
  .issue fun _ _ => .andThen fun v => .next (cntDifference _ v)

theorem execCmpcnt_countsOn {z c : Bool} : CountsOn s.hub (execCmpcnt z c k d s) :=
  .issue fun _ _ => .andThen fun v => .next (cntDifference _ v)

theorem execPasscnt_countsOn : CountsOn s.hub (execPasscnt k d s) :=
  .issue fun _ _ => .andThen fun _ => .next (by
    split
    · exact samplePasscnt
    · exact samplePasscnt)

theorem execGetcnt_countsOn : CountsOn s.hub (execGetcnt k d s) :=
  .issue fun _ _ => by
    simp only
    split
    · exact .next refl
    · exact .next sampleCnt

/-- A wait adds the clocks of its first read and those until it ends (46_cnt_wait.md R260). -/
theorem execWaitcnt_countsOn {wide r : Bool} {src : Src} : CountsOn s.hub (execWaitcnt wide r k d src s) :=
  .issue fun _ _ => .andThen fun v => .andThen fun _ => by
    cases wide with
    | false => exact .next (sampleCnt.trans (reachTarget v))
    | true => exact .next sampleCnt

theorem waitPins_countsOn {met : Word → Word → Word → Bool} {src : Src} : CountsOn s.hub (waitPins met k d src s) :=
  .issue fun _ s => .andThen fun _ => .andThen fun _ => .next (by
    have sampled : s.hub.RunsTo (s.drawn 2).sampleCnt.hub := sampleCnt (s := s.drawn 2)
    simp only [State.complete_hub, State.drawn_hub]
    split
    · exact sampled
    · exact sampled.trans (reachTarget _))

theorem execMov_countsOn {src : Src} : CountsOn s.hub (execMov k d src s) := .issue fun _ _ => .andThen fun _ => .next refl

theorem execAdd_countsOn {src : Src} : CountsOn s.hub (execAdd k d src s) :=
  .issue fun _ _ => .andThen fun _ => .andThen fun _ => .next refl

end Operations

/-- What any instruction adds to the counter, by the operation that its arm shares. -/
theorem exec_countsOn (i : Instr) (s : State) : CountsOn s.hub (exec i s) := by
  cases i with
  | wrbyteS | wrbyteP | wrwordS | wrwordP | wrlongS | wrlongP => exact hubWrite_countsOn
  | wrquadD | wrquadP => exact quadWrite_countsOn
  | rdbyteS | rdbyteP | rdwordS | rdwordP | rdlongS | rdlongP => exact hubRead_countsOn
  | rdbytecS | rdbytecP | rdwordcS | rdwordcP | rdlongcS | rdlongcP => exact hubReadCached_countsOn
  | rdquadD | rdquadP => exact quadRead_countsOn
  | rdquadcD | rdquadcP => exact quadReadCached_countsOn
  | getptra | getptrb => exact ptrGet_countsOn
  | setptraD | setptraI | setptrbD | setptrbI => exact ptrModify_countsOn (f := fun _ v => v)
  | addptraD | addptraI | addptrbD | addptrbI => exact ptrModify_countsOn (f := (· + ·))
  | subptraD | subptraI | subptrbD | subptrbI => exact ptrModify_countsOn (f := (· - ·))
  | cachex => exact execCachex_countsOn
  | gettops => exact execGettops_countsOn
  | setquadD | setquadI | setquazD | setquazI => exact quadBase_countsOn
  | coginit => exact execCoginit_countsOn
  | clkset => exact execClkset_countsOn
  | cogid => exact execCogid_countsOn
  | cogstop => exact execCogstop_countsOn
  | locknew => exact execLocknew_countsOn
  | lockret => exact execLockret_countsOn
  | lockset | lockclr => exact lockWrite_countsOn
  | setindaSet | setindaAdj | setindbSet | setindbAdj | setindsSetSet | setindsSetAdj | setindsAdjSet | setindsAdjAdj
  | fixinda | fixindb | fixinds => exact indModify_countsOn
  | subcnt => exact execSubcnt_countsOn
  | cmpcnt => exact execCmpcnt_countsOn
  | passcnt => exact execPasscnt_countsOn
  | getcnt => exact execGetcnt_countsOn
  | waitcnt => exact execWaitcnt_countsOn
  | waitpeq | waitpne => exact waitPins_countsOn
  | mov => exact execMov_countsOn
  | add => exact execAdd_countsOn

/-! ## The step -/

theorem State.runLong_countsOn (s : State) (iw : Word) : CountsOn s.hub (s.runLong iw) := by
  unfold State.runLong
  split
  · exact exec_countsOn _ s.advancePc
  · intro t h _
    rw [State.undecoded_eq_next h]
    exact .refl

theorem State.loaderStep_hub (s : State) (l : Load) : (s.loaderStep l).hub = s.hub := by
  unfold State.loaderStep
  split <;> rfl

theorem State.cogStep_countsOn (s : State) : CountsOn s.hub s.cogStep := by
  unfold State.cogStep
  split
  · split
    · exact nofun
    · exact .next .refl
  · exact .next (s.loaderStep_hub _ ▸ .refl)
  · exact .andThen s.runLong_countsOn

theorem step_countsOn (s : State) : CountsOn s.hub (step s) := by
  unfold step
  split
  · exact .next (by rw [State.passTurn_hub, State.boot_hub]; exact .refl)
  · intro t h hr
    obtain ⟨u, hu, ht⟩ := andThen_eq_next.mp h
    obtain rfl := Host.Outcome.next.inj ht
    split at hr
    · next hreset => simp [hreset] at hr
    · next hreset =>
      rw [if_neg hreset, State.passTurn_hub]
      exact s.cogStep_countsOn u hu (Bool.not_eq_true _ ▸ hreset)

/-- Settles O6: whatever the step is, it counts on. -/
theorem counterNeverRunsBack : Obligations.CounterNeverRunsBack := fun s => step_countsOn s

end Sys2Proof.Machine
end
